-- ==== Sys2Proof/Word.lean ====
section
/-! DEFINITION. The word types of the machine: bytes, longwords and register numbers
(spec/20_memory.md R41, spec/10_state.md R22). -/

namespace Sys2Proof

/-- A byte, 8 bits (R41). -/
abbrev Byte := BitVec 8

/-- A longword, an address or a general register, 32 bits (R5, R8, R22). -/
abbrev Word := BitVec 32

/-- A general register number, R0 to R15 (R22). -/
abbrev Reg := Fin 16

/-- R15 is the program counter (R22, R23). -/
abbrev pcReg : Reg := 15

end Sys2Proof
end

