-- ==== Sys2Proof/Config.lean ====
section
/-! DEFINITION. What the spec leaves open and the model does not choose: the free values
(spec/00_scope.md R5, spec/60_exceptions.md R187, R188). No constant here has a body, so no proof
can rest on a value of one. -/

namespace Sys2Proof.Config

/-- The parameter UnpredChoice (R187, D7; log 8), a free value: `true` takes the exception, `false`
the termination with C = 1. Applied to the counter `State.draws`. -/
opaque unpredChoice : Nat → Bool

/-- The parameter FaultChoice (R188, D8; log 9), a free value: which of several exception conditions is
reported, taken modulo their number. Applied to the counter `State.draws`. -/
opaque faultChoice : Nat → Nat

end Sys2Proof.Config
end

