-- ==== Sys2Proof/Syntax.lean ====
section
/-! DEFINITION. The instructions of spec/opcode_table.json and the operand specifiers of
spec/30_encoding.md R64 to R76. -/

namespace Sys2Proof

/-- The data type of an operand, the second letter of `.ab`, `.aq`, `.wl` (R61). -/
inductive DataType where
  | byte
  | long
  | quad
  deriving DecidableEq, Repr

/-- The operand's size in bytes: the step of autoincrement and autodecrement and the scale of an index
(R61, R64). -/
def DataType.size : DataType → Nat
  | .byte => 1
  | .long => 4
  | .quad => 8

/-- An operand specifier without an index prefix of its own, by the high nibble of its first byte (R64). -/
inductive BaseSpec where
  /-- `0x00` to `0x3F`, `S^#lit` (R65). -/
  | literal (v : BitVec 6)
  /-- `0x4x` standing where a base specifier is wanted: a second index prefix (R66). -/
  | indexPrefix (x : Reg)
  /-- `0x5n`, `Rn` (R67). -/
  | register (n : Reg)
  /-- `0x6n`, `(Rn)` (R68). -/
  | deferred (n : Reg)
  /-- `0x7n`, `-(Rn)` (R69). -/
  | autodec (n : Reg)
  /-- `0x8n`, `(Rn)+`, n not 15 (R70). -/
  | autoinc (n : Reg)
  /-- `0x8F`, `I^#const`, with its data bytes (R71). -/
  | immediate (data : List Byte)
  /-- `0x9n`, `@(Rn)+`, n not 15 (R72). -/
  | autoincDeferred (n : Reg)
  /-- `0x9F`, `@#address` (R73). -/
  | absolute (address : Word)
  /-- `0xAn`, `B^d(Rn)`; PC-relative when n is 15 (R74, R76). -/
  | byteDisp (n : Reg) (d : BitVec 8)
  /-- `0xBn`, `@B^d(Rn)` (R75, R76). -/
  | byteDispDeferred (n : Reg) (d : BitVec 8)
  /-- `0xCn`, `W^d(Rn)` (R74, R76). -/
  | wordDisp (n : Reg) (d : BitVec 16)
  /-- `0xDn`, `@W^d(Rn)` (R75, R76). -/
  | wordDispDeferred (n : Reg) (d : BitVec 16)
  /-- `0xEn`, `L^d(Rn)` (R74, R76). -/
  | longDisp (n : Reg) (d : BitVec 32)
  /-- `0xFn`, `@L^d(Rn)` (R75, R76). -/
  | longDispDeferred (n : Reg) (d : BitVec 32)
  deriving DecidableEq, Repr

/-- An operand specifier: a base specifier, or an index prefix followed by one (R64, R66). -/
inductive Specifier where
  | plain (base : BaseSpec)
  | indexed (x : Reg) (base : BaseSpec)
  deriving DecidableEq, Repr

/-- The instructions, one constructor per row of spec/opcode_table.json, operands in the order of the
Format line (R60, R62, R63, R82). -/
inductive Instr where
  /-- INSQUE entry.ab, pred.ab (R132). -/
  | insque (entry pred : Specifier)
  /-- REMQUE entry.ab, addr.wl (R152). -/
  | remque (entry addr : Specifier)
  /-- BRB displacement (R174). -/
  | brb (d : BitVec 8)
  /-- BEQL displacement (R171). -/
  | beql (d : BitVec 8)
  /-- BVS displacement (R173). -/
  | bvs (d : BitVec 8)
  /-- BCS displacement (R172). -/
  | bcs (d : BitVec 8)
  /-- INSQHI entry.ab, header.aq (R130). -/
  | insqhi (entry header : Specifier)
  /-- INSQTI entry.ab, header.aq (R131). -/
  | insqti (entry header : Specifier)
  /-- REMQHI header.aq, addr.wl (R150). -/
  | remqhi (header addr : Specifier)
  /-- REMQTI header.aq, addr.wl (R151). -/
  | remqti (header addr : Specifier)
  deriving DecidableEq, Repr

end Sys2Proof
end

