-- ==== Sys2Proof/Machine/State.lean ====
section
/-! DEFINITION. The state of the machine as plain data, the reasons it can stop, and the state a run
starts from (spec/10_state.md, spec/70_reset_and_hazards.md R210). -/

namespace Sys2Proof.Machine

/-- The four access modes, PSL<25:24> (R24, R196). -/
inductive AccessMode where
  | kernel
  | executive
  | supervisor
  | user
  deriving DecidableEq, Repr

/-- The kind of access `Probe` is asked about (R46). -/
inductive AccessKind where
  | read
  | write
  deriving DecidableEq, Repr

/-- The reasons of a memory management exception (R46, R183). -/
inductive MMReason where
  | accessControlViolation
  | translationNotValid
  deriving DecidableEq, Repr

/-- Why a read and why a write of a quadword is denied. R46 leaves the reasons opaque, for each kind of
access by itself (log 6). -/
structure Denial where
  read : MMReason
  write : MMReason
  deriving DecidableEq, Repr

/-- What one mode may do with a quadword; a write that may be made implies that the read may (R46). -/
inductive Access where
  | readWrite
  | readOnly (why : MMReason)
  | noAccess (why : Denial)
  deriving DecidableEq, Repr

/-- The access of each mode. -/
structure Rights where
  kernel : Access
  executive : Access
  supervisor : Access
  user : Access
  deriving DecidableEq, Repr

/-- A run of aligned quadwords with the same rights: quadword `first` and the `count - 1` after it.
The answer of `Probe` is the same for every byte of one aligned quadword (R46). -/
structure Region where
  first : Nat
  count : Nat
  rights : Rights
  deriving DecidableEq, Repr

/-- The data behind the parameter `Probe` (R46; log 6): the first region that holds an address
decides, else `outside`. No access to a quadword that memory does not map succeeds, whatever the rights
(R47(d), D5); where the rights allow it, `unmapped` says why. -/
structure AccessMap where
  regions : List Region
  outside : Rights
  unmapped : Denial
  deriving DecidableEq, Repr

/-- Addresses that hold program text: `size` bytes from `base` on (R28, R51; log 10). -/
structure TextRange where
  base : Word
  size : Nat
  deriving DecidableEq, Repr

/-- The parameters of the step relation that are data (R5, R28); no step changes them. -/
structure Params where
  /-- The parameter `Probe` (R46). -/
  access : AccessMap
  /-- Where the program text stands (R51). -/
  text : List TextRange
  /-- The parameter `END` (R219; log 11); `none` when a run has no end. -/
  endAt : Option Word
  deriving DecidableEq, Repr

/-- The destination of a `.wl` operand (R61, R111). -/
inductive Dest where
  | reg (n : Reg)
  | mem (a : Word)
  deriving DecidableEq, Repr

/-- The operands an interlocked instruction keeps, beside its header, between step A and step B (R109). -/
inductive HeldOp where
  | insqhi (entry : Word)
  | insqti (entry : Word)
  | remqhi (addr : Dest)
  /-- `backward` is the header's backward link, read in step A (R109, R151). -/
  | remqti (addr : Dest) (backward : Word)
  deriving DecidableEq, Repr

/-- An interlocked instruction that has taken step A: it holds the secondary interlock of `header` (R109). -/
structure Pending where
  op : HeldOp
  header : Word
  /-- The header's forward link before the interlock was set (R106, `tmp1`). -/
  forward : Word
  /-- The registers before the instruction, to undo its specifiers if step B faults (R77, R190). -/
  startRegs : Vector Word 16
  deriving DecidableEq, Repr

/-- One access to a longword of memory, a read or a write; `via` is the header of the interlocked queue
operation that made it, `none` for any other access (R47, D9; log 14). -/
structure Touch where
  addr : Word
  via : Option Word
  deriving DecidableEq, Repr

/-- One processor (R198): registers, status and condition codes are its own. -/
structure Cpu where
  /-- R0 to R15; R15 is the program counter (R22, R23). -/
  regs : Vector Word 16
  /-- The processor status longword (R20, R21). -/
  psl : Word
  /-- The instruction between its step A and its step B, if any (R109). -/
  pending : Option Pending
  /-- The model's own: what this processor has accessed while there are others (log 14). -/
  touched : List Touch
  deriving DecidableEq, Repr

/-- Memory: address and byte, addresses strictly rising. An address not listed holds no value (R25, R210; log 5). -/
abbrev Memory := List Host.Cell

/-- The state of the machine. -/
structure State where
  /-- The processor that moves next. -/
  cpu : Cpu
  /-- The other processors; NCPU is one more than their number (R5, R198). -/
  others : List Cpu
  /-- The model's own: which processor moves after each step, 0 for the same one, k + 1 for `others[k]` (log 13). -/
  turns : List Nat
  /-- The one memory all processors share (R25, R49). -/
  mem : Memory
  params : Params
  /-- The model's own: the counter the free values of Config are applied to (logs 8, 9, 29). -/
  draws : Nat
  deriving DecidableEq, Repr

/-- The exceptions of R180, all of them faults. -/
inductive Exception where
  /-- R181, R182. -/
  | reservedOperand
  /-- R184. -/
  | reservedAddressingMode
  /-- R183; the reason and the address are `Probe`'s. -/
  | memoryManagement (why : MMReason) (va : Word)
  deriving DecidableEq, Repr

/-- Why a run ends in a fault. -/
inductive Fault where
  /-- An exception of the machine, raised by a queue instruction, with the state it leaves: the outcome
  `Fault(kind, info)` of R190, terminal. As the spec has it; it errs toward unprovable (safe; log 1). -/
  | raised (e : Exception) (left : State)
  /-- A fault of the model: memory that holds no value was read, by the fetch; no queue instruction reads any,
  since its probes fail there (safe; log 5). -/
  | noValue (a : Word)
  deriving DecidableEq, Repr

/-- Why the model refuses to go on; every constructor stops where the hardware may go on (safe). -/
inductive Refusal where
  /-- An arm of `exec` that has no meaning yet; no arm is so (safe). -/
  | notModelled (mnemonic : String)
  /-- The fetch: the opcode byte is not in the opcode table (R79, D14; safe; log 25). -/
  | opcodeNotInSpec (op : Byte)
  /-- The fetch: the program counter would pass 0xFFFFFFFF (R23, D3; safe; log 12). -/
  | pcWrap
  /-- The fetch: the program counter stands outside the program text (R51, R219; safe; log 10). -/
  | fetchOutsideText (a : Word)
  /-- The fetch: more bytes than any instruction has; never raised (safe; log 22). -/
  | fetchTooLong
  /-- Operand evaluation: a specifier form the spec calls UNPREDICTABLE (R64, R66, R67, R71, D21; safe; log 17). -/
  | unpredictableSpecifier
  /-- Operand evaluation: an immediate as an address operand (R71; safe; log 18). -/
  | immediateOperand
  /-- Any store of a queue instruction that would change program text (R51, D18; safe; log 10). -/
  | programTextStore (a : Word)
  /-- An interlocked instruction: exactly one of the header's links is zero (R105, D15; safe; log 15). -/
  | inconsistentHeader
  /-- A queue instruction: the entry to insert or the addr operand overlaps an element of the queue, or two
  neighbours overlap (D20; safe; log 16). -/
  | overlap
  /-- REMQUE: the entry to remove is no element of a well-formed absolute queue (R152, D20; safe; log 16). -/
  | notInQueue
  /-- A queue instruction: an access that races with one of another processor (R47, D9; safe; log 14). -/
  | race (a : Word)
  deriving DecidableEq, Repr

/-- Why a computation inside a step stops. -/
inductive Stop where
  | raise (e : Exception)
  | noValue (a : Word)
  | refuse (r : Refusal)
  deriving DecidableEq, Repr

/-- A computation inside a step: a value, or the reason it stops. -/
abbrev Res := Except Stop

/-- No mode is denied anything that memory maps: the default of D5. -/
def Rights.all : Rights := ⟨.readWrite, .readWrite, .readWrite, .readWrite⟩

/-- A processor with every register zero, kernel mode, condition codes clear (logs 2, 3, 4). -/
def Cpu.reset : Cpu where
  regs := Vector.replicate 16 0#32
  psl := 0#32
  pending := none
  touched := []

/-- The state a run starts from when nothing is given: R29 and R210 replace reset by a launch state, so
every value here is the model's (DESIGN CHOICE, unsafe; logs 2, 3, 4, 5, 6, 10, 11, 13, 29). -/
def State.reset : State where
  cpu := Cpu.reset
  others := []
  turns := []
  mem := []
  params := {
    access := {
      regions := [],
      outside := Rights.all,
      unmapped := { read := .translationNotValid, write := .translationNotValid } },
    text := [],
    endAt := none }
  draws := 0

end Sys2Proof.Machine
end

