-- ==== Sys2Proof/Machine/Ops.lean ====
section
/-! DEFINITION. The named operations over registers and memory that every instruction is written with:
bit fields and overlap, memory (spec/20_memory.md R43), access validation (R46), loads and stores with
the model's checks (R51, D9), choosing an exception (spec/60_exceptions.md R188), taking a fault (R190)
and passing the turn (spec/40_queue_common.md R109). -/

namespace Sys2Proof.Machine

/-! ## Bits -/

/-- `n` bits of `w` from bit `lo` up, as a number (R8, `v[hi:lo]`). -/
def field (w : Word) (lo n : Nat) : Nat := w.toNat / 2 ^ lo % 2 ^ n

/-- Quadword aligned: bits <2:0> zero (R44). -/
def aligned8 (a : Word) : Bool := field a 0 3 == 0

/-- The `n` bytes from `a` and the `m` bytes from `b` have a byte in common, addresses modulo 2^32. -/
def overlaps (a : Word) (n : Nat) (b : Word) (m : Nat) : Bool :=
  (decide ((b - a).toNat < n) && decide (0 < m)) || (decide ((a - b).toNat < m) && decide (0 < n))

/-- Two queue elements share no byte of their link quadwords (D20). -/
def elementsApart (a b : Word) : Bool := !overlaps a 8 b 8

/-! ## Memory -/

/-- The byte at an address, `none` where memory holds no value (R25, R210). -/
def Memory.readByte : Memory → Nat → Option Byte
  | [], _ => none
  | (k, v) :: rest, a => if k = a then some v else Memory.readByte rest a

/-- Memory with one byte replaced, in the canonical form. -/
def Memory.writeByte : Memory → Nat → Byte → Memory
  | [], a, b => [(a, b)]
  | (k, v) :: rest, a, b =>
    if a < k then (a, b) :: (k, v) :: rest
    else if a = k then (a, b) :: rest
    else (k, v) :: Memory.writeByte rest a b

/-- The canonical form: addresses strictly rising, all below 2^32. -/
def Memory.wf : Memory → Bool
  | [] => true
  | [(k, _)] => decide (k < 2 ^ 32)
  | (k, _) :: (k', v') :: rest => decide (k < k') && Memory.wf ((k', v') :: rest)

/-- `MemRead(addr, n)`: the sum over i of Mem[addr + i] * 2^(8i) (R43). -/
def Memory.read (m : Memory) (a : Word) : Nat → Option Nat
  | 0 => some 0
  | n + 1 => do
    let b ← m.readByte a.toNat
    let rest ← Memory.read m (a + 1) n
    some (b.toNat + 256 * rest)

/-- `MemWrite(addr, n, v)`: byte i of v to Mem[addr + i] (R43). -/
def Memory.write (m : Memory) (a : Word) : Nat → Nat → Memory
  | 0, _ => m
  | n + 1, v => Memory.write (m.writeByte a.toNat (BitVec.ofNat 8 v)) (a + 1) n (v / 256)

/-- `M4[a]` as a value (R10). -/
def Memory.read4 (m : Memory) (a : Word) : Option Word := (m.read a 4).map (BitVec.ofNat 32)

/-- `M4[a] <- v` (R10). -/
def Memory.write4 (m : Memory) (a v : Word) : Memory := m.write a 4 v.toNat

/-! ## Access validation -/

/-- The access a mode has. -/
def Rights.of (r : Rights) : AccessMode → Access
  | .kernel => r.kernel
  | .executive => r.executive
  | .supervisor => r.supervisor
  | .user => r.user

/-- A region holds an address when it holds its quadword (R46). -/
def Region.covers (r : Region) (a : Word) : Bool :=
  decide (r.first ≤ a.toNat / 8) && decide (a.toNat / 8 < r.first + r.count)

/-- The rights at an address. -/
def AccessMap.rightsAt (m : AccessMap) (a : Word) : Rights :=
  match m.regions.find? (·.covers a) with
  | some r => r.rights
  | none => m.outside

/-- The reason for a kind of access. -/
def Denial.of (d : Denial) : AccessKind → MMReason
  | .read => d.read
  | .write => d.write

/-- Why the rights deny an access of one byte, `none` when they allow it. A read and a write of one quadword
may be denied for different reasons (R46 leaves `reason` opaque; log 6). -/
def Access.denies : Access → AccessKind → Option MMReason
  | .readWrite, _ => none
  | .readOnly _, .read => none
  | .readOnly why, .write => some why
  | .noAccess why, kind => some (why.of kind)

/-- Memory maps the aligned quadword of an address: it holds all eight bytes (R47(d), R210, D5). No step
changes which quadwords these are. DESIGN CHOICE (log 6): a quadword of which memory holds only some bytes
is not mapped, since `Probe` answers alike for all its bytes (R46). -/
def Memory.maps (m : Memory) (a : Word) : Bool :=
  (List.range 8).all fun i => (m.readByte (a.toNat / 8 * 8 + i)).isSome

/-- Why an access of one byte cannot be completed, `none` when it can: the rights deny it, or memory does not
map the byte's quadword (R46, R47(d), D5; log 6). -/
def AccessMap.denial (m : AccessMap) (mem : Memory) (kind : AccessKind) (mode : AccessMode) (a : Word) :
    Option MMReason :=
  match ((m.rightsAt a).of mode).denies kind with
  | some why => some why
  | none => if mem.maps a then none else some (m.unmapped.of kind)

/-- `Probe(addr, n, kind, mode)`: `none` for ok, else the memory management exception of the first byte
that cannot be accessed (R46). DESIGN CHOICE (log 6): that `va` is this byte's address, and the reason one
for each quadword, mode and kind. -/
def AccessMap.probe (m : AccessMap) (mem : Memory) (kind : AccessKind) (mode : AccessMode) (a : Word) :
    Nat → Option Exception
  | 0 => none
  | n + 1 =>
    match m.denial mem kind mode a with
    | some why => some (.memoryManagement why a)
    | none => AccessMap.probe m mem kind mode (a + 1) n

/-! ## Registers and status -/

/-- `x[n]` (R9, R22). -/
def State.reg (s : State) (n : Reg) : Word := s.cpu.regs[n]

/-- `x[n] <- v` (R9, R22). -/
def State.setReg (s : State) (n : Reg) (v : Word) : State :=
  { s with cpu := { s.cpu with regs := s.cpu.regs.set n v } }

/-- The program counter, R15 (R23). -/
def State.pc (s : State) : Word := s.reg pcReg

/-- `pc <- target` (R9). -/
def State.setPc (s : State) (target : Word) : State := s.setReg pcReg target

/-- Consume `n` bytes of the instruction stream (R23). -/
def State.advance (s : State) (n : Nat) : State := s.setPc (s.pc + BitVec.ofNat 32 n)

/-- The current access mode, PSL<25:24> (R21, R24). -/
def modeOf (psl : Word) : AccessMode :=
  match field psl 24 2 with
  | 0 => .kernel
  | 1 => .executive
  | 2 => .supervisor
  | _ => .user

/-- Probe in the current mode (R46). -/
def State.probe (s : State) (a : Word) (n : Nat) (kind : AccessKind) : Option Exception :=
  s.params.access.probe s.mem kind (modeOf s.cpu.psl) a n

/-- Probe a destination for writing; a register needs none (R106 phase 1). -/
def State.probeDest (s : State) : Dest → Option Exception
  | .reg _ => none
  | .mem a => s.probe a 4 .write

/-- No processor but this one (R109, NCPU = 1). -/
def State.alone (s : State) : Bool := s.others.isEmpty

/-! ## Exceptions -/

/-- Add an exception condition to a set of them, kept as a list with no repeats (R106, `E`). -/
def addCondition (e : Option Exception) (conditions : List Exception) : List Exception :=
  match e with
  | none => conditions
  | some e => if e ∈ conditions then conditions else e :: conditions

/-- An exception condition that holds when `test` does. -/
def conditionIf (test : Bool) (e : Exception) : Option Exception := if test then some e else none

/-- Which of the conditions `e` and `rest` is reported: any one, a free choice (R188, D8; log 9). -/
def State.choose (s : State) (e : Exception) (rest : List Exception) : Exception :=
  match rest with
  | [] => e
  | _ :: _ => (e :: rest).getD (Config.faultChoice s.draws % (rest.length + 1)) e

/-- Raise an exception if one of `conditions` holds: any one of these and of `further`, the conditions that
checks after this one would find (R106, R188, D8; log 9). -/
def State.raiseAny (s : State) (conditions further : List Exception) : Res Unit :=
  match conditions with
  | [] => .ok ()
  | e :: rest => .error (.raise (s.choose e (rest ++ further)))

/-- Probe, raising the exception it gives (R183). -/
def State.demand (s : State) (a : Word) (n : Nat) (kind : AccessKind) : Res Unit :=
  match s.probe a n kind with
  | none => .ok ()
  | some e => .error (.raise e)

/-- Go on only if `test` holds; otherwise the model refuses. -/
def require (test : Bool) (r : Refusal) : Res Unit := if test then .ok () else .error (.refuse r)

/-- Go on only if `test` holds; otherwise the machine raises `e`. -/
def unlessRaise (test : Bool) (e : Exception) : Res Unit := if test then .ok () else .error (.raise e)

/-- Taking a fault, the one place it is done: the outcome `Fault(kind, info)` with the state it leaves,
terminal (R190, D6; log 1). -/
def takeFault (e : Exception) (left : State) : Host.Outcome State Fault Refusal :=
  .fault (.raised e left)

/-- The outcome of a computation that stopped, where a fault leaves the state `left`. -/
def Stop.outcome (left : State) : Stop → Host.Outcome State Fault Refusal
  | .raise e => takeFault e left
  | .noValue a => .fault (.noValue a)
  | .refuse r => .refused r

/-- The outcome of a computation, where a fault leaves the state `left`. -/
def finish (left : State) : Res State → Host.Outcome State Fault Refusal
  | .ok s => .next s
  | .error stop => stop.outcome left

/-! ## Loads and stores -/

/-- Two accesses of different processors that race: they overlap and are not made through interlocked
instructions on the same header. Reads count as writes do: D9 admits no other overlap (R47, R109, D9; log 14). -/
def Touch.races (t u : Touch) : Bool :=
  overlaps t.addr 4 u.addr 4 && (t.via.isNone || t.via != u.via)

/-- Record an access while there are other processors, refusing one that races (D9; log 14). -/
def State.touch (s : State) (t : Touch) : Res State :=
  if s.alone then .ok s
  else if s.others.any fun c => c.touched.any t.races then .error (.refuse (.race t.addr))
  else .ok { s with cpu := { s.cpu with touched := t :: s.cpu.touched } }

/-- Read one longword (R10, R45). `via` is the header of the interlocked operation reading, if any. -/
def State.load (s : State) (via : Option Word) (a : Word) : Res (Word × State) := do
  let s ← s.touch { addr := a, via }
  match s.mem.read4 a with
  | some v => .ok (v, s)
  | none => .error (.noValue a)

/-- The program text holds a byte of the longword at `a` (R51). -/
def State.inText (s : State) (a : Word) (n : Nat) : Bool :=
  s.params.text.any fun r => overlaps a n r.base r.size

/-- Write one longword (R10, R45); program text is not writable (R51, D18). -/
def State.store (s : State) (via : Option Word) (a v : Word) : Res State := do
  require (!s.inText a 4) (.programTextStore a)
  let s ← s.touch { addr := a, via }
  .ok { s with mem := s.mem.write4 a v }

/-- `WriteDest(d, v)` (R11). The write comes after the links, outside any interlock (R106 phase 6). -/
def State.writeDest (s : State) (d : Dest) (v : Word) : Res State :=
  match d with
  | .reg n => .ok (s.setReg n v)
  | .mem a => s.store none a v

/-- A destination shares no byte with a queue element's link quadword (D20). -/
def Dest.apart (d : Dest) (element : Word) : Bool :=
  match d with
  | .reg _ => true
  | .mem a => !overlaps a 4 element 8

/-- A destination shares no byte with any of the elements (D20). -/
def Dest.apartAll (d : Dest) (elements : List Word) : Bool := elements.all d.apart

/-! ## Turns -/

/-- Pass the turn to the processor the schedule names, or keep it when it names none (R49, R109; log 13). -/
def State.nextTurn (s : State) : State :=
  match s.turns with
  | [] => s
  | 0 :: turns => { s with turns }
  | (k + 1) :: turns =>
    match s.others[k]? with
    | none => { s with turns }
    | some c => { s with cpu := c, others := s.others.set k s.cpu, turns }

/-- Apply a function to the next state of an outcome. -/
def onNext (f : State → State) :
    Host.Outcome State Fault Refusal → Host.Outcome State Fault Refusal
  | .next s => .next (f s)
  | .fault r => .fault r
  | .refused r => .refused r

end Sys2Proof.Machine
end

