-- ==== Sys2Proof/Machine/Flags.lean ====
section
/-! DEFINITION. The condition codes N, Z, V, C in the PSL (spec/10_state.md R20, R21) and the comparisons
that set them (spec/40_queue_common.md R110). -/

namespace Sys2Proof.Machine

/-- The PSL with the four condition codes replaced, N in bit 3, Z in bit 2, V in bit 1, C in bit 0; every
other bit kept (R9, R21). -/
def withCC (psl : Word) (n z v c : Bool) : Word :=
  psl.extractLsb' 4 28 ++ BitVec.ofBool n ++ BitVec.ofBool z ++ BitVec.ofBool v ++ BitVec.ofBool c

/-- `cc <- (n, z, v, c)` (R9). -/
def State.setCC (s : State) (n z v c : Bool) : State :=
  { s with cpu := { s.cpu with psl := withCC s.cpu.psl n z v c } }

/-- The condition code N (R20, R21). -/
def State.ccN (s : State) : Bool := s.cpu.psl.getLsbD 3

/-- The condition code Z (R20, R21). -/
def State.ccZ (s : State) : Bool := s.cpu.psl.getLsbD 2

/-- The condition code V (R20, R21). -/
def State.ccV (s : State) : Bool := s.cpu.psl.getLsbD 1

/-- The condition code C (R20, R21). -/
def State.ccC (s : State) : Bool := s.cpu.psl.getLsbD 0

/-- `a LSS b`, the signed compare (R6, R110). -/
def lss (a b : Word) : Bool := a.slt b

/-- `a LSSU b`, the unsigned compare (R6, R110). -/
def lssu (a b : Word) : Bool := a.ult b

/-- The codes of a compare of two links, as INSQUE and REMQUE set them, with V given (R20). -/
def State.compareCC (s : State) (a b : Word) (v : Bool) : State :=
  s.setCC (lss a b) (a == b) v (lssu a b)

end Sys2Proof.Machine
end

