-- ==== Sys2Proof/Machine/Branches.lean ====
section
/-! DEFINITION. The four branches of the source's examples (spec/45_aux_branches.md R170 to R174). -/

namespace Sys2Proof.Machine

/-- A branch of two bytes: `pc` to the byte after it, plus the sign-extended displacement if taken (R170). -/
def branch (taken : Bool) (d : BitVec 8) (s : State) : State :=
  let next := s.pc + 2
  s.setPc (if taken then next + d.signExtend 32 else next)

/-- BRB: always taken (R174). -/
def execBrb (d : BitVec 8) (s : State) : Host.Outcome State Fault Refusal :=
  .next (branch true d s)

/-- BEQL: taken if Z = 1 (R171). -/
def execBeql (d : BitVec 8) (s : State) : Host.Outcome State Fault Refusal :=
  .next (branch s.ccZ d s)

/-- BVS: taken if V = 1 (R173). -/
def execBvs (d : BitVec 8) (s : State) : Host.Outcome State Fault Refusal :=
  .next (branch s.ccV d s)

/-- BCS: taken if C = 1 (R172). -/
def execBcs (d : BitVec 8) (s : State) : Host.Outcome State Fault Refusal :=
  .next (branch s.ccC d s)

end Sys2Proof.Machine
end

