-- ==== Sys2Proof/Machine/Operands.lean ====
section
/-! DEFINITION. Operand specifiers (spec/30_encoding.md R61, R64 to R77): the address or destination each
one gives, with its register side effects. Every function takes the state with `pc` at the specifier
and gives it with `pc` after the specifier (R23). -/

namespace Sys2Proof.Machine

/-- Bytes of a base specifier in the instruction stream (R78). -/
def baseLength : BaseSpec → Nat
  | .literal _ | .indexPrefix _ | .register _ | .deferred _ | .autodec _ | .autoinc _
  | .autoincDeferred _ => 1
  | .immediate data => 1 + data.length
  | .absolute _ => 5
  | .byteDisp _ _ | .byteDispDeferred _ _ => 2
  | .wordDisp _ _ | .wordDispDeferred _ _ => 3
  | .longDisp _ _ | .longDispDeferred _ _ => 5

/-- Bytes of a specifier in the instruction stream (R78). -/
def specifierLength : Specifier → Nat
  | .plain b => baseLength b
  | .indexed _ b => 1 + baseLength b

/-- Read the pointer of a deferred mode, after its own probe (R72, R75). -/
def State.pointer (s : State) (p : Word) : Res (Word × State) := do
  s.demand p 4 .read
  s.load none p

/-- The form is UNPREDICTABLE with the program counter as its register (R64, D21; log 17). -/
def notPc (n : Reg) : Res Unit := require (n != pcReg) .unpredictableSpecifier

/-- The effective address of a base specifier for an operand of `size` bytes (R65, R67 to R76). -/
def baseAddress (size : Nat) (b : BaseSpec) (s : State) : Res (Word × State) :=
  let s := s.advance (baseLength b)
  match b with
  | .literal _ => .error (.raise .reservedAddressingMode)
  | .indexPrefix _ => .error (.raise .reservedAddressingMode)
  | .register n => do
    notPc n
    .error (.raise .reservedAddressingMode)
  | .deferred n => do
    notPc n
    .ok (s.reg n, s)
  | .autodec n => do
    notPc n
    let a := s.reg n - BitVec.ofNat 32 size
    .ok (a, s.setReg n a)
  | .autoinc n => do
    notPc n
    let a := s.reg n
    .ok (a, s.setReg n (a + BitVec.ofNat 32 size))
  | .immediate _ => .error (.refuse .immediateOperand)
  | .autoincDeferred n => do
    notPc n
    let (a, s) ← s.pointer (s.reg n)
    .ok (a, s.setReg n (s.reg n + 4))
  | .absolute address => .ok (address, s)
  | .byteDisp n d => .ok (s.reg n + d.signExtend 32, s)
  | .wordDisp n d => .ok (s.reg n + d.signExtend 32, s)
  | .longDisp n d => .ok (s.reg n + d, s)
  | .byteDispDeferred n d => s.pointer (s.reg n + d.signExtend 32)
  | .wordDispDeferred n d => s.pointer (s.reg n + d.signExtend 32)
  | .longDispDeferred n d => s.pointer (s.reg n + d)

/-- The register a base specifier steps: autodecrement, autoincrement, autoincrement deferred (R69, R70, R72). -/
def baseSteps : BaseSpec → Option Reg
  | .autodec n | .autoinc n | .autoincDeferred n => some n
  | .literal _ | .indexPrefix _ | .register _ | .deferred _ | .immediate _ | .absolute _
  | .byteDisp _ _ | .byteDispDeferred _ _ | .wordDisp _ _ | .wordDispDeferred _ _
  | .longDisp _ _ | .longDispDeferred _ _ => none

/-- The register a specifier steps, the only one besides `pc` it writes (R77). -/
def specifierSteps : Specifier → Option Reg
  | .plain b => baseSteps b
  | .indexed _ b => baseSteps b

/-- Whether a base specifier may stand under an index prefix (R66): a short literal, a register or another
prefix raises a fault, an immediate is UNPREDICTABLE, and so is stepping the index register. -/
def indexable (x : Reg) (b : BaseSpec) : Res Unit :=
  match b with
  | .literal _ | .indexPrefix _ | .register _ => .error (.raise .reservedAddressingMode)
  | .immediate _ => .error (.refuse .unpredictableSpecifier)
  | _ => require (baseSteps b != some x) .unpredictableSpecifier

/-- The effective address of an address operand of data type `dt` (R61 access type a, R66). -/
def evalAddress (dt : DataType) (sp : Specifier) (s : State) : Res (Word × State) :=
  match sp with
  | .plain b => baseAddress dt.size b s
  | .indexed x b => do
    unlessRaise (x != pcReg) .reservedAddressingMode
    indexable x b
    let (base, s) ← baseAddress dt.size b (s.advance 1)
    .ok (base + s.reg x * BitVec.ofNat 32 dt.size, s)

/-- The destination of a longword write operand (R61 access type w, R67, R71). -/
def evalDest (sp : Specifier) (s : State) : Res (Dest × State) :=
  match sp with
  | .plain (.register n) => do
    notPc n
    .ok (.reg n, s.advance 1)
  | .plain (.immediate _) => .error (.refuse .unpredictableSpecifier)
  | sp => do
    let (a, s) ← evalAddress .long sp s
    .ok (.mem a, s)

/-- The operands of an insertion, in stream order, after the opcode byte (R77): `entry.ab` and an address
operand of data type `dt`. -/
def evalInsertion (dt : DataType) (entry target : Specifier) (s : State) :
    Res (Word × Word × State) := do
  let (e, s) ← evalAddress .byte entry (s.advance 1)
  let (t, s) ← evalAddress dt target s
  .ok (e, t, s)

/-- The operands of a removal, in stream order, after the opcode byte (R77): an address operand of data
type `dt` and `addr.wl`. -/
def evalRemoval (dt : DataType) (source addr : Specifier) (s : State) :
    Res (Word × Dest × State) := do
  let (a, s) ← evalAddress dt source (s.advance 1)
  let (d, s) ← evalDest addr s
  .ok (a, d, s)

end Sys2Proof.Machine
end

