-- ==== Sys2Proof/Machine/Rings.lean ====
section
/-! DEFINITION. The two kinds of queue as rings of linked elements in memory (spec/40_queue_common.md R100 to
R103), and the elements that following the forward links reaches. The instructions look at them only to
refuse what D20 has a model refuse; such a look is the model's, no access of the machine (log 16). -/

namespace Sys2Proof.Machine

/-! ## Self-relative queues -/

/-- The element `y` follows `x`: their links hold the displacements (R100). -/
def selfLinked (m : Memory) (x y : Word) : Bool :=
  m.read4 x == some (y - x) && m.read4 (y + 4) == some (x - y)

/-- From `x` through the entries given and back to the header `h`, each linked to the next (R101). -/
def selfChain (m : Memory) (h : Word) : Word → List Word → Bool
  | x, [] => selfLinked m x h
  | x, y :: ys => selfLinked m x y && selfChain m h y ys

/-- `SRQueue(H, [e1..en])`: a well-formed self-relative queue, its secondary interlock clear (R101). -/
def SRQueue (m : Memory) (h : Word) (entries : List Word) : Bool :=
  (h :: entries).all aligned8 && decide (h :: entries).Nodup && selfChain m h h entries

/-- The entries that forward links reach from `x` on, at most the number given: to the header, to an address
that is not quadword aligned and so no element (R100), or to a link memory does not hold. -/
def selfEntries (m : Memory) (header : Word) : Nat → Word → List Word
  | 0, _ => []
  | n + 1, x =>
    if x = header ∨ aligned8 x = false then []
    else x :: match m.read4 x with
      | some link => selfEntries m header n (x + link)
      | none => []

/-! ## Absolute queues -/

/-- The element `y` follows `x`: their links hold each other's address (R102). -/
def absLinked (m : Memory) (x y : Word) : Bool :=
  m.read4 x == some y && m.read4 (y + 4) == some x

/-- From `x` through the entries given and back to the header `h`, each linked to the next (R103). -/
def absChain (m : Memory) (h : Word) : Word → List Word → Bool
  | x, [] => absLinked m x h
  | x, y :: ys => absLinked m x y && absChain m h y ys

/-- `AbsQueue(H, [e1..en])`: a well-formed absolute queue; its elements do not overlap (R103). Any element of
the ring may stand for `H`. -/
def AbsQueue (m : Memory) (h : Word) (entries : List Word) : Bool :=
  decide ((h :: entries).Pairwise fun x y => elementsApart x y = true) && absChain m h h entries

/-- The elements that forward links reach from `x` on before `start`, at most the number given. -/
def absEntries (m : Memory) (start : Word) : Nat → Word → List Word
  | 0, _ => []
  | n + 1, x =>
    if x = start then []
    else x :: match m.read4 x with
      | some next => absEntries m start n next
      | none => []

/-! ## As many elements as memory can hold -/

/-- Every entry that forward links reach from `x` on: no more distinct elements than memory has bytes. -/
def State.selfEntries (s : State) (header x : Word) : List Word :=
  Machine.selfEntries s.mem header s.mem.length x

/-- Every element of the ring that forward links reach from `x` on before `start`. -/
def State.absEntries (s : State) (start x : Word) : List Word :=
  Machine.absEntries s.mem start s.mem.length x

end Sys2Proof.Machine
end

