-- ==== Sys2Proof/Machine/QueueAbsolute.lean ====
section
/-! DEFINITION. INSQUE (spec/41_queue_insert.md R132) and REMQUE (spec/42_queue_remove.md R152). All their
checks come first; one that needs a link whose own check failed cannot be made, and of all the exception
conditions that hold any one is reported (R108, R188, D8; log 9). DESIGN CHOICE (log 16): what D20 has a model
refuse is refused when no exception condition holds, before the first link is written. -/

namespace Sys2Proof.Machine

/-- INSQUE's exception condition beyond the link of the predecessor: the probe of the successor's backward
link, where that link can be read. It is a test of the memory, no access (R132). -/
def State.insqueLinks (s : State) (pred : Word) : List Exception :=
  match s.probe pred 4 .write with
  | some _ => []
  | none => match s.mem.read4 pred with
    | some succ => addCondition (s.probe (succ + 4) 4 .write) []
    | none => []

/-- INSQUE at the level of evaluated operands (R132). -/
def insertAbsolute (entry pred : Word) (s : State) : Res State := do
  s.raiseAny (addCondition (s.probe entry 8 .write) (addCondition (s.probe pred 4 .write) []))
    (s.insqueLinks pred)
  let (succ, s) ← s.load none pred
  s.demand (succ + 4) 4 .write
  require ((pred :: succ :: s.absEntries pred succ).all (elementsApart entry)) .overlap
  require (succ == pred || elementsApart succ pred) .overlap
  let s ← s.store none entry succ
  let s ← s.store none (entry + 4) pred
  let s ← s.store none (succ + 4) entry
  let s ← s.store none pred entry
  let (f, s) ← s.load none entry
  let (b, s) ← s.load none (entry + 4)
  .ok (s.compareCC f b false)

/-- The probes of REMQUE's neighbours, `f` after and `b` before the entry (R152). -/
def State.neighbourConditions (s : State) (f b : Word) : List Exception :=
  addCondition (s.probe b 4 .write) (addCondition (s.probe (f + 4) 4 .write) [])

/-- REMQUE's exception conditions beyond the links of the entry, where these can be read. They are a test of
the memory, no access (R152). -/
def State.remqueLinks (s : State) (entry : Word) : List Exception :=
  match s.probe entry 8 .read with
  | some _ => []
  | none => match s.mem.read4 entry, s.mem.read4 (entry + 4) with
    | some f, some b => s.neighbourConditions f b
    | _, _ => []

/-- REMQUE at the level of evaluated operands (R152). -/
def removeAbsolute (entry : Word) (addr : Dest) (s : State) : Res State := do
  s.raiseAny (addCondition (s.probeDest addr) (addCondition (s.probe entry 8 .read) []))
    (s.remqueLinks entry)
  let (f, s) ← s.load none entry
  let (b, s) ← s.load none (entry + 4)
  s.raiseAny (s.neighbourConditions f b) []
  let others := s.absEntries entry f
  require (AbsQueue s.mem entry others) .notInQueue
  require (addr.apartAll (entry :: others)) .overlap
  let s ← s.store none b f
  let s ← s.store none (f + 4) b
  let s ← s.writeDest addr entry
  .ok (s.compareCC f b (entry == b))

/-- INSQUE entry.ab, pred.ab (R132). -/
def execInsque (entry pred : Specifier) (s : State) : Host.Outcome State Fault Refusal :=
  finish s do
    let (e, p, t) ← evalInsertion .byte entry pred s
    insertAbsolute e p t

/-- REMQUE entry.ab, addr.wl (R152). -/
def execRemque (entry addr : Specifier) (s : State) : Host.Outcome State Fault Refusal :=
  finish s do
    let (e, d, t) ← evalRemoval .byte entry addr s
    removeAbsolute e d t

end Sys2Proof.Machine
end

