-- ==== Sys2Proof/Machine/QueueInterlocked.lean ====
section
/-! DEFINITION. INSQHI, INSQTI, REMQHI and REMQTI (spec/41_queue_insert.md R130, R131;
spec/42_queue_remove.md R150, R151) by the phases of spec/40_queue_common.md R106. Step A is phases 0 to
3, step B phases 4 to 6 (R109); a processor that is alone takes both as one. -/

namespace Sys2Proof.Machine

/-! ## Phases shared by the four -/

/-- The secondary interlock bit of a header's forward link (R104). -/
def interlockSet (forward : Word) : Bool := field forward 0 1 == 1

/-- Phase 2: probe and read the header, and find the interlock (R106, R107, R187). `early` holds the
conditions of phase 1 and `links`, given the header's forward link, those that the checks of later phases
would find: when the interlock is clear and a condition of phase 1 or 2 holds, any of all these may be the
one reported (R188, D8; log 9). The answer is `none` for the failure outcome, and the forward link when the
interlock is clear and no condition of phase 1 or 2 holds. -/
def acquire (header : Word) (early : List Exception) (links : Word → List Exception) (s : State) :
    Res (Option Word × State) :=
  match s.probe header 8 .write with
  | some e => .error (.raise (s.choose e (early.filter (· != e))))
  | none => do
    let (forward, s) ← s.load (some header) header
    let conditions := addCondition (conditionIf (field forward 1 2 != 0) .reservedOperand) early
    if interlockSet forward then
      match conditions with
      | [] => .ok (none, s)
      | e :: rest =>
        if Config.unpredChoice s.draws then .error (.raise (s.choose e rest))
        else .ok (none, { s with draws := s.draws + 1 })
    else do
      s.raiseAny conditions (links forward)
      .ok (some forward, s)

/-! ## Link checks

Phase 4's exception conditions as they stand in memory, each where the links it needs can be read
(R106, R182, R183). They are tests of the memory, not accesses. -/

/-- The check of a link that is followed: quadword aligned, and the longword at `a`, which it leads to,
writable (R131, R150, R151). -/
def State.linkConditions (s : State) (link a : Word) : List Exception :=
  addCondition (conditionIf (!aligned8 link) .reservedOperand) (addCondition (s.probe a 4 .write) [])

/-- INSQHI: the old head's backward link (R130). -/
def State.insqhiLinks (s : State) (header forward : Word) : List Exception :=
  addCondition (s.probe (header + forward + 4) 4 .write) []

/-- INSQTI: the header's backward link, and the old tail's forward link (R131). -/
def State.insqtiLinks (s : State) (header : Word) : List Exception :=
  match s.mem.read4 (header + 4) with
  | some backward => s.linkConditions backward (header + backward)
  | none => []

/-- REMQHI: the removed entry's forward link, and its successor's backward link; nothing on an empty queue
(R150). -/
def State.remqhiLinks (s : State) (header forward : Word) : List Exception :=
  if forward = 0 then []
  else match s.probe (header + forward) 4 .read with
    | some e => [e]
    | none => match s.mem.read4 (header + forward) with
      | some link => s.linkConditions link (header + forward + link + 4)
      | none => []

/-- REMQTI, its header's backward link known: the removed entry's backward link, and its predecessor's
forward link; nothing on an empty queue (R151). -/
def State.remqtiTail (s : State) (header forward backward : Word) : List Exception :=
  if forward = 0 then []
  else match s.probe (header + backward + 4) 4 .read with
    | some e => [e]
    | none => match s.mem.read4 (header + backward + 4) with
      | some link => s.linkConditions link (header + backward + link)
      | none => []

/-- REMQTI: the header's backward link, and what it leads to (R151). -/
def State.remqtiLinks (s : State) (header forward : Word) : List Exception :=
  match s.mem.read4 (header + 4) with
  | some backward =>
    addCondition (conditionIf (!aligned8 backward) .reservedOperand)
      (s.remqtiTail header forward backward)
  | none => []

/-- Both links of the header say empty or neither does, as far as memory holds them (R105, D15; log 15). -/
def consistentHeader (s : State) (header forward : Word) : Bool :=
  match s.mem.read4 (header + 4) with
  | some backward => (forward == 0) == (backward == 0)
  | none => true

/-- Phase 3: set the secondary interlock and keep the operands for step B (R106, R109). -/
def hold (start : State) (op : HeldOp) (header forward : Word) (s : State) : Res State := do
  let s ← s.store (some header) header (forward ||| 1)
  .ok { s with cpu := { s.cpu with
    pending := some { op, header, forward, startRegs := start.cpu.regs } } }

/-- The instruction is complete: nothing is half done. -/
def State.release (s : State) : State := { s with cpu := { s.cpu with pending := none } }

/-- Phase 1 of an insertion (R130, R131, R182). -/
def insertionConditions (entry header : Word) (s : State) : List Exception :=
  addCondition (s.probe entry 8 .write)
    (addCondition
      (conditionIf (!aligned8 entry || !aligned8 header || entry == header) .reservedOperand) [])

/-- Phase 1 of a removal (R150, R151, R182). -/
def removalConditions (header : Word) (addr : Dest) (s : State) : List Exception :=
  addCondition (s.probeDest addr)
    (addCondition (conditionIf (!aligned8 header || addr == .mem header) .reservedOperand) [])

/-- The failure outcome of an insertion: N Z V C = 0 0 0 1 (R107). -/
def insertionFailed (s : State) : State := s.setCC false false false true

/-- The failure outcome of a removal: N Z V C = 0 0 1 1 (R107). -/
def removalFailed (s : State) : State := s.setCC false false true true

/-- A removal that finds the queue empty: `addr` receives the header's address (R150, R151, D16; log 19).
`link` is the address of the header's link that Z is taken from. DESIGN CHOICE (log 16): an `addr` that
overlaps the header is refused here, when no exception condition holds. -/
def removeFromEmpty (header : Word) (addr : Dest) (link : Word) (s : State) : Res State := do
  require (addr.apart header) .overlap
  let (v, s) ← s.load (some header) link
  let s ← s.writeDest addr header
  .ok (s.setCC false (v == 0) true false)

/-! ## Step A -/

/-- Phases 1 to 3 of INSQHI (R130). -/
def acquireInsqhi (start : State) (entry header : Word) (s : State) : Res State := do
  match ← acquire header (insertionConditions entry header s) (s.insqhiLinks header) s with
  | (none, s) => .ok (insertionFailed s)
  | (some forward, s) =>
    require (consistentHeader s header forward) .inconsistentHeader
    hold start (.insqhi entry) header forward s

/-- Phases 1 to 3 of INSQTI (R131). -/
def acquireInsqti (start : State) (entry header : Word) (s : State) : Res State := do
  match ← acquire header (insertionConditions entry header s) (fun _ => s.insqtiLinks header) s with
  | (none, s) => .ok (insertionFailed s)
  | (some forward, s) => hold start (.insqti entry) header forward s

/-- Phases 1 to 3 of REMQHI, and all of it when the queue is empty (R150). -/
def acquireRemqhi (start : State) (header : Word) (addr : Dest) (s : State) : Res State := do
  match ← acquire header (removalConditions header addr s) (s.remqhiLinks header) s with
  | (none, s) => .ok (removalFailed s)
  | (some forward, s) =>
    require (consistentHeader s header forward) .inconsistentHeader
    if forward = 0 then removeFromEmpty header addr header s
    else hold start (.remqhi addr) header forward s

/-- Phases 1 to 3 of REMQTI with its test of the backward link, and all of it when the queue is empty (R151). -/
def acquireRemqti (start : State) (header : Word) (addr : Dest) (s : State) : Res State := do
  match ← acquire header (removalConditions header addr s) (s.remqtiLinks header) s with
  | (none, s) => .ok (removalFailed s)
  | (some forward, s) =>
    let (backward, s) ← s.load (some header) (header + 4)
    s.raiseAny (addCondition (conditionIf (!aligned8 backward) .reservedOperand) [])
      (s.remqtiTail header forward backward)
    require ((forward == 0) == (backward == 0)) .inconsistentHeader
    if forward = 0 then removeFromEmpty header addr (header + 4) s
    else hold start (.remqti addr backward) header forward s

/-! ## Step B

DESIGN CHOICE (log 16): the overlaps of D20 are refused in step B, where the interlock was found clear and
no exception condition holds, before the first link is written. An overlapping operand of an instruction
that raises an exception or finds the interlock set raises it or fails like any other. -/

/-- The entry shares no byte with the header, any entry of the queue or `neighbour` (R130, R131, D20; log 16). -/
def entryApart (entry header forward neighbour : Word) (s : State) : Bool :=
  (neighbour :: header :: s.selfEntries header (header + forward)).all (elementsApart entry)

/-- A destination shares no byte with the header, any entry of the queue or the elements given
(R150, R151, R218, D20; log 16). -/
def destApart (addr : Dest) (header forward : Word) (elements : List Word) (s : State) : Bool :=
  addr.apartAll (header :: elements ++ s.selfEntries header (header + forward))

/-- Phases 4 to 6 of INSQHI (R130). -/
def completeInsqhi (entry header forward : Word) (s : State) : Res State := do
  let succ := header + forward
  s.raiseAny (s.insqhiLinks header forward) []
  require (entryApart entry header forward succ s) .overlap
  let s ← s.store (some header) entry (succ - entry)
  let s ← s.store (some header) (entry + 4) (header - entry)
  let s ← s.store (some header) (succ + 4) (entry - succ)
  let s ← s.store (some header) header (entry - header)
  let (f, s) ← s.load (some header) entry
  let (b, s) ← s.load (some header) (entry + 4)
  .ok (s.setCC false (f == b) false false)

/-- Release the secondary interlock at the tail: write the header's forward link back, unless the header is
itself the `neighbour` whose forward link has just been written (R131, R151). -/
def unlockForward (header forward neighbour : Word) (s : State) : Res State :=
  if neighbour = header then .ok s else s.store (some header) header forward

/-- Phases 4 to 6 of INSQTI (R131). -/
def completeInsqti (entry header forward : Word) (s : State) : Res State := do
  let (backward, s) ← s.load (some header) (header + 4)
  let tail := header + backward
  s.raiseAny (s.linkConditions backward tail) []
  require ((forward == 0) == (backward == 0)) .inconsistentHeader
  require (entryApart entry header forward tail s) .overlap
  let s ← s.store (some header) entry (header - entry)
  let s ← s.store (some header) (entry + 4) (tail - entry)
  let s ← s.store (some header) tail (entry - tail)
  let s ← s.store (some header) (header + 4) (entry - header)
  let s ← unlockForward header forward tail s
  let (f, s) ← s.load (some header) entry
  let (b, s) ← s.load (some header) (entry + 4)
  .ok (s.setCC false (f == b) false false)

/-- Phases 4 to 6 of REMQHI on a queue that is not empty (R150). -/
def completeRemqhi (header : Word) (addr : Dest) (forward : Word) (s : State) : Res State := do
  let entry := header + forward
  s.demand entry 4 .read
  let (link, s) ← s.load (some header) entry
  let succ := entry + link
  s.raiseAny (s.linkConditions link (succ + 4)) []
  require (elementsApart entry succ) .overlap
  require (destApart addr header forward [entry, succ] s) .overlap
  let s ← s.store (some header) (succ + 4) (header - succ)
  let s ← s.store (some header) header (succ - header)
  let (f, s) ← s.load (some header) header
  let s ← s.writeDest addr entry
  .ok (s.setCC false (f == 0) false false)

/-- Phases 4 to 6 of REMQTI on a queue that is not empty (R151). -/
def completeRemqti (header : Word) (addr : Dest) (forward backward : Word) (s : State) :
    Res State := do
  let entry := header + backward
  s.demand (entry + 4) 4 .read
  let (link, s) ← s.load (some header) (entry + 4)
  let pred := entry + link
  s.raiseAny (s.linkConditions link pred) []
  require (elementsApart entry pred) .overlap
  require (destApart addr header forward [entry, pred] s) .overlap
  let s ← s.store (some header) pred (header - pred)
  let s ← s.store (some header) (header + 4) (pred - header)
  let s ← unlockForward header forward pred s
  let (b, s) ← s.load (some header) (header + 4)
  let s ← s.writeDest addr entry
  .ok (s.setCC false (b == 0) false false)

/-- Step B of whichever instruction is half done. -/
def completeHeld (p : Pending) (s : State) : Res State :=
  match p.op with
  | .insqhi entry => completeInsqhi entry p.header p.forward s
  | .insqti entry => completeInsqti entry p.header p.forward s
  | .remqhi addr => completeRemqhi p.header addr p.forward s
  | .remqti addr backward => completeRemqti p.header addr p.forward backward s

/-- What a fault of step B leaves: the header's forward link as it was found, the registers as they were
before the instruction (R106, R189, R190; log 26). -/
def undoHeld (p : Pending) (s : State) : State :=
  { s with
    mem := s.mem.write4 p.header p.forward
    cpu := { s.cpu with regs := p.startRegs, pending := none } }

/-- Step B as a step of its processor (R109). -/
def stepB (p : Pending) (s : State) : Host.Outcome State Fault Refusal :=
  match completeHeld p s with
  | .ok t => .next t.release
  | .error stop => stop.outcome (undoHeld p s)

/-- The outcome of step A. A processor that is alone goes on with step B at once (R109); a fault of step A
leaves the state before the instruction (R190). -/
def afterStepA (start : State) (r : Res State) : Host.Outcome State Fault Refusal :=
  match r with
  | .error stop => stop.outcome start
  | .ok s =>
    match s.cpu.pending with
    | none => .next s
    | some p => if s.alone then stepB p s else .next s

/-! ## The instructions -/

/-- INSQHI entry.ab, header.aq (R130). -/
def execInsqhi (entry header : Specifier) (s : State) : Host.Outcome State Fault Refusal :=
  afterStepA s do
    let (e, h, t) ← evalInsertion .quad entry header s.release
    acquireInsqhi s e h t

/-- INSQTI entry.ab, header.aq (R131). -/
def execInsqti (entry header : Specifier) (s : State) : Host.Outcome State Fault Refusal :=
  afterStepA s do
    let (e, h, t) ← evalInsertion .quad entry header s.release
    acquireInsqti s e h t

/-- REMQHI header.aq, addr.wl (R150). -/
def execRemqhi (header addr : Specifier) (s : State) : Host.Outcome State Fault Refusal :=
  afterStepA s do
    let (h, d, t) ← evalRemoval .quad header addr s.release
    acquireRemqhi s h d t

/-- REMQTI header.aq, addr.wl (R151). -/
def execRemqti (header addr : Specifier) (s : State) : Host.Outcome State Fault Refusal :=
  afterStepA s do
    let (h, d, t) ← evalRemoval .quad header addr s.release
    acquireRemqti s h d t

end Sys2Proof.Machine
end

