-- ==== Sys2Proof/Machine/Dispatch.lean ====
section
/-! DEFINITION. The meaning of each instruction, one arm per constructor of Instr. -/

namespace Sys2Proof.Machine

def exec (i : Instr) (s : State) : Host.Outcome State Fault Refusal :=
  match i with
  | .insque entry pred => Sys2Proof.Machine.execInsque entry pred s
  | .remque entry addr => Sys2Proof.Machine.execRemque entry addr s
  | .brb d => Sys2Proof.Machine.execBrb d s
  | .beql d => Sys2Proof.Machine.execBeql d s
  | .bvs d => Sys2Proof.Machine.execBvs d s
  | .bcs d => Sys2Proof.Machine.execBcs d s
  | .insqhi entry header => Sys2Proof.Machine.execInsqhi entry header s
  | .insqti entry header => Sys2Proof.Machine.execInsqti entry header s
  | .remqhi header addr => Sys2Proof.Machine.execRemqhi header addr s
  | .remqti header addr => Sys2Proof.Machine.execRemqti header addr s

end Sys2Proof.Machine
end

