-- ==== Sys2Proof/WellFormed.lean ====
section
/-! DEFINITION. Which terms of Syntax have an encoding (spec/30_encoding.md R64 to R78): the forms of
modes 8 and 9 with register 15 are written `immediate` and `absolute`, an immediate holds as many
bytes as its operand's data type, and a second index prefix stands only under a first. A well-formed
term may still be an encoding that faults or that the spec calls UNPREDICTABLE. -/

namespace Sys2Proof

/-- A base specifier that has an encoding, for an operand of data type `dt`; `under` says whether an
index prefix stands before it (R64, R66, R70 to R73). -/
def BaseSpec.wf (dt : DataType) (under : Bool) : BaseSpec → Bool
  | .indexPrefix _ => under
  | .autoinc n => n != pcReg
  | .autoincDeferred n => n != pcReg
  | .immediate data => data.length == dt.size
  | .literal _ | .register _ | .deferred _ | .autodec _ | .absolute _
  | .byteDisp _ _ | .byteDispDeferred _ _ | .wordDisp _ _ | .wordDispDeferred _ _
  | .longDisp _ _ | .longDispDeferred _ _ => true

/-- A specifier that has an encoding, for an operand of data type `dt`. -/
def Specifier.wf (dt : DataType) : Specifier → Bool
  | .plain b => b.wf dt false
  | .indexed _ b => b.wf dt true

/-- An instruction that has an encoding; the data types are those of the Format lines (R60). -/
def Instr.wf : Instr → Bool
  | .insque entry pred => entry.wf .byte && pred.wf .byte
  | .remque entry addr => entry.wf .byte && addr.wf .long
  | .brb _ | .beql _ | .bvs _ | .bcs _ => true
  | .insqhi entry header => entry.wf .byte && header.wf .quad
  | .insqti entry header => entry.wf .byte && header.wf .quad
  | .remqhi header addr => header.wf .quad && addr.wf .long
  | .remqti header addr => header.wf .quad && addr.wf .long

end Sys2Proof
end

