-- ==== Sys2Proof/Decode.lean ====
section
/-! DEFINITION. The decoder, total on any bytes and rejecting by name, and the encoder
(spec/30_encoding.md R60 to R79, spec/45_aux_branches.md R170 to R174). -/

namespace Sys2Proof

/-- Why bytes are no instruction of the spec. -/
inductive DecodeError where
  /-- The opcode byte is not in the opcode table (R79). -/
  | opcodeNotInSpec (op : Byte)
  /-- The bytes end inside the instruction. -/
  | truncated
  deriving DecidableEq, Repr

/-- The longest encoding in bytes: an indexed longword-displacement specifier and an indexed immediate
of a quadword operand. Of the forms that run the longest is 13 (R78; log 22). -/
def maxInstrBytes : Nat := 17

/-- Two bytes, lowest address first, as a little-endian value (R42). -/
def le16 (b0 b1 : Byte) : BitVec 16 := b1 ++ b0

/-- Four bytes, lowest address first, as a little-endian longword (R42). -/
def le32 (b0 b1 b2 b3 : Byte) : Word := b3 ++ b2 ++ b1 ++ b0

/-- The bytes of a 16-bit field, lowest address first (R42). -/
def bytes16 (d : BitVec 16) : List Byte := [d.extractLsb' 0 8, d.extractLsb' 8 8]

/-- The bytes of a longword field, lowest address first (R42). -/
def bytes32 (d : Word) : List Byte :=
  [d.extractLsb' 0 8, d.extractLsb' 8 8, d.extractLsb' 16 8, d.extractLsb' 24 8]

/-- The low nibble of a specifier byte, a register number (R64). -/
def regOf (b : Byte) : Reg := ⟨b.toNat % 16, Nat.mod_lt _ (by decide)⟩

/-- Take a one-byte displacement from the instruction stream (R74). -/
def take8 (f : BitVec 8 → BaseSpec) : List Byte → Except DecodeError (BaseSpec × List Byte)
  | b0 :: rest => .ok (f b0, rest)
  | [] => .error .truncated

/-- Take a two-byte displacement from the instruction stream (R74). -/
def take16 (f : BitVec 16 → BaseSpec) : List Byte → Except DecodeError (BaseSpec × List Byte)
  | b0 :: b1 :: rest => .ok (f (le16 b0 b1), rest)
  | _ => .error .truncated

/-- Take a longword from the instruction stream (R73, R74). -/
def take32 (f : BitVec 32 → BaseSpec) : List Byte → Except DecodeError (BaseSpec × List Byte)
  | b0 :: b1 :: b2 :: b3 :: rest => .ok (f (le32 b0 b1 b2 b3), rest)
  | _ => .error .truncated

/-- Take the data bytes of an immediate operand (R71). -/
def takeData (dt : DataType) (bytes : List Byte) : Except DecodeError (BaseSpec × List Byte) :=
  if dt.size ≤ bytes.length then .ok (.immediate (bytes.take dt.size), bytes.drop dt.size)
  else .error .truncated

/-- Decode the rest of a base specifier by its high nibble, 4 to 15, and its register (R64). -/
def decodeMode (dt : DataType) (mode : Nat) (n : Reg) (rest : List Byte) :
    Except DecodeError (BaseSpec × List Byte) :=
  match mode with
  | 4 => .ok (.indexPrefix n, rest)
  | 5 => .ok (.register n, rest)
  | 6 => .ok (.deferred n, rest)
  | 7 => .ok (.autodec n, rest)
  | 8 => if n = pcReg then takeData dt rest else .ok (.autoinc n, rest)
  | 9 => if n = pcReg then take32 .absolute rest else .ok (.autoincDeferred n, rest)
  | 10 => take8 (.byteDisp n) rest
  | 11 => take8 (.byteDispDeferred n) rest
  | 12 => take16 (.wordDisp n) rest
  | 13 => take16 (.wordDispDeferred n) rest
  | 14 => take32 (.longDisp n) rest
  | _ => take32 (.longDispDeferred n) rest

/-- Decode a base specifier by the table of R64: `0x00` to `0x3F` are short literals. -/
def decodeBase (dt : DataType) : List Byte → Except DecodeError (BaseSpec × List Byte)
  | [] => .error .truncated
  | b :: rest =>
    if b.toNat < 64 then .ok (.literal (BitVec.ofNat 6 b.toNat), rest)
    else decodeMode dt (b.toNat / 16) (regOf b) rest

/-- Decode an operand specifier (R64, R66). -/
def decodeSpecifier (dt : DataType) (bytes : List Byte) :
    Except DecodeError (Specifier × List Byte) := do
  match ← decodeBase dt bytes with
  | (.indexPrefix x, rest) =>
    let (base, rest) ← decodeBase dt rest
    .ok (.indexed x base, rest)
  | (base, rest) => .ok (.plain base, rest)

/-- Decode the two operand specifiers of a queue instruction, in stream order (R60). -/
def decodePair (make : Specifier → Specifier → Instr) (first second : DataType) (bytes : List Byte) :
    Except DecodeError (Instr × List Byte) := do
  let (a, rest) ← decodeSpecifier first bytes
  let (b, rest) ← decodeSpecifier second rest
  .ok (make a b, rest)

/-- Decode the displacement byte of a branch (R170). -/
def decodeBranch (make : BitVec 8 → Instr) : List Byte → Except DecodeError (Instr × List Byte)
  | d :: rest => .ok (make d, rest)
  | [] => .error .truncated

/-- Decode one instruction and give the bytes after it (R60, R62, R63, R79, R82). -/
def decode : List Byte → Except DecodeError (Instr × List Byte)
  | [] => .error .truncated
  | op :: rest =>
    match op.toNat with
    | 0x0E => decodePair .insque .byte .byte rest
    | 0x0F => decodePair .remque .byte .long rest
    | 0x11 => decodeBranch .brb rest
    | 0x13 => decodeBranch .beql rest
    | 0x1D => decodeBranch .bvs rest
    | 0x1F => decodeBranch .bcs rest
    | 0x5C => decodePair .insqhi .byte .quad rest
    | 0x5D => decodePair .insqti .byte .quad rest
    | 0x5E => decodePair .remqhi .quad .long rest
    | 0x5F => decodePair .remqti .quad .long rest
    | _ => .error (.opcodeNotInSpec op)

/-- A specifier byte: mode in bits 7:4, register in bits 3:0 (R64). -/
def modeByte (mode : Nat) (n : Reg) : Byte := BitVec.ofNat 8 (16 * mode + n.val)

/-- The bytes of a base specifier (R64 to R76). -/
def encodeBase : BaseSpec → List Byte
  | .literal v => [BitVec.ofNat 8 v.toNat]
  | .indexPrefix x => [modeByte 4 x]
  | .register n => [modeByte 5 n]
  | .deferred n => [modeByte 6 n]
  | .autodec n => [modeByte 7 n]
  | .autoinc n => [modeByte 8 n]
  | .immediate data => 0x8F#8 :: data
  | .autoincDeferred n => [modeByte 9 n]
  | .absolute address => 0x9F#8 :: bytes32 address
  | .byteDisp n d => [modeByte 10 n, d]
  | .byteDispDeferred n d => [modeByte 11 n, d]
  | .wordDisp n d => modeByte 12 n :: bytes16 d
  | .wordDispDeferred n d => modeByte 13 n :: bytes16 d
  | .longDisp n d => modeByte 14 n :: bytes32 d
  | .longDispDeferred n d => modeByte 15 n :: bytes32 d

/-- The bytes of an operand specifier (R64, R66). -/
def encodeSpecifier : Specifier → List Byte
  | .plain base => encodeBase base
  | .indexed x base => modeByte 4 x :: encodeBase base

/-- The bytes of an instruction, lowest address first (R60, R62, R63, R170). -/
def encode : Instr → List Byte
  | .insque entry pred => 0x0E#8 :: (encodeSpecifier entry ++ encodeSpecifier pred)
  | .remque entry addr => 0x0F#8 :: (encodeSpecifier entry ++ encodeSpecifier addr)
  | .brb d => [0x11#8, d]
  | .beql d => [0x13#8, d]
  | .bvs d => [0x1D#8, d]
  | .bcs d => [0x1F#8, d]
  | .insqhi entry header => 0x5C#8 :: (encodeSpecifier entry ++ encodeSpecifier header)
  | .insqti entry header => 0x5D#8 :: (encodeSpecifier entry ++ encodeSpecifier header)
  | .remqhi header addr => 0x5E#8 :: (encodeSpecifier header ++ encodeSpecifier addr)
  | .remqti header addr => 0x5F#8 :: (encodeSpecifier header ++ encodeSpecifier addr)

/-- The bytes of a number whose low `nbits` bits are given, byte k in bits 8k+7 to 8k, zero above
`nbits`, as many as the longest instruction has. -/
def tableBytes (nbits w : Nat) : List Byte :=
  (List.range maxInstrBytes).map fun k =>
    if 8 * k < nbits then BitVec.ofNat 8 (w / 2 ^ (8 * k)) else 0#8

/-- The instruction the decoder reads from the bits `w`, numbered as spec/opcode_table.json numbers them. -/
def decodeTableWord (nbits w : Nat) : Option Instr :=
  match decode (tableBytes nbits w) with
  | .ok (i, _) => some i
  | .error _ => none

end Sys2Proof
end

