-- ==== Sys2Proof/Machine/Fetch.lean ====
section
/-! DEFINITION. Fetching an instruction: bytes in increasing address order from the program counter
(spec/20_memory.md R42, R51; spec/10_state.md R23; spec/30_encoding.md R79). -/

namespace Sys2Proof.Machine

/-- The bytes that can be fetched from `a` on, at most `n`, and why there are no more: the program counter
would pass 0xFFFFFFFF (D3), the byte is outside the program text (R51, R219), or it has no value. -/
def fetchBytes (s : State) (a : Word) : Nat → List Byte × Stop
  | 0 => ([], .refuse .fetchTooLong)
  | n + 1 =>
    if a = 0xFFFFFFFF#32 then ([], .refuse .pcWrap)
    else if !s.inText a 1 then ([], .refuse (.fetchOutsideText a))
    else match s.mem.readByte a.toNat with
      | none => ([], .noValue a)
      | some b =>
        let (bytes, stop) := fetchBytes s (a + 1) n
        (b :: bytes, stop)

/-- The instruction at the program counter (R60, R79). -/
def fetch (s : State) : Res Instr :=
  let (bytes, stop) := fetchBytes s s.pc maxInstrBytes
  match decode bytes with
  | .ok (i, _) => .ok i
  | .error (.opcodeNotInSpec op) => .error (.refuse (.opcodeNotInSpec op))
  | .error .truncated => .error stop

/-- Memory with bytes placed at an address and after it. -/
def placeBytes (m : Memory) (a : Word) : List Byte → Memory
  | [] => m
  | b :: bytes => placeBytes (m.writeByte a.toNat b) (a + 1) bytes

end Sys2Proof.Machine
end

