-- ==== Sys2Proof/Machine/Step.lean ====
section
/-! DEFINITION. One step of the machine (spec/40_queue_common.md R109, spec/70_reset_and_hazards.md R219),
and placing an instruction where the next step fetches it. -/

namespace Sys2Proof.Machine

/-- One step of the processor whose turn it is: step B of a half done instruction (R109); nothing when
`pc` is `END`, where a processor stops (R219; log 11); else the instruction at `pc`. -/
def stepCpu (s : State) : Host.Outcome State Fault Refusal :=
  match s.cpu.pending with
  | some p => stepB p s
  | none =>
    if s.params.endAt = some s.pc then .next s
    else match fetch s with
      | .error stop => stop.outcome s
      | .ok i => exec i s

/-- One step: the processor whose turn it is moves, and the turn passes (R49, R109; log 13). -/
def step (s : State) : Host.Outcome State Fault Refusal := onNext State.nextTurn (stepCpu s)

/-- The state with an instruction placed where the next step fetches it: its bytes in memory at `pc`, those
addresses program text, no instruction half done, and `pc` not the end of the run. It stands for the
launch state's program text (R210; log 10). -/
def State.withFetchWord (s : State) (nbits w : Nat) : State :=
  { s with
    mem := placeBytes s.mem s.pc (tableBytes nbits w)
    cpu := { s.cpu with pending := none }
    params := { s.params with
      text := { base := s.pc, size := maxInstrBytes } :: s.params.text
      endAt := if s.params.endAt = some s.pc then none else s.params.endAt } }

end Sys2Proof.Machine
end

