-- ==== Sys2Proof/Safety.lean ====
section
/-! DEFINITION. What a run keeps, in the terms the statements use: ranges of memory, the exception conditions
of the instructions (spec/60_exceptions.md R182, R183), races (spec/20_memory.md R47), held secondary
interlocks (spec/40_queue_common.md R104, R109) and the invariant. -/

namespace Sys2Proof.Machine

/-! ## Bytes of an encoding -/

/-- The specifier byte with the high nibble and the register number given (R64). -/
def specifierByte (mode : BitVec 4) (n : Reg) : Byte := mode ++ BitVec.ofNat 4 n.val

/-! ## Ranges of memory -/

/-- The address `a` is one of the `n` bytes from `base`. -/
abbrev InRange (a base : Word) (n : Nat) : Prop := (a - base).toNat < n

/-- Two memories read alike at every address outside the given ranges (base and number of bytes). -/
def sameOutside (m m' : Memory) (ranges : List (Word × Nat)) : Prop :=
  ∀ a : Word, (∀ r ∈ ranges, ¬ InRange a r.1 r.2) → m'.readByte a.toNat = m.readByte a.toNat

/-! ## Queues -/

/-- `entries` with `entry` put directly after `pred`, at the front when `pred` is the header (R132). -/
def insertAfter (h pred entry : Word) (entries : List Word) : List Word :=
  if pred = h then entry :: entries
  else entries.flatMap fun x => if x = pred then [x, entry] else [x]

/-! ## Addresses an instruction may use -/

/-- None of the longwords at these addresses holds program text (R51). -/
def State.writable (s : State) (as : List Word) : Bool := as.all fun a => !s.inText a 4

/-- A destination that a removal can write: a register, or memory whose probe succeeds and that holds no
program text (R106 phase 1, R51). -/
def State.acceptsDest (s : State) : Dest → Bool
  | .reg _ => true
  | .mem a => s.probe a 4 .write == none && !s.inText a 4

/-- Every element that forward links reach from `x` on in the self-relative queue of `h`, however far they are
followed, shares no byte with what `apart` is asked about (D20). -/
def selfApart (m : Memory) (h x : Word) (apart : Word → Bool) : Prop :=
  ∀ n, ∀ y ∈ selfEntries m h n x, apart y = true

/-- The same in the ring of the absolute queue that `start` is an element of. -/
def absApart (m : Memory) (start x : Word) (apart : Word → Bool) : Prop :=
  ∀ n, ∀ y ∈ absEntries m start n x, apart y = true

/-- What a destination holds. -/
def State.destValue (s : State) : Dest → Option Word
  | .reg n => some (s.reg n)
  | .mem a => s.mem.read4 a

/-- The bytes of memory a destination has. -/
def destRange : Dest → List (Word × Nat)
  | .reg _ => []
  | .mem a => [(a, 4)]

/-! ## Conditions of the interlocked instructions -/

/-- `x` is an exception condition of an insertion that can be told without following a link: phase 1 and
the test of `(header)<2:1>`, where `f` is the header's forward link (R106, R182, R187). -/
def InsertionCondition (s : State) (e h f : Word) (x : Exception) : Prop :=
  x = .reservedOperand ∧ (aligned8 e = false ∨ aligned8 h = false ∨ e = h ∨ field f 1 2 ≠ 0) ∨
    s.probe e 8 .write = some x

/-- `x` is such a condition of a removal into `d` (R106, R182, R187). -/
def RemovalCondition (s : State) (h : Word) (d : Dest) (f : Word) (x : Exception) : Prop :=
  x = .reservedOperand ∧ (aligned8 h = false ∨ d = .mem h ∨ field f 1 2 ≠ 0) ∨
    ∃ a, d = .mem a ∧ s.probe a 4 .write = some x

/-- `x` is a condition that following the link `l` to the longword at `a` finds (R131, R150, R151). -/
def FollowCondition (s : State) (l a : Word) (x : Exception) : Prop :=
  x = .reservedOperand ∧ aligned8 l = false ∨ s.probe a 4 .write = some x

/-- `x` is an exception condition of an interlocked instruction on the header `h`, whose forward link is `f`,
that is told by following a link (R106 phase 4, R130, R131, R150, R151, R182, R183). -/
def LinkCondition (i : Instr) (s : State) (h f : Word) (x : Exception) : Prop :=
  match i with
  | .insqhi _ _ => s.probe (h + f + 4) 4 .write = some x
  | .insqti _ _ => ∃ b, s.mem.read4 (h + 4) = some b ∧ FollowCondition s b (h + b) x
  | .remqhi _ _ => f ≠ 0 ∧
      (s.probe (h + f) 4 .read = some x ∨
        s.probe (h + f) 4 .read = none ∧ ∃ l, s.mem.read4 (h + f) = some l ∧
          FollowCondition s l (h + f + l + 4) x)
  | .remqti _ _ => ∃ b, s.mem.read4 (h + 4) = some b ∧
      (x = .reservedOperand ∧ aligned8 b = false ∨ f ≠ 0 ∧
        (s.probe (h + b + 4) 4 .read = some x ∨
          s.probe (h + b + 4) 4 .read = none ∧ ∃ l, s.mem.read4 (h + b + 4) = some l ∧
            FollowCondition s l (h + b + l) x))
  | .insque _ _ | .remque _ _ | .brb _ | .beql _ | .bvs _ | .bcs _ => False

/-! ## Conditions of the absolute instructions -/

/-- `x` is an exception condition of INSQUE (R132, R183). -/
def InsqueCondition (s : State) (e p : Word) (x : Exception) : Prop :=
  s.probe e 8 .write = some x ∨ s.probe p 4 .write = some x ∨
    s.probe p 4 .write = none ∧ ∃ q, s.mem.read4 p = some q ∧ s.probe (q + 4) 4 .write = some x

/-- `x` is an exception condition of REMQUE (R152, R183). -/
def RemqueCondition (s : State) (e : Word) (d : Dest) (x : Exception) : Prop :=
  s.probe e 8 .read = some x ∨ (∃ a, d = .mem a ∧ s.probe a 4 .write = some x) ∨
    s.probe e 8 .read = none ∧ ∃ f b, s.mem.read4 e = some f ∧ s.mem.read4 (e + 4) = some b ∧
      (s.probe b 4 .write = some x ∨ s.probe (f + 4) 4 .write = some x)

/-! ## Races -/

/-- No access another processor has on record races with an access of the longword at `a`, made through the
header `via` (D9). -/
def State.raceFree (s : State) (via : Option Word) (a : Word) : Bool :=
  s.others.all fun c => c.touched.all fun y => !Touch.races { addr := a, via } y

/-- Nor with the write of a destination (D9, R106 phase 6). -/
def State.raceFreeDest (s : State) : Dest → Bool
  | .reg _ => true
  | .mem a => s.raceFree none a

/-- The destination of a half done removal. -/
def Pending.dest (p : Pending) : Option Dest :=
  match p.op with
  | .insqhi _ | .insqti _ => none
  | .remqhi d | .remqti d _ => some d

/-- The longwords of its queue that step B of a half done instruction accesses, where memory holds the links
it follows (R130, R131, R150, R151). -/
def Pending.accesses (p : Pending) (m : Memory) : List Word :=
  match p.op with
  | .insqhi e => [p.header, e, e + 4, p.header + p.forward + 4]
  | .insqti e => [p.header, p.header + 4, e, e + 4] ++
      ((m.read4 (p.header + 4)).map (p.header + ·)).toList
  | .remqhi _ => [p.header, p.header + p.forward] ++
      ((m.read4 (p.header + p.forward)).map (p.header + p.forward + · + 4)).toList
  | .remqti _ b => [p.header, p.header + 4, p.header + b + 4] ++
      ((m.read4 (p.header + b + 4)).map (p.header + b + ·)).toList

/-- The registers an instruction can write, besides the program counter: those its specifiers step and a
register destination (R22, R77). -/
def instrRegs : Instr → List Reg
  | .insque a b | .insqhi a b | .insqti a b => (specifierSteps a).toList ++ (specifierSteps b).toList
  | .remque a b | .remqhi a b | .remqti a b =>
    (specifierSteps a).toList ++ (specifierSteps b).toList ++
      (match b with
        | .plain (.register n) => [n]
        | _ => [])
  | .brb _ | .beql _ | .bvs _ | .bcs _ => []

/-- The bytes given stand from `a` on as code that can be fetched: each is in memory at its address, which
is program text and not 0xFFFFFFFF, past which the program counter may not go (R23, R51, R210). -/
def State.holdsCode (s : State) (a : Word) : List Byte → Bool
  | [] => true
  | b :: bytes =>
    a != 0xFFFFFFFF#32 && s.inText a 1 && s.mem.readByte a.toNat == some b &&
      State.holdsCode s (a + 1) bytes

/-! ## The invariant -/

/-- All processors, the one that moves next first. -/
def State.cpus (s : State) : List Cpu := s.cpu :: s.others

/-- The header whose secondary interlock a processor holds, if any (R109). -/
def Cpu.holds (c : Cpu) : Option Word := c.pending.map (·.header)

/-- A half done instruction holds the interlock it thinks it holds: its header is quadword aligned, the
forward link it found is one of an aligned element, and memory holds that link with bit 0 set (R104, R106). -/
def Pending.held (p : Pending) (m : Memory) : Bool :=
  aligned8 p.header && field p.forward 0 3 == 0 && m.read4 p.header == some (p.forward ||| 1)

/-- A processor's half done instruction, if any, holds its interlock; with other processors about, the
access that set it is on record. -/
def Cpu.lockOk (c : Cpu) (m : Memory) (alone : Bool) : Bool :=
  match c.pending with
  | none => true
  | some p =>
    p.held m && (alone || c.touched.contains { addr := p.header, via := some p.header })

/-- Two processors do not hold the same interlock. -/
def Cpu.apart (c d : Cpu) : Bool := c.holds.isNone || c.holds != d.holds

/-- Mutual exclusion: every half done instruction holds its interlock and no two hold the same (R47, R109). -/
def State.locksOk (s : State) : Bool :=
  s.cpus.all (·.lockOk s.mem s.alone) && decide (s.cpus.Pairwise fun c d => c.apart d = true)

/-- Memory holds the `n` bytes from `a` on. -/
def Memory.holds (m : Memory) (a : Word) (n : Nat) : Bool :=
  (List.range n).all fun i => (m.readByte (a + BitVec.ofNat 32 i).toNat).isSome

/-- Memory holds what step A of a half done instruction has probed: the header, the entry of an insertion, the
destination of a removal (R106 phases 1 and 2, R47(d)). -/
def Pending.mapped (p : Pending) (m : Memory) : Bool :=
  m.holds p.header 8 &&
    match p.op with
    | .insqhi e | .insqti e => m.holds e 8
    | .remqhi (.mem a) | .remqti (.mem a) _ => m.holds a 4
    | .remqhi (.reg _) | .remqti (.reg _) _ => true

/-- Every half done instruction's operands are in memory. -/
def State.operandsMapped (s : State) : Bool := s.cpus.all fun c => c.pending.all fun p => p.mapped s.mem

/-- The invariant of the machine: memory is in canonical form, the secondary interlocks are held as R109 says
and the operands of what is half done are in memory. -/
def State.Inv (s : State) : Bool := s.mem.wf && s.locksOk && s.operandsMapped

end Sys2Proof.Machine
end

