-- ==== Sys2Proof/Certificates/Slice0/Obligations.lean ====
section
/-! DEFINITION. The statements for the provers, from the numbered rules of spec/. -/

open Sys2Proof Sys2Proof.Machine

/-! ## Encoding -/

/-- R60, R64: decoding the encoding of a well-formed instruction, whatever bytes follow, gives it back and
leaves those bytes. -/
def Obligations.DecodeOfEncode : Prop :=
  ∀ (i : Instr) (rest : List Byte), i.wf = true → decode (encode i ++ rest) = .ok (i, rest)

/-- R60, R64: bytes that decode are the encoding of the well-formed instruction they decode to, followed by
the bytes left over, so an instruction has one encoding and no byte is dropped. -/
def Obligations.DecodeIsExact : Prop :=
  ∀ (bytes rest : List Byte) (i : Instr), decode bytes = .ok (i, rest) →
    i.wf = true ∧ bytes = encode i ++ rest

/-- R62, R63, R171 to R174: encodings of part 5 of spec/95_test_vectors.md decode to what they stand for. -/
def Obligations.DecodeVectors : Prop :=
  decode [0x5C, 0x61, 0x62] = .ok (.insqhi (.plain (.deferred 1)) (.plain (.deferred 2)), []) ∧
  decode [0x5D, 0x63, 0x62] = .ok (.insqti (.plain (.deferred 3)) (.plain (.deferred 2)), []) ∧
  decode [0x0E, 0x63, 0xB2, 0x04] =
    .ok (.insque (.plain (.deferred 3)) (.plain (.byteDispDeferred 2 4)), []) ∧
  decode [0x5E, 0x43, 0x62, 0x50] =
    .ok (.remqhi (.indexed 3 (.deferred 2)) (.plain (.register 0)), []) ∧
  decode [0x5F, 0xA5, 0x08, 0x7E] =
    .ok (.remqti (.plain (.byteDisp 5 8)) (.plain (.autodec 14)), []) ∧
  decode [0x0F, 0xB2, 0x00, 0x55] =
    .ok (.remque (.plain (.byteDispDeferred 2 0)) (.plain (.register 5)), []) ∧
  decode [0x13, 0x02] = .ok (.beql 2, []) ∧
  decode [0x1F, 0xF9] = .ok (.bcs 0xF9, []) ∧
  decode [0x1D, 0x05] = .ok (.bvs 5, []) ∧
  decode [0x11, 0xF6] = .ok (.brb 0xF6, [])

/-! ## A step -/

/-- R42, R60: when the bytes at the program counter are the encoding of a well-formed instruction, a step of
a processor that has nothing half done and is not at END is `exec` of it, and then the turn passes. -/
def Obligations.StepRunsTheDecodedInstruction : Prop :=
  ∀ (s : State) (i : Instr), i.wf = true → s.cpu.pending = none → s.params.endAt ≠ some s.pc →
    s.holdsCode s.pc (encode i) = true → step s = onNext State.nextTurn (exec i s)

/-- R109, R219: a step that fetches nothing: the step of a processor that has taken step A of an interlocked
instruction is its step B; a processor whose program counter is END has stopped, and its step changes
nothing but whose turn it is. -/
def Obligations.StepWithoutFetch : Prop :=
  ∀ s : State,
    (∀ p, s.cpu.pending = some p → step s = onNext State.nextTurn (stepB p s)) ∧
    (s.cpu.pending = none → s.params.endAt = some s.pc → step s = .next s.nextTurn)

/-- R79, D14: exactly the opcode bytes outside the table are refused by name, by the decoder whatever follows
them, and by a step when one stands at the program counter as program text. -/
def Obligations.OpcodesOutsideTheTable : Prop :=
  ∀ (op : Byte) (rest : List Byte),
    (op ∉ [0x0E, 0x0F, 0x11, 0x13, 0x1D, 0x1F, 0x5C, 0x5D, 0x5E, 0x5F] ↔
      decode (op :: rest) = .error (.opcodeNotInSpec op)) ∧
    ∀ s : State, s.cpu.pending = none → s.params.endAt ≠ some s.pc →
      op ∉ [0x0E, 0x0F, 0x11, 0x13, 0x1D, 0x1F, 0x5C, 0x5D, 0x5E, 0x5F] →
      s.holdsCode s.pc [op] = true → step s = .refused (.opcodeNotInSpec op)

/-- R23, U19: an instruction one of whose bytes is at 0xFFFFFFFF is refused: the program counter would pass
the top of the address space. -/
def Obligations.ProgramCounterWrapStops : Prop :=
  ∀ (s : State) (bytes more : List Byte) (b : Byte) (i : Instr), s.cpu.pending = none →
    s.params.endAt ≠ some s.pc → i.wf = true → encode i = bytes ++ b :: more →
    s.holdsCode s.pc bytes = true → s.pc + BitVec.ofNat 32 bytes.length = 0xFFFFFFFF →
    step s = .refused .pcWrap

/-- R198: a step moves one processor; the others stand as they were, registers, status and half done
instruction, though whose turn it is may change. -/
def Obligations.StepMovesOneProcessor : Prop :=
  ∀ s u : State, step s = .next u → ∃ c : Cpu, u.cpus.Perm (c :: s.others)

/-! ## Branches -/

/-- R170 to R174: BRB (0x11), BEQL (0x13), BVS (0x1D) and BCS (0x1F), each an opcode byte and a displacement
byte, complete. BRB is always taken, the others if Z, V and C are 1; a branch taken leaves the program counter
at the byte after the instruction plus the displacement. Nothing else changes: no condition code, no register,
no memory. -/
def Obligations.Branches : Prop :=
  ∀ (d : BitVec 8) (s : State) (i : Instr) (op : Byte) (taken : Bool),
    (i = .brb d ∧ op = 0x11 ∧ taken = true ∨
      i = .beql d ∧ op = 0x13 ∧ taken = s.cpu.psl.getLsbD 2 ∨
      i = .bvs d ∧ op = 0x1D ∧ taken = s.cpu.psl.getLsbD 1 ∨
      i = .bcs d ∧ op = 0x1F ∧ taken = s.cpu.psl.getLsbD 0) →
    encode i = [op, d] ∧ ∃ u, exec i s = .next u ∧
      u.pc = (if taken then s.pc + 2 + d.signExtend 32 else s.pc + 2) ∧
      (∀ n, n ≠ pcReg → u.reg n = s.reg n) ∧ u = { s with cpu := { s.cpu with regs := u.cpu.regs } }

/-! ## Operand specifiers -/

/-- R61, R77: operands are evaluated in stream order, after the opcode byte, the second on the state the first
leaves: `entry.ab` for a byte, an `.aq` address for a quadword, `addr.wl` for a longword, whose destination is
memory at its address unless its form is register mode or an immediate. An evaluation that stops decides the
instruction: its exception is raised with the state before it, its refusal refuses. -/
def Obligations.OperandsInStreamOrder : Prop :=
  DataType.size .byte = 1 ∧ DataType.size .long = 4 ∧ DataType.size .quad = 8 ∧
  ∀ (dt : DataType) (a b : Specifier) (s : State),
    (∀ e h t, evalInsertion dt a b s = .ok (e, h, t) ↔
      ∃ u, evalAddress .byte a (s.advance 1) = .ok (e, u) ∧ evalAddress dt b u = .ok (h, t)) ∧
    (∀ stop, evalInsertion dt a b s = .error stop ↔ evalAddress .byte a (s.advance 1) = .error stop ∨
      ∃ e u, evalAddress .byte a (s.advance 1) = .ok (e, u) ∧ evalAddress dt b u = .error stop) ∧
    (∀ h d t, evalRemoval dt a b s = .ok (h, d, t) ↔
      ∃ u, evalAddress dt a (s.advance 1) = .ok (h, u) ∧ evalDest b u = .ok (d, t)) ∧
    (∀ stop, evalRemoval dt a b s = .error stop ↔ evalAddress dt a (s.advance 1) = .error stop ∨
      ∃ h u, evalAddress dt a (s.advance 1) = .ok (h, u) ∧ evalDest b u = .error stop) ∧
    ((∀ n, b ≠ .plain (.register n)) → (∀ data, b ≠ .plain (.immediate data)) →
      (∀ d t, evalDest b s = .ok (d, t) ↔ ∃ x, d = .mem x ∧ evalAddress .long b s = .ok (x, t)) ∧
      (∀ stop, evalDest b s = .error stop ↔ evalAddress .long b s = .error stop)) ∧
    ∀ i : Instr,
      ((i = .insque a b ∧ dt = .byte ∨ s.cpu.pending = none ∧ dt = .quad ∧
          (i = .insqhi a b ∨ i = .insqti a b)) →
        (∀ x, evalInsertion dt a b s = .error (.raise x) → exec i s = .fault (.raised x s)) ∧
        (∀ r, evalInsertion dt a b s = .error (.refuse r) → exec i s = .refused r)) ∧
      ((i = .remque a b ∧ dt = .byte ∨ s.cpu.pending = none ∧ dt = .quad ∧
          (i = .remqhi a b ∨ i = .remqti a b)) →
        (∀ x, evalRemoval dt a b s = .error (.raise x) → exec i s = .fault (.raised x s)) ∧
        (∀ r, evalRemoval dt a b s = .error (.refuse r) → exec i s = .refused r))

/-- R65: a short literal, the specifier bytes 0x00 to 0x3F, raises a reserved addressing mode fault for every
operand of every queue instruction; the state is the state before the instruction. -/
def Obligations.ShortLiteralFaults : Prop :=
  ∀ (v : BitVec 6) (other : Specifier) (s : State),
    let fault : Host.Outcome State Fault Refusal := .fault (.raised .reservedAddressingMode s)
    encodeBase (.literal v) = [0#2 ++ v] ∧
    (exec (.insque (.plain (.literal v)) other) s = fault ∧
      exec (.remque (.plain (.literal v)) other) s = fault ∧
      exec (.insqhi (.plain (.literal v)) other) s = fault ∧
      exec (.insqti (.plain (.literal v)) other) s = fault ∧
      exec (.remqhi (.plain (.literal v)) other) s = fault ∧
      exec (.remqti (.plain (.literal v)) other) s = fault) ∧
    (∀ x, evalAddress .byte other (s.advance 1) = .ok x →
      exec (.insque other (.plain (.literal v))) s = fault ∧
      exec (.remque other (.plain (.literal v))) s = fault) ∧
    (∀ x, evalAddress .byte other (s.release.advance 1) = .ok x →
      exec (.insqhi other (.plain (.literal v))) s = fault ∧
      exec (.insqti other (.plain (.literal v))) s = fault) ∧
    (∀ x, evalAddress .quad other (s.release.advance 1) = .ok x →
      exec (.remqhi other (.plain (.literal v))) s = fault ∧
      exec (.remqti other (.plain (.literal v))) s = fault)

/-- R66: index mode, the byte 0x4x before a base specifier: the effective address is the base specifier's
plus the index register times the size; a PC index, and a base that is a short literal, a register or another
prefix, raise a reserved addressing mode fault; an immediate base and a base that steps the index register are
refused. -/
def Obligations.IndexedAddress : Prop :=
  ∀ (dt : DataType) (x : Reg) (b : BaseSpec) (s : State),
    let literalRegisterOrPrefix :=
      (∃ v, b = .literal v) ∨ (∃ n, b = .register n) ∨ (∃ y, b = .indexPrefix y)
    encodeSpecifier (.indexed x b) = specifierByte 0x4 x :: encodeBase b ∧
    (x = pcReg ∨ literalRegisterOrPrefix →
      evalAddress dt (.indexed x b) s = .error (.raise .reservedAddressingMode)) ∧
    (x ≠ pcReg → (∃ data, b = .immediate data) ∨ baseSteps b = some x →
      evalAddress dt (.indexed x b) s = .error (.refuse .unpredictableSpecifier)) ∧
    (x ≠ pcReg → ¬ literalRegisterOrPrefix → (∀ data, b ≠ .immediate data) → baseSteps b ≠ some x →
      ∀ (base : Word) (t : State), evalAddress dt (.plain b) (s.advance 1) = .ok (base, t) →
        evalAddress dt (.indexed x b) s = .ok (base + s.reg x * BitVec.ofNat 32 dt.size, t))

/-- R67: register mode, the byte 0x5n, raises a reserved addressing mode fault for an address operand and is
the destination for a write operand; register 15 is refused. -/
def Obligations.RegisterMode : Prop :=
  ∀ (dt : DataType) (n : Reg) (s : State),
    encodeBase (.register n) = [specifierByte 0x5 n] ∧
    (n ≠ pcReg → evalAddress dt (.plain (.register n)) s = .error (.raise .reservedAddressingMode) ∧
      evalDest (.plain (.register n)) s = .ok (.reg n, s.advance 1) ∧
      ∀ v : Word, s.writeDest (.reg n) v = .ok (s.setReg n v)) ∧
    evalAddress dt (.plain (.register pcReg)) s = .error (.refuse .unpredictableSpecifier) ∧
    evalDest (.plain (.register pcReg)) s = .error (.refuse .unpredictableSpecifier)

/-- R68, R69, R70: register deferred (0x6n) gives the register and changes none; autodecrement (0x7n) gives the
register less the size, its new value; autoincrement (0x8n) gives the register's old value and adds the
size to it. -/
def Obligations.RegisterAddresses : Prop :=
  ∀ (dt : DataType) (n : Reg) (s : State), n ≠ pcReg →
    let size := BitVec.ofNat 32 dt.size
    encodeBase (.deferred n) = [specifierByte 0x6 n] ∧
    encodeBase (.autodec n) = [specifierByte 0x7 n] ∧
    encodeBase (.autoinc n) = [specifierByte 0x8 n] ∧
    evalAddress dt (.plain (.deferred n)) s = .ok (s.reg n, s.advance 1) ∧
    ∀ (b : BaseSpec) (a after : Word),
      (b = .autodec n ∧ a = s.reg n - size ∧ after = s.reg n - size ∨
        b = .autoinc n ∧ a = s.reg n ∧ after = s.reg n + size) →
      ∃ t, evalAddress dt (.plain b) s = .ok (a, t) ∧ t.reg n = after ∧ t.pc = s.pc + 1 ∧
        (∀ k, k ≠ n → k ≠ pcReg → t.reg k = s.reg k) ∧
        t = { s with cpu := { s.cpu with regs := t.cpu.regs } }

/-- R72: autoincrement deferred (0x9n): the pointer at the register is the effective address, after a read
probe, and 4 is added to the register whatever the data type; a failing probe raises its exception. No
access of another processor may be on record that the read could race with (log 14). -/
def Obligations.AutoincrementDeferredAddress : Prop :=
  ∀ (dt : DataType) (n : Reg) (s : State), n ≠ pcReg →
    encodeBase (.autoincDeferred n) = [specifierByte 0x9 n] ∧
    (∀ x, s.probe (s.reg n) 4 .read = some x →
      evalAddress dt (.plain (.autoincDeferred n)) s = .error (.raise x)) ∧
    (∀ v, s.raceFree none (s.reg n) = true → s.probe (s.reg n) 4 .read = none →
      s.mem.read4 (s.reg n) = some v →
      ∃ t, evalAddress dt (.plain (.autoincDeferred n)) s = .ok (v, t) ∧ t.reg n = s.reg n + 4 ∧
        t.pc = s.pc + 1 ∧ (∀ k, k ≠ n → k ≠ pcReg → t.reg k = s.reg k) ∧
        t = { s with cpu := { s.cpu with regs := t.cpu.regs, touched := t.cpu.touched } })

/-- R74: displacement (0xAn, 0xCn, 0xEn, then 1, 2 or 4 little-endian bytes): the register plus the
sign-extended displacement; no register changes but `pc`. -/
def Obligations.DisplacementAddress : Prop :=
  ∀ (dt : DataType) (n : Reg) (s : State), n ≠ pcReg →
    (∀ d, encodeBase (.byteDisp n d) = [specifierByte 0xA n, d]) ∧
    (∀ d0 d1 : Byte, encodeBase (.wordDisp n (d1 ++ d0)) = [specifierByte 0xC n, d0, d1]) ∧
    (∀ d0 d1 d2 d3 : Byte, encodeBase (.longDisp n (d3 ++ d2 ++ d1 ++ d0)) =
      [specifierByte 0xE n, d0, d1, d2, d3]) ∧
    (∀ d, evalAddress dt (.plain (.byteDisp n d)) s = .ok (s.reg n + d.signExtend 32, s.advance 2)) ∧
    (∀ d, evalAddress dt (.plain (.wordDisp n d)) s = .ok (s.reg n + d.signExtend 32, s.advance 3)) ∧
    (∀ d, evalAddress dt (.plain (.longDisp n d)) s = .ok (s.reg n + d, s.advance 5))

/-- R75: displacement deferred (0xBn, 0xDn, 0xFn): the pointer at the displacement address is the effective
address, after a read probe, which raises its exception if it fails. No access of another processor may be
on record that the read could race with (log 14). -/
def Obligations.DisplacementDeferredAddress : Prop :=
  ∀ (dt : DataType) (n : Reg) (s : State), n ≠ pcReg →
    (∀ d, encodeBase (.byteDispDeferred n d) = [specifierByte 0xB n, d]) ∧
    (∀ d0 d1 : Byte, encodeBase (.wordDispDeferred n (d1 ++ d0)) = [specifierByte 0xD n, d0, d1]) ∧
    (∀ d0 d1 d2 d3 : Byte, encodeBase (.longDispDeferred n (d3 ++ d2 ++ d1 ++ d0)) =
      [specifierByte 0xF n, d0, d1, d2, d3]) ∧
    ∀ (b : BaseSpec) (p : Word) (length : Nat),
      ((∃ d, b = .byteDispDeferred n d ∧ p = s.reg n + d.signExtend 32 ∧ length = 2) ∨
        (∃ d, b = .wordDispDeferred n d ∧ p = s.reg n + d.signExtend 32 ∧ length = 3) ∨
        (∃ d, b = .longDispDeferred n d ∧ p = s.reg n + d ∧ length = 5)) →
      (∀ x, s.probe p 4 .read = some x → evalAddress dt (.plain b) s = .error (.raise x)) ∧
      (∀ v, s.raceFree none p = true → s.probe p 4 .read = none → s.mem.read4 p = some v →
        ∃ t, evalAddress dt (.plain b) s = .ok (v, t) ∧ t.cpu.regs = (s.advance length).cpu.regs ∧
          t = { s with cpu := { s.cpu with regs := t.cpu.regs, touched := t.cpu.touched } })

/-- R73, R76: absolute (0x9F) gives the four bytes after its specifier byte, little-endian; PC-relative (0xAF,
0xCF, 0xEF) takes the program counter after the displacement field, and its deferred form (0xBF, 0xDF,
0xFF) the pointer there, with the same premise about races as R75. -/
def Obligations.PcModesAddress : Prop :=
  ∀ (dt : DataType) (s : State),
    (∀ b0 b1 b2 b3 : Byte, encodeBase (.absolute (b3 ++ b2 ++ b1 ++ b0)) = [0x9F, b0, b1, b2, b3]) ∧
    (∀ w, evalAddress dt (.plain (.absolute w)) s = .ok (w, s.advance 5)) ∧
    (∀ d, encodeBase (.byteDisp pcReg d) = [0xAF, d] ∧
      encodeBase (.byteDispDeferred pcReg d) = [0xBF, d]) ∧
    (∀ d0 d1 : Byte, encodeBase (.wordDisp pcReg (d1 ++ d0)) = [0xCF, d0, d1] ∧
      encodeBase (.wordDispDeferred pcReg (d1 ++ d0)) = [0xDF, d0, d1]) ∧
    (∀ d0 d1 d2 d3 : Byte, encodeBase (.longDisp pcReg (d3 ++ d2 ++ d1 ++ d0)) = [0xEF, d0, d1, d2, d3] ∧
      encodeBase (.longDispDeferred pcReg (d3 ++ d2 ++ d1 ++ d0)) = [0xFF, d0, d1, d2, d3]) ∧
    (∀ d, evalAddress dt (.plain (.byteDisp pcReg d)) s = .ok (s.pc + 2 + d.signExtend 32, s.advance 2)) ∧
    (∀ d, evalAddress dt (.plain (.wordDisp pcReg d)) s = .ok (s.pc + 3 + d.signExtend 32, s.advance 3)) ∧
    (∀ d, evalAddress dt (.plain (.longDisp pcReg d)) s = .ok (s.pc + 5 + d, s.advance 5)) ∧
    ∀ (b : BaseSpec) (p : Word) (length : Nat),
      ((∃ d, b = .byteDispDeferred pcReg d ∧ p = s.pc + 2 + d.signExtend 32 ∧ length = 2) ∨
        (∃ d, b = .wordDispDeferred pcReg d ∧ p = s.pc + 3 + d.signExtend 32 ∧ length = 3) ∨
        (∃ d, b = .longDispDeferred pcReg d ∧ p = s.pc + 5 + d ∧ length = 5)) →
      (∀ x, s.probe p 4 .read = some x → evalAddress dt (.plain b) s = .error (.raise x)) ∧
      (∀ v, s.raceFree none p = true → s.probe p 4 .read = none → s.mem.read4 p = some v →
        ∃ t, evalAddress dt (.plain b) s = .ok (v, t) ∧ t.cpu.regs = (s.advance length).cpu.regs ∧
          t = { s with cpu := { s.cpu with regs := t.cpu.regs, touched := t.cpu.touched } })

/-- D21, R64, R71: the forms the spec calls UNPREDICTABLE or useless are refused by name: the program counter
in modes 6 and 7, an immediate as an address, an immediate as a destination. -/
def Obligations.RefusedSpecifiers : Prop :=
  ∀ (dt : DataType) (data : List Byte) (s : State),
    evalAddress dt (.plain (.deferred pcReg)) s = .error (.refuse .unpredictableSpecifier) ∧
    evalAddress dt (.plain (.autodec pcReg)) s = .error (.refuse .unpredictableSpecifier) ∧
    evalAddress dt (.plain (.immediate data)) s = .error (.refuse .immediateOperand) ∧
    evalDest (.plain (.immediate data)) s = .error (.refuse .unpredictableSpecifier)

/-! ## Memory and access validation -/

/-- R43: MemRead and MemWrite of 1, 2, 4 and 8 bytes are little-endian and wrap modulo 2^32, and a byte read
of a longword written returns the byte the definition places there. -/
def Obligations.MemoryPrimitives : Prop :=
  ∀ (m : Memory) (a : Word) (n : Nat), n ∈ [1, 2, 4, 8] →
    (∀ bytes : Nat → Byte, (∀ i < n, m.readByte (a + BitVec.ofNat 32 i).toNat = some (bytes i)) →
      m.read a n = some (((List.range n).map fun i => (bytes i).toNat * 2 ^ (8 * i)).sum)) ∧
    (∀ (v : Nat) (b : Word), (m.write a n v).readByte b.toNat =
      if (b - a).toNat < n then some (BitVec.ofNat 8 (v / 2 ^ (8 * (b - a).toNat)))
      else m.readByte b.toNat)

/-- R46, R47(d): Probe of a range is ok exactly when Probe of each byte is, a write probe that is ok implies
that the read probe is, the answer is the same for every byte of one aligned quadword, and a range with a byte
that memory does not hold fails. -/
def Obligations.ProbeLaws : Prop :=
  ∀ (x : AccessMap) (m : Memory) (mode : AccessMode),
    (∀ (k : AccessKind) (a : Word) (n : Nat), x.probe m k mode a n = none ↔
      ∀ i < n, x.probe m k mode (a + BitVec.ofNat 32 i) 1 = none) ∧
    (∀ (a : Word) (n : Nat), x.probe m .write mode a n = none → x.probe m .read mode a n = none) ∧
    (∀ (k : AccessKind) (a b : Word), a.toNat / 8 = b.toNat / 8 →
      (x.probe m k mode a 1 = none ↔ x.probe m k mode b 1 = none)) ∧
    (∀ (k : AccessKind) (a : Word) (n i : Nat), i < n →
      m.readByte (a + BitVec.ofNat 32 i).toNat = none → x.probe m k mode a n ≠ none)

/-! ## Interlocked instructions: results -/

/-- R130: INSQHI on a queue whose interlock is clear, with an entry apart from every element its forward links
reach, completes: the four links are written, the interlock is released, Z says the queue was empty; nothing
else changes. -/
def Obligations.InsqhiResult : Prop :=
  ∀ (entry header : Specifier) (s t : State) (e h f : Word),
    s.cpu.pending = none → s.others = [] → evalInsertion .quad entry header s = .ok (e, h, t) →
    s.mem.read4 h = some f → interlockSet f = false → (∀ x, ¬ InsertionCondition s e h f x) →
    s.probe h 8 .write = none → s.probe (h + f + 4) 4 .write = none →
    consistentHeader s h f = true → selfApart s.mem h (h + f) (elementsApart e) →
    s.writable [e, e + 4, h + f + 4, h] = true →
    ∃ u, exec (.insqhi entry header) s = .next u ∧
      u.mem.read4 e = some (h + f - e) ∧ u.mem.read4 (e + 4) = some (h - e) ∧
      u.mem.read4 (h + f + 4) = some (e - (h + f)) ∧ u.mem.read4 h = some (e - h) ∧
      sameOutside s.mem u.mem [(e, 8), (h + f + 4, 4), (h, 4)] ∧
      u = { t with
        mem := u.mem
        cpu := { t.cpu with psl := withCC s.cpu.psl false (decide (f = 0)) false false } }

/-- R131: INSQTI on a queue whose interlock is clear completes, likewise at the tail. -/
def Obligations.InsqtiResult : Prop :=
  ∀ (entry header : Specifier) (s t : State) (e h f b : Word),
    s.cpu.pending = none → s.others = [] → evalInsertion .quad entry header s = .ok (e, h, t) →
    s.mem.read4 h = some f → interlockSet f = false → (∀ x, ¬ InsertionCondition s e h f x) →
    s.mem.read4 (h + 4) = some b → aligned8 b = true → (f = 0 ↔ b = 0) →
    s.probe h 8 .write = none → s.probe (h + b) 4 .write = none →
    e ≠ h + b → selfApart s.mem h (h + f) (elementsApart e) →
    s.writable [e, e + 4, h + b, h, h + 4] = true →
    ∃ u, exec (.insqti entry header) s = .next u ∧
      u.mem.read4 e = some (h - e) ∧ u.mem.read4 (e + 4) = some (h + b - e) ∧
      u.mem.read4 (h + b) = some (e - (h + b)) ∧ u.mem.read4 (h + 4) = some (e - h) ∧
      (b ≠ 0 → u.mem.read4 h = some f) ∧
      sameOutside s.mem u.mem [(e, 8), (h + b, 4), (h, 8)] ∧
      u = { t with
        mem := u.mem
        cpu := { t.cpu with psl := withCC s.cpu.psl false (decide (b = 0)) false false } }

/-- R150: REMQHI on a queue that is not empty, its interlock clear, completes: the entry after the header is
unlinked and its address written to `addr`; Z says the queue is empty now; the removed entry keeps its links. -/
def Obligations.RemqhiResult : Prop :=
  ∀ (header addr : Specifier) (s t : State) (h f l : Word) (d : Dest),
    s.cpu.pending = none → s.others = [] → evalRemoval .quad header addr s = .ok (h, d, t) →
    s.mem.read4 h = some f → interlockSet f = false → (∀ x, ¬ RemovalCondition s h d f x) →
    f ≠ 0 → s.mem.read4 (h + f) = some l → aligned8 l = true → l ≠ 0 →
    s.probe h 8 .write = none → s.probe (h + f) 4 .read = none →
    s.probe (h + f + l + 4) 4 .write = none → consistentHeader s h f = true →
    d.apart h = true → d.apart (h + f + l) = true → selfApart s.mem h (h + f) d.apart →
    s.acceptsDest d = true → s.writable [h, h + f + l + 4] = true →
    ∃ u, exec (.remqhi header addr) s = .next u ∧
      u.mem.read4 (h + f + l + 4) = some (h - (h + f + l)) ∧ u.mem.read4 h = some (f + l) ∧
      u.destValue d = some (h + f) ∧
      sameOutside s.mem u.mem ([(h + f + l + 4, 4), (h, 4)] ++ destRange d) ∧
      (∀ n, n ≠ pcReg → d ≠ .reg n → u.reg n = t.reg n) ∧ u.pc = t.pc ∧
      u = { t with
        mem := u.mem
        cpu := { t.cpu with
          regs := u.cpu.regs
          psl := withCC s.cpu.psl false (decide (f + l = 0)) false false } }

/-- R151: REMQTI on a queue that is not empty, its interlock clear, completes, likewise at the tail. -/
def Obligations.RemqtiResult : Prop :=
  ∀ (header addr : Specifier) (s t : State) (h f b l : Word) (d : Dest),
    s.cpu.pending = none → s.others = [] → evalRemoval .quad header addr s = .ok (h, d, t) →
    s.mem.read4 h = some f → interlockSet f = false → (∀ x, ¬ RemovalCondition s h d f x) →
    f ≠ 0 → s.mem.read4 (h + 4) = some b → aligned8 b = true → b ≠ 0 →
    s.mem.read4 (h + b + 4) = some l → aligned8 l = true → l ≠ 0 →
    s.probe h 8 .write = none → s.probe (h + b + 4) 4 .read = none →
    s.probe (h + b + l) 4 .write = none →
    d.apart h = true → d.apart (h + b) = true → d.apart (h + b + l) = true →
    selfApart s.mem h (h + f) d.apart →
    s.acceptsDest d = true → s.writable [h, h + 4, h + b + l] = true →
    ∃ u, exec (.remqti header addr) s = .next u ∧
      u.mem.read4 (h + b + l) = some (h - (h + b + l)) ∧ u.mem.read4 (h + 4) = some (b + l) ∧
      (b + l ≠ 0 → u.mem.read4 h = some f) ∧ u.destValue d = some (h + b) ∧
      sameOutside s.mem u.mem ([(h + b + l, 4), (h, 8)] ++ destRange d) ∧
      (∀ n, n ≠ pcReg → d ≠ .reg n → u.reg n = t.reg n) ∧ u.pc = t.pc ∧
      u = { t with
        mem := u.mem
        cpu := { t.cpu with
          regs := u.cpu.regs
          psl := withCC s.cpu.psl false (decide (b + l = 0)) false false } }

/-- R109, R150, R151, D16: REMQHI and REMQTI on an empty queue, its interlock clear, complete in step A,
whatever other processors are about: N Z V C = 0 1 1 0, the queue is not written, and `addr` receives the
header's address (the spec's decision D16, log 19). No access on record may race with those made (log 14). -/
def Obligations.RemoveFromEmptyResult : Prop :=
  ∀ (header addr : Specifier) (s t : State) (h : Word) (d : Dest) (i : Instr),
    s.cpu.pending = none → evalRemoval .quad header addr s = .ok (h, d, t) →
    s.mem.read4 h = some 0 → s.mem.read4 (h + 4) = some 0 → (∀ x, ¬ RemovalCondition s h d 0 x) →
    s.probe h 8 .write = none → d.apart h = true → s.acceptsDest d = true →
    s.raceFree (some h) h = true → s.raceFreeDest d = true →
    (i = .remqhi header addr ∨ i = .remqti header addr ∧ s.raceFree (some h) (h + 4) = true) →
    ∃ u, exec i s = .next u ∧ u.destValue d = some h ∧ sameOutside s.mem u.mem (destRange d) ∧
      (∀ n, n ≠ pcReg → d ≠ .reg n → u.reg n = t.reg n) ∧ u.pc = t.pc ∧
      (s.others = [] → u.cpu.touched = s.cpu.touched) ∧
      u = { t with
        mem := u.mem
        cpu := { t.cpu with
          regs := u.cpu.regs
          psl := withCC s.cpu.psl false true true false
          touched := u.cpu.touched } }

/-! ## Interlocked instructions: the interlock and the exceptions -/

/-- R107, R109, R186, R187: INSQHI and INSQTI that find the interlock set, by another processor or by the
program itself. With no exception condition they complete with N Z V C = 0 0 0 1, memory untouched, the
specifiers' register effects standing and `pc` advanced; with one, they do that or raise one of the
conditions, and nothing else. No access on record may race with the read of the header (log 14). -/
def Obligations.InsertionFindsInterlockSet : Prop :=
  ∀ (entry header : Specifier) (s t : State) (e h f : Word) (i : Instr),
    (i = .insqhi entry header ∨ i = .insqti entry header) →
    s.cpu.pending = none → evalInsertion .quad entry header s = .ok (e, h, t) →
    s.probe h 8 .write = none → s.mem.read4 h = some f → interlockSet f = true →
    s.raceFree (some h) h = true →
    let failed (u : State) (k : Nat) : Prop :=
      u = { t with
        cpu := { t.cpu with
          psl := withCC s.cpu.psl false false false true
          touched := u.cpu.touched }
        draws := k } ∧ u.mem = s.mem ∧ (s.others = [] → u.cpu.touched = s.cpu.touched)
    ((∀ x, ¬ InsertionCondition s e h f x) → ∃ u, exec i s = .next u ∧ failed u s.draws) ∧
    ((∃ x, InsertionCondition s e h f x) →
      (∃ x, InsertionCondition s e h f x ∧ exec i s = .fault (.raised x s)) ∨
      (∃ u k, exec i s = .next u ∧ failed u k))

/-- R107, R109, R186, R187: REMQHI and REMQTI that find the interlock set, likewise with N Z V C = 0 0 1 1 and
`addr` not written. -/
def Obligations.RemovalFindsInterlockSet : Prop :=
  ∀ (header addr : Specifier) (s t : State) (h f : Word) (d : Dest) (i : Instr),
    (i = .remqhi header addr ∨ i = .remqti header addr) →
    s.cpu.pending = none → evalRemoval .quad header addr s = .ok (h, d, t) →
    s.probe h 8 .write = none → s.mem.read4 h = some f → interlockSet f = true →
    s.raceFree (some h) h = true →
    let failed (u : State) (k : Nat) : Prop :=
      u = { t with
        cpu := { t.cpu with
          psl := withCC s.cpu.psl false false true true
          touched := u.cpu.touched }
        draws := k } ∧ u.mem = s.mem ∧ (s.others = [] → u.cpu.touched = s.cpu.touched)
    ((∀ x, ¬ RemovalCondition s h d f x) → ∃ u, exec i s = .next u ∧ failed u s.draws) ∧
    ((∃ x, RemovalCondition s h d f x) →
      (∃ x, RemovalCondition s h d f x ∧ exec i s = .fault (.raised x s)) ∨
      (∃ u k, exec i s = .next u ∧ failed u k))

/-- R182, R183, R188: INSQHI and INSQTI that find the interlock clear while a condition of the operands, of
`(header)<2:1>` or of the entry's probe holds raise one of the conditions that hold, those of later checks among
them (D8); nothing is changed. -/
def Obligations.InsertionConditionFaults : Prop :=
  ∀ (entry header : Specifier) (s t : State) (e h f : Word) (i : Instr),
    (i = .insqhi entry header ∨ i = .insqti entry header) →
    s.cpu.pending = none → evalInsertion .quad entry header s = .ok (e, h, t) →
    s.probe h 8 .write = none → s.mem.read4 h = some f → interlockSet f = false →
    s.raceFree (some h) h = true → (∃ x, InsertionCondition s e h f x) →
    ∃ x, (InsertionCondition s e h f x ∨ LinkCondition i s h f x) ∧ exec i s = .fault (.raised x s)

/-- R182, R183, R188: REMQHI and REMQTI, likewise: a misaligned header, `addr` at the header, `(header)<2:1>`,
or the probe of `addr`. -/
def Obligations.RemovalConditionFaults : Prop :=
  ∀ (header addr : Specifier) (s t : State) (h f : Word) (d : Dest) (i : Instr),
    (i = .remqhi header addr ∨ i = .remqti header addr) →
    s.cpu.pending = none → evalRemoval .quad header addr s = .ok (h, d, t) →
    s.probe h 8 .write = none → s.mem.read4 h = some f → interlockSet f = false →
    s.raceFree (some h) h = true → (∃ x, RemovalCondition s h d f x) →
    ∃ x, (RemovalCondition s h d f x ∨ LinkCondition i s h f x) ∧ exec i s = .fault (.raised x s)

/-- R106, R187: a header that cannot be accessed: the interlock cannot be examined and only a fault is possible,
the header's own exception or one of the conditions of phase 1. -/
def Obligations.InaccessibleHeaderFaults : Prop :=
  ∀ (a b : Specifier) (s t : State) (h : Word) (x : Exception), s.cpu.pending = none →
    s.probe h 8 .write = some x →
    (∀ e, evalInsertion .quad a b s = .ok (e, h, t) →
      ∀ i, i = .insqhi a b ∨ i = .insqti a b →
        ∃ y, (y = x ∨ InsertionCondition s e h 0 y) ∧ exec i s = .fault (.raised y s)) ∧
    (∀ d, evalRemoval .quad a b s = .ok (h, d, t) →
      ∀ i, i = .remqhi a b ∨ i = .remqti a b →
        ∃ y, (y = x ∨ RemovalCondition s h d 0 y) ∧ exec i s = .fault (.raised y s))

/-- R130, R131, R150, R151, R182, R183, R188: with no earlier condition, a link that is not quadword aligned
(the header's backward link for INSQTI and REMQTI, the head entry's forward link for REMQHI, the tail entry's
backward link for REMQTI) or a failing probe of an element reached through the header: one of the conditions
that hold is raised, and the state is as before the instruction, the header included. (An inconsistent header
is refused first by INSQHI and REMQHI, and by REMQTI when its backward link is aligned; log 15.) -/
def Obligations.LinkConditionFaults : Prop :=
  ∀ (a b : Specifier) (s t : State) (h f : Word), s.mem.wf = true → s.cpu.pending = none →
    s.others = [] → s.mem.read4 h = some f → interlockSet f = false →
    s.probe h 8 .write = none → s.writable [h] = true →
    let faults (i : Instr) : Prop := (∃ x, LinkCondition i s h f x) →
      ∃ x, LinkCondition i s h f x ∧ exec i s = .fault (.raised x s)
    (∀ e, evalInsertion .quad a b s = .ok (e, h, t) → (∀ x, ¬ InsertionCondition s e h f x) →
      (consistentHeader s h f = true → faults (.insqhi a b)) ∧ faults (.insqti a b)) ∧
    (∀ d, evalRemoval .quad a b s = .ok (h, d, t) → (∀ x, ¬ RemovalCondition s h d f x) →
      (consistentHeader s h f = true → faults (.remqhi a b)) ∧
      (∀ back, s.mem.read4 (h + 4) = some back →
        consistentHeader s h f = true ∨ aligned8 back = false → faults (.remqti a b)))

/-- D15, D18, D20: the preconditions the spec has a model refuse by name, when no exception condition holds: a
header in program text, a header exactly one of whose links is zero, an entry that is already in the queue, and
an `addr` that shares a byte with an element of the queue. (Where each refusal stands among the checks is the
model's choice, logs 15 and 16.) -/
def Obligations.RefusedPreconditions : Prop :=
  ∀ (a b : Specifier) (s t : State) (h f : Word), s.cpu.pending = none → s.others = [] →
    s.mem.read4 h = some f → interlockSet f = false → s.probe h 8 .write = none →
    let unlessLink (i : Instr) (r : Refusal) : Prop :=
      (∀ x, ¬ LinkCondition i s h f x) → exec i s = .refused r
    (∀ e, evalInsertion .quad a b s = .ok (e, h, t) → (∀ x, ¬ InsertionCondition s e h f x) →
      (s.inText h 4 = true →
        (consistentHeader s h f = true → exec (.insqhi a b) s = .refused (.programTextStore h)) ∧
        exec (.insqti a b) s = .refused (.programTextStore h)) ∧
      (consistentHeader s h f = false → exec (.insqhi a b) s = .refused .inconsistentHeader ∧
        (s.inText h 4 = false → unlessLink (.insqti a b) .inconsistentHeader)) ∧
      (∀ L, SRQueue s.mem h L = true → e ∈ L → s.inText h 4 = false →
        unlessLink (.insqhi a b) .overlap ∧ unlessLink (.insqti a b) .overlap)) ∧
    (∀ d, evalRemoval .quad a b s = .ok (h, d, t) → (∀ x, ¬ RemovalCondition s h d f x) →
      (s.inText h 4 = true → consistentHeader s h f = true → f ≠ 0 →
        exec (.remqhi a b) s = .refused (.programTextStore h) ∧
        unlessLink (.remqti a b) (.programTextStore h)) ∧
      (consistentHeader s h f = false → exec (.remqhi a b) s = .refused .inconsistentHeader ∧
        unlessLink (.remqti a b) .inconsistentHeader) ∧
      (∀ L, SRQueue s.mem h L = true → (∃ x ∈ h :: L, d.apart x = false) →
        L = [] ∨ s.inText h 4 = false →
        unlessLink (.remqhi a b) .overlap ∧ unlessLink (.remqti a b) .overlap))

/-! ## Absolute queues: results and exceptions -/

/-- R132: INSQUE, with an entry apart from every element the forward links reach, completes: the four links
are written, N, Z and C compare the entry's two links, V = 0; no alignment is asked of any element. -/
def Obligations.InsqueResult : Prop :=
  ∀ (entry pred : Specifier) (s t : State) (e p q : Word),
    s.others = [] → evalInsertion .byte entry pred s = .ok (e, p, t) → s.mem.read4 p = some q →
    s.probe e 8 .write = none → s.probe p 4 .write = none → s.probe (q + 4) 4 .write = none →
    elementsApart e p = true → absApart s.mem p q (elementsApart e) →
    (q = p ∨ elementsApart q p = true) →
    s.writable [e, e + 4, q + 4, p] = true →
    ∃ u, exec (.insque entry pred) s = .next u ∧
      u.mem.read4 e = some q ∧ u.mem.read4 (e + 4) = some p ∧
      u.mem.read4 (q + 4) = some e ∧ u.mem.read4 p = some e ∧
      sameOutside s.mem u.mem [(e, 8), (q + 4, 4), (p, 4)] ∧
      u = { t with
        mem := u.mem
        cpu := { t.cpu with
          psl := withCC s.cpu.psl (decide (q.toInt < p.toInt)) (decide (q = p)) false
            (decide (q.toNat < p.toNat)) } }

/-- R152: REMQUE of an element of a well-formed absolute queue, whose other elements are `L`, completes: the
neighbours are linked to each other, `addr` receives the entry's address, V says the entry was a header of an
empty queue; the removed entry keeps its links. -/
def Obligations.RemqueResult : Prop :=
  ∀ (entry addr : Specifier) (s t : State) (e f b : Word) (d : Dest) (L : List Word),
    s.others = [] → evalRemoval .byte entry addr s = .ok (e, d, t) →
    s.mem.read4 e = some f → s.mem.read4 (e + 4) = some b →
    s.probe e 8 .read = none → s.probe b 4 .write = none → s.probe (f + 4) 4 .write = none →
    AbsQueue s.mem e L = true → (∀ x ∈ e :: L, d.apart x = true) →
    s.acceptsDest d = true → s.writable [b, f + 4] = true →
    ∃ u, exec (.remque entry addr) s = .next u ∧
      u.mem.read4 b = some f ∧ u.mem.read4 (f + 4) = some b ∧ u.destValue d = some e ∧
      sameOutside s.mem u.mem ([(b, 4), (f + 4, 4)] ++ destRange d) ∧
      (∀ n, n ≠ pcReg → d ≠ .reg n → u.reg n = t.reg n) ∧ u.pc = t.pc ∧
      u = { t with
        mem := u.mem
        cpu := { t.cpu with
          regs := u.cpu.regs
          psl := withCC s.cpu.psl (decide (f.toInt < b.toInt)) (decide (f = b)) (decide (e = b))
            (decide (f.toNat < b.toNat)) } }

/-- R132, R152, R183, R188: the probes of INSQUE and REMQUE: when one that can be made fails, a memory
management exception that one of them gives is raised (any one, D8), and the state is as before the
instruction. No access on record may race with the reads of the links (log 14). -/
def Obligations.AbsoluteProbeFaults : Prop :=
  ∀ (a b : Specifier) (s t : State),
    (∀ e p, evalInsertion .byte a b s = .ok (e, p, t) → s.raceFree none p = true →
      (∃ x, InsqueCondition s e p x) →
      ∃ x, InsqueCondition s e p x ∧ exec (.insque a b) s = .fault (.raised x s)) ∧
    (∀ e d, evalRemoval .byte a b s = .ok (e, d, t) → s.raceFree none e = true →
      s.raceFree none (e + 4) = true → (∃ x, RemqueCondition s e d x) →
      ∃ x, RemqueCondition s e d x ∧ exec (.remque a b) s = .fault (.raised x s))

/-- R132, R152, D20: what INSQUE and REMQUE refuse, when no exception condition holds: an entry to insert that
shares a byte with an element of the queue; an entry to remove that is no element of a queue, a neighbour's link
not leading back to it; and an `addr` that shares a byte with an element. (Where each refusal stands among the
checks is the model's choice, log 16.) -/
def Obligations.AbsoluteRefusals : Prop :=
  ∀ (a b : Specifier) (s t : State), s.others = [] →
    (∀ e p h L, evalInsertion .byte a b s = .ok (e, p, t) → (∀ x, ¬ InsqueCondition s e p x) →
      AbsQueue s.mem h L = true → p ∈ h :: L → (∃ x ∈ h :: L, elementsApart e x = false) →
      exec (.insque a b) s = .refused .overlap) ∧
    (∀ e d, evalRemoval .byte a b s = .ok (e, d, t) → (∀ x, ¬ RemqueCondition s e d x) →
      (∀ f k, s.mem.read4 e = some f → s.mem.read4 (e + 4) = some k →
        s.mem.read4 k ≠ some e ∨ s.mem.read4 (f + 4) ≠ some e →
        exec (.remque a b) s = .refused .notInQueue) ∧
      (∀ L, AbsQueue s.mem e L = true → (∃ x ∈ e :: L, d.apart x = false) →
        exec (.remque a b) s = .refused .overlap))

/-! ## Frames -/

/-- R22, R77: an instruction that answers a next state leaves every general register alone but the program
counter, those its specifiers step and a register destination. -/
def Obligations.RegisterFrame : Prop :=
  ∀ (i : Instr) (s u : State), exec i s = .next u →
    ∀ n, n ≠ pcReg → n ∉ instrRegs i → u.reg n = s.reg n

/-- R20, R21, R24, R28, R198: an instruction that answers a next state leaves alone bits 31:4 of the PSL, the
mode among them, the parameters of the run, the other processors and their schedule. -/
def Obligations.StatusFrame : Prop :=
  ∀ (i : Instr) (s u : State), exec i s = .next u →
    (∀ k, 4 ≤ k → u.cpu.psl.getLsbD k = s.cpu.psl.getLsbD k) ∧
    u.params = s.params ∧ u.others = s.others ∧ u.turns = s.turns

/-- R112: a queue instruction that answers a next state leaves `pc` at the byte after its last specifier. -/
def Obligations.ProgramCounterAfterQueueInstruction : Prop :=
  ∀ (a b : Specifier) (i : Instr) (s u : State),
    i ∈ [.insque a b, .remque a b, .insqhi a b, .insqti a b, .remqhi a b, .remqti a b] →
    exec i s = .next u → u.pc = s.pc + BitVec.ofNat 32 (1 + specifierLength a + specifierLength b)

/-- R130, R131: the bytes an interlocked insertion stores to: the entry's links, the header's links and the
link of the neighbour; every other byte of memory is as before, whichever way it answers a next state. -/
def Obligations.InterlockedInsertionMemoryFrame : Prop :=
  ∀ (entry header : Specifier) (s t u : State) (e h : Word), s.cpu.pending = none →
    evalInsertion .quad entry header s = .ok (e, h, t) →
    (∀ f, s.mem.read4 h = some f → exec (.insqhi entry header) s = .next u →
      sameOutside s.mem u.mem [(e, 8), (h + f + 4, 4), (h, 4)]) ∧
    (∀ b, s.mem.read4 (h + 4) = some b → exec (.insqti entry header) s = .next u →
      sameOutside s.mem u.mem [(e, 8), (h + b, 4), (h, 8)])

/-- R150, R151: the bytes an interlocked removal stores to: the header's links, the link of the element after
(before) the removed one, and `addr`; every other byte of memory is as before. -/
def Obligations.InterlockedRemovalMemoryFrame : Prop :=
  ∀ (header addr : Specifier) (s t u : State) (h l : Word) (d : Dest), s.cpu.pending = none →
    evalRemoval .quad header addr s = .ok (h, d, t) →
    (∀ f, s.mem.read4 h = some f → s.mem.read4 (h + f) = some l →
      exec (.remqhi header addr) s = .next u →
      sameOutside s.mem u.mem ([(h + f + l + 4, 4), (h, 4)] ++ destRange d)) ∧
    (∀ b, s.mem.read4 (h + 4) = some b → s.mem.read4 (h + b + 4) = some l →
      exec (.remqti header addr) s = .next u →
      sameOutside s.mem u.mem ([(h + b + l, 4), (h, 8)] ++ destRange d))

/-- R132, R152: the bytes INSQUE and REMQUE store to; every other byte of memory is as before. -/
def Obligations.AbsoluteMemoryFrame : Prop :=
  ∀ (a b : Specifier) (s t u : State) (e : Word),
    (∀ p q, evalInsertion .byte a b s = .ok (e, p, t) → s.mem.read4 p = some q →
      exec (.insque a b) s = .next u →
      sameOutside s.mem u.mem [(e, 8), (q + 4, 4), (p, 4)]) ∧
    (∀ d f k, evalRemoval .byte a b s = .ok (e, d, t) → s.mem.read4 e = some f →
      s.mem.read4 (e + 4) = some k → exec (.remque a b) s = .next u →
      sameOutside s.mem u.mem ([(k, 4), (f + 4, 4)] ++ destRange d))

/-! ## Faults -/

/-- R47(d), R189, R190: an instruction that faults raises an exception of the machine, never the model's own
fault, and leaves the state it found, memory, registers, condition codes and program counter. -/
def Obligations.FaultsArePrecise : Prop :=
  ∀ (i : Instr) (s : State) (r : Fault), s.mem.wf = true → s.cpu.pending = none →
    exec i s = .fault r → ∃ x, r = .raised x s

/-- R106, R109, R189: a fault of step B leaves the header's forward link as step A found it and the registers as
they were before the instruction; condition codes and every other byte of memory are as step A left them. Where
memory holds the operands step A has probed, an exception is the only fault (R47(d)). -/
def Obligations.StepBFaultRestores : Prop :=
  ∀ (p : Pending) (s : State) (r : Fault), stepB p s = .fault r →
    (p.mapped s.mem = true → ∃ x t, r = .raised x t) ∧
    ∀ x t, r = .raised x t → t.mem.read4 p.header = some p.forward ∧ sameOutside s.mem t.mem [(p.header, 4)] ∧
    t.cpu.regs = p.startRegs ∧ t.cpu.psl = s.cpu.psl ∧ t.cpu.pending = none

/-! ## Several processors -/

/-- R109: with other processors about, an interlocked instruction that finds the interlock clear and no
condition takes step A: it sets bit 0 of the header's forward link, keeps its operands, and changes nothing
else in memory or in the status. -/
def Obligations.StepAHoldsTheInterlock : Prop :=
  ∀ (a b : Specifier) (s t : State) (h f : Word), s.cpu.pending = none → s.others ≠ [] →
    s.mem.read4 h = some f → interlockSet f = false → s.probe h 8 .write = none →
    s.writable [h] = true → s.raceFree (some h) h = true →
    let holding (op : HeldOp) (u : State) : Prop :=
      u.mem = s.mem.write4 h (f ||| 1) ∧ u.cpu.regs = t.cpu.regs ∧ u.cpu.psl = s.cpu.psl ∧
      u.cpu.pending = some { op, header := h, forward := f, startRegs := s.cpu.regs }
    (∀ e, evalInsertion .quad a b s = .ok (e, h, t) → (∀ x, ¬ InsertionCondition s e h f x) →
      (consistentHeader s h f = true → ∃ u, exec (.insqhi a b) s = .next u ∧ holding (.insqhi e) u) ∧
      (∃ u, exec (.insqti a b) s = .next u ∧ holding (.insqti e) u)) ∧
    (∀ d, evalRemoval .quad a b s = .ok (h, d, t) → (∀ x, ¬ RemovalCondition s h d f x) → f ≠ 0 →
      (consistentHeader s h f = true → ∃ u, exec (.remqhi a b) s = .next u ∧ holding (.remqhi d) u) ∧
      (∀ back, s.mem.read4 (h + 4) = some back → aligned8 back = true → back ≠ 0 →
        s.raceFree (some h) (h + 4) = true →
        ∃ u, exec (.remqti a b) s = .next u ∧ holding (.remqti d back) u))

/-- R47, R104, R107: an interlocked instruction on a header whose interlock is set does not alter memory. -/
def Obligations.HeldInterlockExcludes : Prop :=
  ∀ (a b : Specifier) (s t u : State) (h f : Word), s.cpu.pending = none →
    s.mem.read4 h = some f → interlockSet f = true →
    (∀ e, evalInsertion .quad a b s = .ok (e, h, t) →
      (exec (.insqhi a b) s = .next u ∨ exec (.insqti a b) s = .next u) → u.mem = s.mem) ∧
    (∀ d, evalRemoval .quad a b s = .ok (h, d, t) →
      (exec (.remqhi a b) s = .next u ∨ exec (.remqti a b) s = .next u) → u.mem = s.mem)

/-- R109: step A followed by step B is the instruction as a processor that is alone executes it. When both
steps answer, so does the instruction alone; when the instruction alone answers and step A has been taken, step
B answers with other processors about, unless an access on record races with one it makes (log 14); and the
outcomes agree. -/
def Obligations.TwoStepsAreTheInstruction : Prop :=
  ∀ (i : Instr) (s u : State) (p : Pending), s.cpu.pending = none → s.others ≠ [] →
    exec i s = .next u → u.cpu.pending = some p →
    let agree (v w : State) : Prop :=
      w.mem = v.mem ∧ w.cpu.regs = v.cpu.regs ∧ w.cpu.psl = v.cpu.psl ∧ v.cpu.pending = none
    (∀ v, stepB p u = .next v → ∃ w, exec i { s with others := [] } = .next w ∧ agree v w) ∧
    (∀ w, exec i { s with others := [] } = .next w →
      (∀ a ∈ p.accesses u.mem, s.raceFree (some p.header) a = true) →
      (∀ d, p.dest = some d → s.raceFreeDest d = true) →
      ∃ v, stepB p u = .next v ∧ agree v w)

/-- R47, R109, D9: no instruction goes on over a race: when another processor has on record an access that
overlaps a longword INSQUE or REMQUE uses, or one that an interlocked instruction or its step B uses, not made
through an interlocked instruction on the same header, no next state is answered. -/
def Obligations.RacesRefused : Prop :=
  ∀ (a b : Specifier) (s t : State) (x : Word) (c : Cpu) (y : Touch),
    c ∈ s.others → y ∈ c.touched → overlaps x 4 y.addr 4 = true →
    let stops (i : Instr) : Prop := ∀ u, exec i s ≠ .next u
    (∀ e p, evalInsertion .byte a b s = .ok (e, p, t) →
      x ∈ [e, e + 4, p] ∨ (∃ q, s.mem.read4 p = some q ∧ x = q + 4) → stops (.insque a b)) ∧
    (∀ e d, evalRemoval .byte a b s = .ok (e, d, t) →
      x ∈ [e, e + 4] ∨ s.mem.read4 (e + 4) = some x ∨ (∃ f, s.mem.read4 e = some f ∧ x = f + 4) ∨
        d = .mem x → stops (.remque a b)) ∧
    (∀ e, evalInsertion .quad a b s = .ok (e, x, t) → s.cpu.pending = none → y.via ≠ some x →
      stops (.insqhi a b) ∧ stops (.insqti a b)) ∧
    (∀ d, evalRemoval .quad a b s = .ok (x, d, t) → s.cpu.pending = none → y.via ≠ some x →
      stops (.remqhi a b) ∧ stops (.remqti a b)) ∧
    (∀ p : Pending, x ∈ p.accesses s.mem ∧ y.via ≠ some p.header ∨ p.dest = some (.mem x) →
      ∀ u, stepB p s ≠ .next u)

/-! ## Invariants -/

/-- R25, R43, R47(d): every step keeps memory in its canonical form, and, where memory holds the operands that
step A of each half done instruction has probed, it keeps that too and memory holds a value at the same
addresses as before. -/
def Obligations.StepKeepsMemoryForm : Prop :=
  ∀ s u : State, step s = .next u → (s.mem.wf = true → u.mem.wf = true) ∧
    (s.operandsMapped = true → u.operandsMapped = true ∧
      ∀ a, (u.mem.readByte a).isSome = (s.mem.readByte a).isSome)

/-- R47, R104, R109: every step keeps mutual exclusion: each half done instruction holds the interlock of its
header, bit 0 of a forward link whose other low bits are zero, and no two processors hold the same one. -/
def Obligations.StepKeepsMutualExclusion : Prop :=
  ∀ s u : State, s.locksOk = true → step s = .next u → u.locksOk = true

/-- The state a run starts from when nothing is given meets the invariant. -/
def Obligations.ResetMeetsTheInvariant : Prop := State.reset.Inv = true

/-- R24, R29, R211: the state a run starts from is in kernel mode, the default, with no instruction half done
and no other processor; its registers and condition codes are zero by the model's choice (logs 2, 3, 4, 13). -/
def Obligations.ResetState : Prop :=
  modeOf State.reset.cpu.psl = .kernel ∧ State.reset.cpu.pending = none ∧ State.reset.others = [] ∧
  (∀ n, State.reset.reg n = 0) ∧ State.reset.ccN = false ∧ State.reset.ccZ = false ∧
  State.reset.ccV = false ∧ State.reset.ccC = false ∧ (∀ a, State.reset.mem.readByte a = none)

/-- R51: no step changes a byte of the program text. -/
def Obligations.StepKeepsProgramText : Prop :=
  ∀ s u : State, step s = .next u → u.params = s.params ∧
    ∀ a : Word, s.inText a 1 = true → u.mem.readByte a.toNat = s.mem.readByte a.toNat

/-! ## Queues stay queues -/

/-- R101, R130: INSQHI puts an entry at the front of a self-relative queue. -/
def Obligations.InsqhiPutsInFront : Prop :=
  ∀ (entry header : Specifier) (s t : State) (e h : Word) (L : List Word),
    s.cpu.pending = none → s.others = [] → evalInsertion .quad entry header s = .ok (e, h, t) →
    SRQueue s.mem h L = true → aligned8 e = true → e ∉ h :: L →
    s.probe e 8 .write = none → s.probe h 8 .write = none →
    s.probe (L.headD h + 4) 4 .write = none →
    s.writable [e, e + 4, L.headD h + 4, h] = true →
    ∃ u, exec (.insqhi entry header) s = .next u ∧ SRQueue u.mem h (e :: L) = true ∧
      u.cpu.psl = withCC s.cpu.psl false L.isEmpty false false

/-- R101, R131: INSQTI puts an entry at the end of a self-relative queue. -/
def Obligations.InsqtiPutsAtEnd : Prop :=
  ∀ (entry header : Specifier) (s t : State) (e h : Word) (L : List Word),
    s.cpu.pending = none → s.others = [] → evalInsertion .quad entry header s = .ok (e, h, t) →
    SRQueue s.mem h L = true → aligned8 e = true → e ∉ h :: L →
    s.probe e 8 .write = none → s.probe h 8 .write = none →
    s.probe (L.getLastD h) 4 .write = none →
    s.writable [e, e + 4, L.getLastD h, h, h + 4] = true →
    ∃ u, exec (.insqti entry header) s = .next u ∧ SRQueue u.mem h (L ++ [e]) = true ∧
      u.cpu.psl = withCC s.cpu.psl false L.isEmpty false false

/-- R101, R150: REMQHI takes the first entry of a self-relative queue and gives its address. -/
def Obligations.RemqhiTakesTheFirst : Prop :=
  ∀ (header addr : Specifier) (s t : State) (h e : Word) (L : List Word) (d : Dest),
    s.cpu.pending = none → s.others = [] → evalRemoval .quad header addr s = .ok (h, d, t) →
    SRQueue s.mem h (e :: L) = true → (∀ x ∈ h :: e :: L, d.apart x = true) →
    s.probe h 8 .write = none → s.probe e 4 .read = none →
    s.probe (L.headD h + 4) 4 .write = none → s.acceptsDest d = true →
    s.writable [h, L.headD h + 4] = true →
    ∃ u, exec (.remqhi header addr) s = .next u ∧ SRQueue u.mem h L = true ∧
      u.destValue d = some e ∧ u.mem.read4 e = s.mem.read4 e ∧
      u.mem.read4 (e + 4) = s.mem.read4 (e + 4) ∧
      u.cpu.psl = withCC s.cpu.psl false L.isEmpty false false

/-- R101, R151: REMQTI takes the last entry of a self-relative queue and gives its address. -/
def Obligations.RemqtiTakesTheLast : Prop :=
  ∀ (header addr : Specifier) (s t : State) (h e : Word) (L : List Word) (d : Dest),
    s.cpu.pending = none → s.others = [] → evalRemoval .quad header addr s = .ok (h, d, t) →
    SRQueue s.mem h (L ++ [e]) = true → (∀ x ∈ h :: e :: L, d.apart x = true) →
    s.probe h 8 .write = none → s.probe (e + 4) 4 .read = none →
    s.probe (L.getLastD h) 4 .write = none → s.acceptsDest d = true →
    s.writable [h, h + 4, L.getLastD h] = true →
    ∃ u, exec (.remqti header addr) s = .next u ∧ SRQueue u.mem h L = true ∧
      u.destValue d = some e ∧ u.mem.read4 e = s.mem.read4 e ∧
      u.mem.read4 (e + 4) = s.mem.read4 (e + 4) ∧
      u.cpu.psl = withCC s.cpu.psl false L.isEmpty false false

/-- R103, R132: INSQUE puts an entry directly after its predecessor in an absolute queue, and Z says the queue
was empty. -/
def Obligations.InsquePutsAfterPredecessor : Prop :=
  ∀ (entry pred : Specifier) (s t : State) (e p q h : Word) (L : List Word),
    s.others = [] → evalInsertion .byte entry pred s = .ok (e, p, t) →
    AbsQueue s.mem h L = true → p ∈ h :: L → (∀ x ∈ h :: L, elementsApart e x = true) →
    s.mem.read4 p = some q → s.probe e 8 .write = none → s.probe p 4 .write = none →
    s.probe (q + 4) 4 .write = none → s.writable [e, e + 4, q + 4, p] = true →
    ∃ u, exec (.insque entry pred) s = .next u ∧
      AbsQueue u.mem h (insertAfter h p e L) = true ∧ u.ccZ = L.isEmpty

/-- R103, R152: REMQUE takes an entry out of an absolute queue and gives its address; Z says the queue is empty
now, V that nothing was removed. -/
def Obligations.RemqueTakesTheEntry : Prop :=
  ∀ (entry addr : Specifier) (s t : State) (e f b h : Word) (L : List Word) (d : Dest),
    s.others = [] → evalRemoval .byte entry addr s = .ok (e, d, t) →
    AbsQueue s.mem h L = true → e ∈ L → (∀ x ∈ h :: L, d.apart x = true) →
    s.mem.read4 e = some f → s.mem.read4 (e + 4) = some b →
    s.probe e 8 .read = none → s.probe b 4 .write = none → s.probe (f + 4) 4 .write = none →
    s.acceptsDest d = true → s.writable [b, f + 4] = true →
    ∃ u, exec (.remque entry addr) s = .next u ∧ AbsQueue u.mem h (L.erase e) = true ∧
      u.destValue d = some e ∧ u.ccZ = decide (L = [e]) ∧ u.ccV = false
end

