-- ==== Sys2Proof/Laws/Memory.lean ====
section
/-! SUPPORT. Laws of memory (spec/20_memory.md R43): what a byte reads as after a byte or a longword is
written, that every write keeps the canonical form, and that the canonical form makes memories that
read alike equal. -/

namespace Sys2Proof.Machine

/-! ## Bytes -/

@[simp] theorem readByte_nil (a : Nat) : Memory.readByte [] a = none := rfl

theorem readByte_writeByte (m : Memory) (a a' : Nat) (b : Byte) :
    (m.writeByte a b).readByte a' = if a' = a then some b else m.readByte a' := by
  induction m with
  | nil =>
    simp only [Memory.writeByte, Memory.readByte]
    split <;> split <;> first | rfl | omega
  | cons c rest ih =>
    obtain ⟨k, v⟩ := c
    simp only [Memory.writeByte]
    split
    · simp only [Memory.readByte]
      repeat' split
      all_goals first | rfl | omega
    · split
      · simp only [Memory.readByte]
        repeat' split
        all_goals first | rfl | omega
      · simp only [Memory.readByte, ih]
        repeat' split
        all_goals first | rfl | omega

/-! ## The canonical form -/

theorem wf_cons_iff (k : Nat) (v : Byte) (rest : Memory) :
    Memory.wf ((k, v) :: rest) = true ↔
      k < 2 ^ 32 ∧ Memory.wf rest = true ∧ ∀ c ∈ rest, k < c.1 := by
  induction rest generalizing k v with
  | nil => simp [Memory.wf]
  | cons c rest ih =>
    obtain ⟨k', v'⟩ := c
    rw [Memory.wf, Bool.and_eq_true, decide_eq_true_iff, ih k' v']
    constructor
    · rintro ⟨h1, h2, h3, h4⟩
      refine ⟨by omega, ⟨h2, h3, h4⟩, ?_⟩
      intro c hc
      rcases List.mem_cons.1 hc with rfl | hc
      · exact h1
      · exact lt_trans h1 (h4 c hc)
    · rintro ⟨h1, h2, h3⟩
      exact ⟨h3 _ (List.mem_cons_self ..), h2⟩

theorem readByte_eq_none_of_lt {m : Memory} {a : Nat} (h : ∀ c ∈ m, a < c.1) :
    m.readByte a = none := by
  induction m with
  | nil => rfl
  | cons c rest ih =>
    obtain ⟨k, v⟩ := c
    have hk : a < k := h _ (List.mem_cons_self ..)
    have : ¬ k = a := by omega
    simp only [Memory.readByte, this, if_false]
    exact ih fun c hc => h c (List.mem_cons_of_mem _ hc)

theorem mem_writeByte {m : Memory} {a : Nat} {b : Byte} {c : Host.Cell}
    (h : c ∈ m.writeByte a b) : c = (a, b) ∨ c ∈ m := by
  induction m with
  | nil => simpa [Memory.writeByte] using h
  | cons d rest ih =>
    obtain ⟨k, v⟩ := d
    simp only [Memory.writeByte] at h
    split at h
    · simpa using h
    · split at h
      · rcases List.mem_cons.1 h with h | h
        · exact .inl h
        · exact .inr (List.mem_cons_of_mem _ h)
      · rcases List.mem_cons.1 h with h | h
        · exact .inr (h ▸ List.mem_cons_self ..)
        · exact (ih h).imp id (List.mem_cons_of_mem _)

/-- Writing a byte keeps the canonical form. -/
theorem writeByte_wf {m : Memory} {a : Nat} {b : Byte} (h : m.wf = true) (ha : a < 2 ^ 32) :
    (m.writeByte a b).wf = true := by
  induction m with
  | nil => simpa [Memory.writeByte, Memory.wf] using ha
  | cons c rest ih =>
    obtain ⟨k, v⟩ := c
    have h' := (wf_cons_iff k v rest).1 h
    simp only [Memory.writeByte]
    split
    · rename_i hak
      refine (wf_cons_iff ..).2 ⟨ha, h, fun c hc => ?_⟩
      rcases List.mem_cons.1 hc with rfl | hc
      · exact hak
      · exact lt_trans hak (h'.2.2 c hc)
    · split
      · subst_vars
        exact (wf_cons_iff ..).2 h'
      · rename_i h1 h2
        refine (wf_cons_iff ..).2 ⟨h'.1, ih h'.2.1, fun c hc => ?_⟩
        rcases mem_writeByte hc with rfl | hc
        · simp only; omega
        · exact h'.2.2 c hc

/-- Memories in canonical form that read alike are equal. -/
theorem memory_ext {m m' : Memory} (h : m.wf = true) (h' : m'.wf = true)
    (e : ∀ a, m.readByte a = m'.readByte a) : m = m' := by
  induction m generalizing m' with
  | nil =>
    cases m' with
    | nil => rfl
    | cons c rest => simpa [Memory.readByte] using e c.1
  | cons c rest ih =>
    obtain ⟨k, v⟩ := c
    have w := (wf_cons_iff k v rest).1 h
    cases m' with
    | nil => simpa [Memory.readByte] using e k
    | cons c' rest' =>
      obtain ⟨k', v'⟩ := c'
      have w' := (wf_cons_iff k' v' rest').1 h'
      have hk : k = k' := by
        rcases Nat.lt_trichotomy k k' with hlt | heq | hgt
        · have := e k
          rw [readByte_eq_none_of_lt (m := (k', v') :: rest')] at this
          · simp [Memory.readByte] at this
          · intro c hc
            rcases List.mem_cons.1 hc with rfl | hc
            · exact hlt
            · exact lt_trans hlt (w'.2.2 c hc)
        · exact heq
        · have := e k'
          rw [readByte_eq_none_of_lt (m := (k, v) :: rest)] at this
          · simp [Memory.readByte] at this
          · intro c hc
            rcases List.mem_cons.1 hc with rfl | hc
            · exact hgt
            · exact lt_trans hgt (w.2.2 c hc)
      subst hk
      have hv : v = v' := by simpa [Memory.readByte] using e k
      subst hv
      congr 1
      refine ih w.2.1 w'.2.1 fun a => ?_
      by_cases ha : k = a
      · subst ha
        rw [readByte_eq_none_of_lt w.2.2, readByte_eq_none_of_lt w'.2.2]
      · simpa [Memory.readByte, ha] using e a

/-- The reset memory is in canonical form. -/
theorem reset_memory_wf : State.reset.mem.wf = true := rfl

/-! ## Longwords -/

/-- Writing any number of bytes keeps the canonical form. -/
theorem write_wf {m : Memory} (a : Word) (n v : Nat) (h : m.wf = true) : (m.write a n v).wf = true := by
  induction n generalizing m a v with
  | zero => exact h
  | succ n ih => exact ih _ _ (writeByte_wf h a.isLt)

/-- Writing a longword keeps the canonical form. -/
theorem write4_wf {m : Memory} (a v : Word) (h : m.wf = true) : (m.write4 a v).wf = true :=
  write_wf a 4 v.toNat h

theorem append4_toNat (b0 b1 b2 b3 : Byte) :
    (b3 ++ b2 ++ b1 ++ b0 : Word).toNat =
      b0.toNat + 256 * (b1.toNat + 256 * (b2.toNat + 256 * b3.toNat)) := by
  have h0 := b0.isLt
  have h1 := b1.isLt
  have h2 := b2.isLt
  simp only [BitVec.toNat_append]
  rw [← Nat.shiftLeft_add_eq_or_of_lt h2, ← Nat.shiftLeft_add_eq_or_of_lt h1,
    ← Nat.shiftLeft_add_eq_or_of_lt h0]
  simp only [Nat.shiftLeft_eq]
  omega

/-- A longword is its four bytes, the lowest address least significant (R42, R43). -/
theorem read4_eq (m : Memory) (a : Word) :
    m.read4 a =
      (m.readByte a.toNat).bind fun b0 =>
      (m.readByte (a + 1).toNat).bind fun b1 =>
      (m.readByte (a + 2).toNat).bind fun b2 =>
      (m.readByte (a + 3).toNat).map fun b3 => (b3 ++ b2 ++ b1 ++ b0 : Word) := by
  have e2 : a + 1 + 1 = a + 2 := by bv_omega
  have e3 : a + 2 + 1 = a + 3 := by bv_omega
  simp only [Memory.read4, Memory.read, e2, e3]
  rcases m.readByte a.toNat with - | b0 <;> try rfl
  rcases m.readByte (a + 1).toNat with - | b1 <;> try rfl
  rcases m.readByte (a + 2).toNat with - | b2 <;> try rfl
  rcases m.readByte (a + 3).toNat with - | b3 <;> try rfl
  have h0 := b0.isLt
  have h1 := b1.isLt
  have h2 := b2.isLt
  have h3 := b3.isLt
  simp only [Option.bind_eq_bind, Option.bind_some, Option.map_some, Option.some.injEq]
  apply BitVec.eq_of_toNat_eq
  rw [append4_toNat, BitVec.toNat_ofNat]
  omega

/-- Byte `k` of a longword, `k` from 0, the least significant first (R42). -/
def byteOf (v : Word) (k : Nat) : Byte := v.extractLsb' (8 * k) 8

theorem byteOf_eq (v : Word) (k : Nat) : byteOf v k = BitVec.ofNat 8 (v.toNat / 2 ^ (8 * k)) := by
  apply BitVec.eq_of_toNat_eq
  simp [byteOf, BitVec.extractLsb'_toNat, Nat.shiftRight_eq_div_pow]

/-- Everything a longword store does to the bytes of memory. -/
theorem readByte_write4 (m : Memory) (a v b : Word) :
    (m.write4 a v).readByte b.toNat =
      if (b - a).toNat < 4 then some (byteOf v (b - a).toNat) else m.readByte b.toNat := by
  have e2 : a + 1 + 1 = a + 2 := by bv_omega
  have e3 : a + 2 + 1 = a + 3 := by bv_omega
  simp only [Memory.write4, Memory.write, e2, e3, readByte_writeByte, ← BitVec.toNat_eq]
  by_cases h3 : b = a + 3
  · subst h3
    simp [byteOf_eq, Nat.div_div_eq_div_mul]
  by_cases h2 : b = a + 2
  · subst h2
    simp [byteOf_eq, Nat.div_div_eq_div_mul]
  by_cases h1 : b = a + 1
  · subst h1
    simp [byteOf_eq]
  by_cases h0 : b = a
  · subst h0
    simp [byteOf_eq]
  · have : ¬ (b - a).toNat < 4 := by bv_omega
    rw [if_neg h3, if_neg h2, if_neg h1, if_neg h0, if_neg this]

theorem bytes_append (v : Word) :
    (byteOf v 3 ++ byteOf v 2 ++ byteOf v 1 ++ byteOf v 0 : Word) = v := by
  apply BitVec.eq_of_toNat_eq
  have := v.isLt
  simp only [append4_toNat, byteOf_eq, BitVec.toNat_ofNat]
  omega

/-- A longword reads back as it was written. -/
@[simp] theorem read4_write4_same (m : Memory) (a v : Word) : (m.write4 a v).read4 a = some v := by
  have h0 : (a - a).toNat = 0 := by bv_omega
  have h1 : (a + 1 - a).toNat = 1 := by bv_omega
  have h2 : (a + 2 - a).toNat = 2 := by bv_omega
  have h3 : (a + 3 - a).toNat = 3 := by bv_omega
  simp only [read4_eq, readByte_write4, h0, h1, h2, h3, Nat.reduceLT, if_true, Option.bind_some,
    Option.map_some, bytes_append]

theorem overlaps_comm (a b : Word) (n m : Nat) : overlaps a n b m = overlaps b m a n := by
  simp [overlaps, Bool.or_comm]

/-- A store leaves a longword that shares no byte with it as it was. -/
theorem read4_write4_apart (m : Memory) {a b : Word} (v : Word) (h : overlaps a 4 b 4 = false) :
    (m.write4 a v).read4 b = m.read4 b := by
  simp only [overlaps, Bool.or_eq_false_iff, Bool.and_eq_false_iff, decide_eq_false_iff_not] at h
  have h0 : ¬ (b - a).toNat < 4 := by omega
  have h1 : ¬ (b + 1 - a).toNat < 4 := by bv_omega
  have h2 : ¬ (b + 2 - a).toNat < 4 := by bv_omega
  have h3 : ¬ (b + 3 - a).toNat < 4 := by bv_omega
  simp only [read4_eq, readByte_write4, h0, h1, h2, h3, if_false]

theorem readByte_eq_none_of_ge {m : Memory} {a : Nat} (h : m.wf = true) (ha : 2 ^ 32 ≤ a) :
    m.readByte a = none := by
  induction m with
  | nil => rfl
  | cons c rest ih =>
    obtain ⟨k, v⟩ := c
    have w := (wf_cons_iff k v rest).1 h
    have : ¬ k = a := by omega
    simp only [Memory.readByte, this, if_false]
    exact ih w.2.1

/-- Memories in canonical form that read alike at every address are equal. -/
theorem memory_ext_word {m m' : Memory} (h : m.wf = true) (h' : m'.wf = true)
    (e : ∀ a : Word, m.readByte a.toNat = m'.readByte a.toNat) : m = m' := by
  refine memory_ext h h' fun a => ?_
  by_cases ha : a < 2 ^ 32
  · have := e (BitVec.ofNat 32 a)
    rwa [BitVec.toNat_ofNat, Nat.mod_eq_of_lt ha] at this
  · rw [readByte_eq_none_of_ge h (by omega), readByte_eq_none_of_ge h' (by omega)]

/-- The last of two stores to one longword stands. -/
theorem write4_write4_same {m : Memory} (a v w : Word) (h : m.wf = true) :
    (m.write4 a v).write4 a w = m.write4 a w := by
  refine memory_ext_word (write4_wf _ _ (write4_wf _ _ h)) (write4_wf _ _ h) fun b => ?_
  simp only [readByte_write4]
  split <;> rfl

theorem byteOf_append (b0 b1 b2 b3 : Byte) :
    byteOf (b3 ++ b2 ++ b1 ++ b0) 0 = b0 ∧ byteOf (b3 ++ b2 ++ b1 ++ b0) 1 = b1 ∧
      byteOf (b3 ++ b2 ++ b1 ++ b0) 2 = b2 ∧ byteOf (b3 ++ b2 ++ b1 ++ b0) 3 = b3 := by
  have h0 := b0.isLt
  have h1 := b1.isLt
  have h2 := b2.isLt
  have h3 := b3.isLt
  refine ⟨?_, ?_, ?_, ?_⟩ <;> apply BitVec.eq_of_toNat_eq <;>
    simp only [byteOf_eq, BitVec.toNat_ofNat, append4_toNat] <;> omega

/-- The bytes of a longword that memory holds. -/
theorem readByte_of_read4 {m : Memory} {a v : Word} (h : m.read4 a = some v) :
    m.readByte a.toNat = some (byteOf v 0) ∧ m.readByte (a + 1).toNat = some (byteOf v 1) ∧
      m.readByte (a + 2).toNat = some (byteOf v 2) ∧ m.readByte (a + 3).toNat = some (byteOf v 3) := by
  rw [read4_eq] at h
  simp only [Option.bind_eq_some_iff, Option.map_eq_some_iff] at h
  obtain ⟨b0, h0, b1, h1, b2, h2, b3, h3, rfl⟩ := h
  obtain ⟨e0, e1, e2, e3⟩ := byteOf_append b0 b1 b2 b3
  rw [e0, e1, e2, e3]
  exact ⟨h0, h1, h2, h3⟩

/-- Writing back what a longword reads as changes nothing. -/
theorem write4_read4_same {m : Memory} {a v : Word} (h : m.wf = true) (hr : m.read4 a = some v) :
    m.write4 a v = m := by
  obtain ⟨h0, h1, h2, h3⟩ := readByte_of_read4 hr
  refine memory_ext_word (write4_wf _ _ h) h fun b => ?_
  rw [readByte_write4]
  split
  · rename_i hb
    have : b = a ∨ b = a + 1 ∨ b = a + 2 ∨ b = a + 3 := by bv_omega
    rcases this with rfl | rfl | rfl | rfl
    · rw [h0]; simp
    · rw [h1]; congr 2; bv_omega
    · rw [h2]; congr 2; bv_omega
    · rw [h3]; congr 2; bv_omega
  · rfl

/-! ## What memory holds, and what `Probe` answers -/

/-- Two memories hold a value at the same addresses. -/
def SameDomain (m m' : Memory) : Prop := ∀ a, (m'.readByte a).isSome = (m.readByte a).isSome

theorem SameDomain.refl (m : Memory) : SameDomain m m := fun _ => rfl

theorem SameDomain.trans {m m' m'' : Memory} (x : SameDomain m m') (y : SameDomain m' m'') :
    SameDomain m m'' := fun a => (y a).trans (x a)

/-- Memories with the same domain map the same quadwords. -/
theorem SameDomain.maps {m m' : Memory} (d : SameDomain m m') (a : Word) : m'.maps a = m.maps a := by
  simp only [Memory.maps, d _]

/-- `Probe` looks at no more of memory than its domain (R46, R47(d)). -/
theorem SameDomain.probe {m m' : Memory} (d : SameDomain m m') (x : AccessMap) (k : AccessKind)
    (mode : AccessMode) (a : Word) (n : Nat) : x.probe m' k mode a n = x.probe m k mode a n := by
  induction n generalizing a with
  | zero => rfl
  | succ n ih => simp only [AccessMap.probe, AccessMap.denial, d.maps, ih]

/-- Storing a longword where memory holds one changes no domain. -/
theorem sameDomain_write4 {m : Memory} {a : Word} (v : Word)
    (h : ∀ k < 4, (m.readByte (a + BitVec.ofNat 32 k).toNat).isSome = true) :
    SameDomain m (m.write4 a v) := by
  have e2 : a + 1 + 1 = a + BitVec.ofNat 32 2 := by bv_omega
  have e3 : a + BitVec.ofNat 32 2 + 1 = a + BitVec.ofNat 32 3 := by bv_omega
  have h0 := h 0 (by decide)
  have h1 := h 1 (by decide)
  have h2 := h 2 (by decide)
  have h3 := h 3 (by decide)
  rw [show a + BitVec.ofNat 32 0 = a from BitVec.add_zero a] at h0
  rw [show a + BitVec.ofNat 32 1 = a + 1 from rfl] at h1
  intro b
  simp only [Memory.write4, Memory.write, e2, e3, readByte_writeByte]
  repeat' split
  all_goals simp_all

/-- A longword that memory holds, byte by byte. -/
theorem isSome_of_read4 {m : Memory} {a v : Word} (h : m.read4 a = some v) :
    ∀ k < 4, (m.readByte (a + BitVec.ofNat 32 k).toNat).isSome = true := by
  obtain ⟨h0, h1, h2, h3⟩ := readByte_of_read4 h
  intro k hk
  match k, hk with
  | 0, _ => rw [show a + BitVec.ofNat 32 0 = a from BitVec.add_zero a, h0]; rfl
  | 1, _ => rw [show a + BitVec.ofNat 32 1 = a + 1 from rfl, h1]; rfl
  | 2, _ => rw [show a + BitVec.ofNat 32 2 = a + 2 from rfl, h2]; rfl
  | 3, _ => rw [show a + BitVec.ofNat 32 3 = a + 3 from rfl, h3]; rfl

/-- Memory holds a longword all of whose bytes it holds. -/
theorem read4_of_isSome {m : Memory} {a : Word}
    (h : ∀ k < 4, (m.readByte (a + BitVec.ofNat 32 k).toNat).isSome = true) :
    ∃ v, m.read4 a = some v := by
  obtain ⟨b0, h0⟩ := Option.isSome_iff_exists.1 (h 0 (by decide))
  obtain ⟨b1, h1⟩ := Option.isSome_iff_exists.1 (h 1 (by decide))
  obtain ⟨b2, h2⟩ := Option.isSome_iff_exists.1 (h 2 (by decide))
  obtain ⟨b3, h3⟩ := Option.isSome_iff_exists.1 (h 3 (by decide))
  rw [show a + BitVec.ofNat 32 0 = a from BitVec.add_zero a] at h0
  exact ⟨b3 ++ b2 ++ b1 ++ b0, by
    rw [read4_eq, h0, show a + 1 = a + BitVec.ofNat 32 1 from rfl, h1,
      show a + 2 = a + BitVec.ofNat 32 2 from rfl, h2, show a + 3 = a + BitVec.ofNat 32 3 from rfl, h3]
    rfl⟩

/-- A byte of a quadword that memory maps has a value. -/
theorem isSome_of_maps {m : Memory} {a : Word} (h : m.maps a = true) :
    (m.readByte a.toNat).isSome = true := by
  simp only [Memory.maps, List.all_eq_true, List.mem_range] at h
  have := h (a.toNat % 8) (by omega)
  rwa [Nat.div_add_mod' a.toNat 8] at this

/-- Where a probe succeeds memory holds every byte (R47(d)). -/
theorem isSome_of_probe {m : Memory} {x : AccessMap} {k : AccessKind} {mode : AccessMode} {a : Word}
    {n : Nat} (h : x.probe m k mode a n = none) :
    ∀ i < n, (m.readByte (a + BitVec.ofNat 32 i).toNat).isSome = true := by
  induction n generalizing a with
  | zero => intro i hi; omega
  | succ n ih =>
    rw [AccessMap.probe] at h
    split at h
    · simp at h
    · rename_i hd
      have hm : m.maps a = true := by
        unfold AccessMap.denial at hd
        split at hd
        · simp at hd
        · split at hd
          · assumption
          · simp at hd
      intro i hi
      match i with
      | 0 => rw [show a + BitVec.ofNat 32 0 = a from BitVec.add_zero a]; exact isSome_of_maps hm
      | i + 1 =>
        have := ih h i (by omega)
        rwa [show a + 1 + BitVec.ofNat 32 i = a + BitVec.ofNat 32 (i + 1) by
          rw [Nat.add_comm i, BitVec.ofNat_add, BitVec.add_assoc]; rfl] at this

/-- Memory holds the longword that a probe of four bytes or more starts with. -/
theorem read4_of_probe {m : Memory} {x : AccessMap} {k : AccessKind} {mode : AccessMode} {a : Word}
    {n : Nat} (h : x.probe m k mode a n = none) (hn : 4 ≤ n) : ∃ v, m.read4 a = some v :=
  read4_of_isSome fun k hk => isSome_of_probe h k (by omega)

/-- Memory holds the second longword of a quadword that has been probed. -/
theorem read4_second_of_probe {m : Memory} {x : AccessMap} {k : AccessKind} {mode : AccessMode} {a : Word}
    (h : x.probe m k mode a 8 = none) : ∃ v, m.read4 (a + 4) = some v :=
  read4_of_isSome fun k hk => by
    have := isSome_of_probe h (k + 4) (by omega)
    rwa [show a + 4 + BitVec.ofNat 32 k = a + BitVec.ofNat 32 (k + 4) by
      rw [Nat.add_comm k, BitVec.ofNat_add, BitVec.add_assoc]; rfl]

end Sys2Proof.Machine
end

