-- ==== Sys2Proof/Laws/State.lean ====
section
/-! SUPPORT. One lemma per field per update of the state. -/

namespace Sys2Proof.Machine

/-! ## `setReg` -/

@[simp] theorem setReg_psl (s : State) (n : Reg) (v : Word) : (s.setReg n v).cpu.psl = s.cpu.psl := rfl
@[simp] theorem setReg_pending (s : State) (n : Reg) (v : Word) : (s.setReg n v).cpu.pending = s.cpu.pending := rfl
@[simp] theorem setReg_touched (s : State) (n : Reg) (v : Word) : (s.setReg n v).cpu.touched = s.cpu.touched := rfl
@[simp] theorem setReg_others (s : State) (n : Reg) (v : Word) : (s.setReg n v).others = s.others := rfl
@[simp] theorem setReg_turns (s : State) (n : Reg) (v : Word) : (s.setReg n v).turns = s.turns := rfl
@[simp] theorem setReg_mem (s : State) (n : Reg) (v : Word) : (s.setReg n v).mem = s.mem := rfl
@[simp] theorem setReg_params (s : State) (n : Reg) (v : Word) : (s.setReg n v).params = s.params := rfl
@[simp] theorem setReg_draws (s : State) (n : Reg) (v : Word) : (s.setReg n v).draws = s.draws := rfl

/-! ## `setPc` -/

@[simp] theorem setPc_psl (s : State) (v : Word) : (s.setPc v).cpu.psl = s.cpu.psl := rfl
@[simp] theorem setPc_pending (s : State) (v : Word) : (s.setPc v).cpu.pending = s.cpu.pending := rfl
@[simp] theorem setPc_touched (s : State) (v : Word) : (s.setPc v).cpu.touched = s.cpu.touched := rfl
@[simp] theorem setPc_others (s : State) (v : Word) : (s.setPc v).others = s.others := rfl
@[simp] theorem setPc_turns (s : State) (v : Word) : (s.setPc v).turns = s.turns := rfl
@[simp] theorem setPc_mem (s : State) (v : Word) : (s.setPc v).mem = s.mem := rfl
@[simp] theorem setPc_params (s : State) (v : Word) : (s.setPc v).params = s.params := rfl
@[simp] theorem setPc_draws (s : State) (v : Word) : (s.setPc v).draws = s.draws := rfl

/-! ## `advance` -/

@[simp] theorem advance_psl (s : State) (k : Nat) : (s.advance k).cpu.psl = s.cpu.psl := rfl
@[simp] theorem advance_pending (s : State) (k : Nat) : (s.advance k).cpu.pending = s.cpu.pending := rfl
@[simp] theorem advance_touched (s : State) (k : Nat) : (s.advance k).cpu.touched = s.cpu.touched := rfl
@[simp] theorem advance_others (s : State) (k : Nat) : (s.advance k).others = s.others := rfl
@[simp] theorem advance_turns (s : State) (k : Nat) : (s.advance k).turns = s.turns := rfl
@[simp] theorem advance_mem (s : State) (k : Nat) : (s.advance k).mem = s.mem := rfl
@[simp] theorem advance_params (s : State) (k : Nat) : (s.advance k).params = s.params := rfl
@[simp] theorem advance_draws (s : State) (k : Nat) : (s.advance k).draws = s.draws := rfl

/-! ## `setCC` -/

@[simp] theorem setCC_regs (s : State) (n z v c : Bool) : (s.setCC n z v c).cpu.regs = s.cpu.regs := rfl
@[simp] theorem setCC_pending (s : State) (n z v c : Bool) : (s.setCC n z v c).cpu.pending = s.cpu.pending := rfl
@[simp] theorem setCC_touched (s : State) (n z v c : Bool) : (s.setCC n z v c).cpu.touched = s.cpu.touched := rfl
@[simp] theorem setCC_others (s : State) (n z v c : Bool) : (s.setCC n z v c).others = s.others := rfl
@[simp] theorem setCC_turns (s : State) (n z v c : Bool) : (s.setCC n z v c).turns = s.turns := rfl
@[simp] theorem setCC_mem (s : State) (n z v c : Bool) : (s.setCC n z v c).mem = s.mem := rfl
@[simp] theorem setCC_params (s : State) (n z v c : Bool) : (s.setCC n z v c).params = s.params := rfl
@[simp] theorem setCC_draws (s : State) (n z v c : Bool) : (s.setCC n z v c).draws = s.draws := rfl

/-! ## `release` -/

@[simp] theorem release_regs (s : State) : (s.release).cpu.regs = s.cpu.regs := rfl
@[simp] theorem release_psl (s : State) : (s.release).cpu.psl = s.cpu.psl := rfl
@[simp] theorem release_touched (s : State) : (s.release).cpu.touched = s.cpu.touched := rfl
@[simp] theorem release_others (s : State) : (s.release).others = s.others := rfl
@[simp] theorem release_turns (s : State) : (s.release).turns = s.turns := rfl
@[simp] theorem release_mem (s : State) : (s.release).mem = s.mem := rfl
@[simp] theorem release_params (s : State) : (s.release).params = s.params := rfl
@[simp] theorem release_draws (s : State) : (s.release).draws = s.draws := rfl

@[simp] theorem release_pending (s : State) : s.release.cpu.pending = none := rfl

@[simp] theorem setCC_psl (s : State) (n z v c : Bool) :
    (s.setCC n z v c).cpu.psl = withCC s.cpu.psl n z v c := rfl

theorem release_of_pending_none {s : State} (h : s.cpu.pending = none) : s.release = s := by
  obtain ⟨⟨regs, psl, pending, touched⟩, others, turns, mem, params, draws⟩ := s
  subst h
  rfl

/-! ## Registers -/

@[simp] theorem setReg_reg_same (s : State) (n : Reg) (v : Word) : (s.setReg n v).reg n = v := by
  simp [State.setReg, State.reg]

theorem setReg_reg_ne (s : State) {n k : Reg} (v : Word) (h : k ≠ n) :
    (s.setReg n v).reg k = s.reg k := by
  have : n.val ≠ k.val := fun e => h (Fin.ext e.symm)
  simp [State.setReg, State.reg, this]

theorem setReg_reg (s : State) (n k : Reg) (v : Word) :
    (s.setReg n v).reg k = if k = n then v else s.reg k := by
  split
  · subst_vars; exact setReg_reg_same ..
  · exact setReg_reg_ne _ _ ‹_›

@[simp] theorem setPc_pc (s : State) (v : Word) : (s.setPc v).pc = v := setReg_reg_same ..

theorem setPc_reg_ne (s : State) {k : Reg} (v : Word) (h : k ≠ pcReg) : (s.setPc v).reg k = s.reg k :=
  setReg_reg_ne _ _ h

@[simp] theorem advance_pc (s : State) (k : Nat) : (s.advance k).pc = s.pc + BitVec.ofNat 32 k :=
  setPc_pc ..

theorem advance_reg_ne (s : State) {n : Reg} (k : Nat) (h : n ≠ pcReg) :
    (s.advance k).reg n = s.reg n := setPc_reg_ne _ _ h

theorem setReg_pc_ne (s : State) {n : Reg} (v : Word) (h : n ≠ pcReg) : (s.setReg n v).pc = s.pc :=
  setReg_reg_ne _ _ (Ne.symm h)

@[simp] theorem setCC_reg (s : State) (n z v c : Bool) (k : Reg) : (s.setCC n z v c).reg k = s.reg k := rfl

@[simp] theorem setCC_pc (s : State) (n z v c : Bool) : (s.setCC n z v c).pc = s.pc := rfl

@[simp] theorem release_reg (s : State) (k : Reg) : s.release.reg k = s.reg k := rfl

@[simp] theorem release_pc (s : State) : s.release.pc = s.pc := rfl

/-- Registers that read alike are equal. -/
theorem regs_ext {v w : Vector Word 16} (h : ∀ n : Reg, v[n] = w[n]) : v = w :=
  Vector.ext fun i hi => h ⟨i, hi⟩

/-! ## Condition codes -/

theorem withCC_getLsbD (psl : Word) (n z v c : Bool) (i : Nat) :
    (withCC psl n z v c).getLsbD i =
      if i = 0 then c else if i = 1 then v else if i = 2 then z else if i = 3 then n
      else psl.getLsbD i := by
  simp only [withCC, BitVec.getLsbD_append, BitVec.getLsbD_extractLsb']
  rcases i with - | - | - | - | i
  · simp
  · simp
  · simp
  · simp
  · by_cases hi : i < 28
    · simp [hi, Nat.add_comm 4 i]
    · simp [hi, BitVec.getLsbD_of_ge psl (i + 1 + 1 + 1 + 1) (by omega)]

@[simp] theorem setCC_ccN (s : State) (n z v c : Bool) : (s.setCC n z v c).ccN = n := by
  rw [State.ccN, setCC_psl, withCC_getLsbD]; rfl

@[simp] theorem setCC_ccZ (s : State) (n z v c : Bool) : (s.setCC n z v c).ccZ = z := by
  rw [State.ccZ, setCC_psl, withCC_getLsbD]; rfl

@[simp] theorem setCC_ccV (s : State) (n z v c : Bool) : (s.setCC n z v c).ccV = v := by
  rw [State.ccV, setCC_psl, withCC_getLsbD]; rfl

@[simp] theorem setCC_ccC (s : State) (n z v c : Bool) : (s.setCC n z v c).ccC = c := by
  rw [State.ccC, setCC_psl, withCC_getLsbD]; rfl

/-- The condition codes are the low four bits; every other bit of the PSL is kept (R21). -/
theorem withCC_high (psl : Word) (n z v c : Bool) : field (withCC psl n z v c) 4 28 = field psl 4 28 := by
  have e : (withCC psl n z v c).extractLsb' 4 28 = psl.extractLsb' 4 28 := by
    apply BitVec.eq_of_getLsbD_eq
    intro i hi
    have h1 : ¬ 4 + i = 1 := by omega
    have h2 : ¬ 4 + i = 2 := by omega
    have h3 : ¬ 4 + i = 3 := by omega
    simp [withCC_getLsbD, h1, h2, h3]
  have := congrArg BitVec.toNat e
  simpa [BitVec.extractLsb'_toNat, field, Nat.shiftRight_eq_div_pow] using this

end Sys2Proof.Machine
end

