-- ==== Sys2Proof/Laws/Ops.lean ====
section
/-! SUPPORT. What the shared operations of Machine/Ops.lean can do, one lemma each. -/

namespace Sys2Proof.Machine

/-! ## Computations -/

theorem bind_ok {α β : Type} {x : Res α} {f : α → Res β} {b : β} :
    (x >>= f) = .ok b ↔ ∃ a, x = .ok a ∧ f a = .ok b := by
  cases x <;> simp [bind, Except.bind]

theorem bind_error {α β : Type} {x : Res α} {f : α → Res β} {e : Stop} :
    (x >>= f) = .error e ↔ x = .error e ∨ ∃ a, x = .ok a ∧ f a = .error e := by
  cases x <;> simp [bind, Except.bind]

@[simp] theorem ok_bind {α β : Type} (a : α) (f : α → Res β) : ((.ok a : Res α) >>= f) = f a := rfl

@[simp] theorem error_bind {α β : Type} (e : Stop) (f : α → Res β) :
    ((.error e : Res α) >>= f) = .error e := rfl

/-- What the checks can do: go on, or stop for one reason. -/
theorem require_ok {test : Bool} {r : Refusal} {u : Unit} : require test r = .ok u ↔ test = true := by
  cases test <;> simp [require]

theorem require_error {test : Bool} {r : Refusal} {e : Stop} :
    require test r = .error e ↔ test = false ∧ e = .refuse r := by
  cases test <;> simp [require, eq_comm]

theorem unlessRaise_ok {test : Bool} {x : Exception} {u : Unit} :
    unlessRaise test x = .ok u ↔ test = true := by
  cases test <;> simp [unlessRaise]

theorem unlessRaise_error {test : Bool} {x : Exception} {e : Stop} :
    unlessRaise test x = .error e ↔ test = false ∧ e = .raise x := by
  cases test <;> simp [unlessRaise, eq_comm]

theorem demand_ok {s : State} {a : Word} {n : Nat} {k : AccessKind} {u : Unit} :
    s.demand a n k = .ok u ↔ s.probe a n k = none := by
  simp only [State.demand]; split <;> simp_all

theorem demand_error {s : State} {a : Word} {n : Nat} {k : AccessKind} {e : Stop} :
    s.demand a n k = .error e ↔ ∃ x, s.probe a n k = some x ∧ e = .raise x := by
  unfold State.demand
  rcases s.probe a n k with - | x <;> simp [eq_comm]

theorem raiseAny_ok {s : State} {E F : List Exception} {u : Unit} :
    s.raiseAny E F = .ok u ↔ E = [] := by
  cases E <;> simp [State.raiseAny]

@[simp] theorem raiseAny_nil (s : State) (F : List Exception) : s.raiseAny [] F = .ok () := rfl

/-- The exception chosen is one of the conditions (R188). -/
theorem choose_mem (s : State) (e : Exception) (rest : List Exception) : s.choose e rest ∈ e :: rest := by
  unfold State.choose
  split
  · simp
  · rw [List.getD_eq_getElem?_getD]
    rcases h : (e :: _)[_]? with - | x
    · simp
    · simpa using List.mem_of_getElem? h

/-- An exception is raised when one of the first conditions holds, and it is one of all (R188, D8). -/
theorem raiseAny_error {s : State} {E F : List Exception} {e : Stop} (h : s.raiseAny E F = .error e) :
    E ≠ [] ∧ ∃ x ∈ E ++ F, e = .raise x := by
  cases E with
  | nil => simp [State.raiseAny] at h
  | cons x rest =>
    exact ⟨by simp, _, choose_mem s x (rest ++ F), by simpa [State.raiseAny, eq_comm] using h⟩

theorem raiseAny_of_ne_nil {s : State} {E : List Exception} (h : E ≠ []) (F : List Exception) :
    ∃ x ∈ E ++ F, s.raiseAny E F = .error (.raise x) := by
  cases E with
  | nil => simp at h
  | cons x rest => exact ⟨_, choose_mem s x (rest ++ F), rfl⟩

@[simp] theorem addCondition_none (E : List Exception) : addCondition none E = E := rfl

theorem addCondition_eq_nil {e : Option Exception} {E : List Exception} :
    addCondition e E = [] ↔ e = none ∧ E = [] := by
  cases e with
  | none => simp [addCondition]
  | some e =>
    by_cases h : e ∈ E
    · simp [addCondition, h]; rintro rfl; simp at h
    · simp [addCondition, h]

theorem mem_addCondition {e : Option Exception} {E : List Exception} {x : Exception} :
    x ∈ addCondition e E ↔ e = some x ∨ x ∈ E := by
  cases e with
  | none => simp [addCondition]
  | some e =>
    by_cases h : e ∈ E
    · simp only [addCondition, h, if_true, Option.some.injEq]
      exact ⟨.inr, fun h' => h'.elim (· ▸ h) id⟩
    · simp [addCondition, h, eq_comm]

theorem conditionIf_eq_none {test : Bool} {e : Exception} : conditionIf test e = none ↔ test = false := by
  cases test <;> simp [conditionIf]

theorem conditionIf_eq_some {test : Bool} {e x : Exception} :
    conditionIf test e = some x ↔ test = true ∧ e = x := by
  cases test <;> simp [conditionIf]

/-! ## Loads and stores -/

/-- `t` is `s` but for the record of accesses. -/
def OnlyTouched (s t : State) : Prop :=
  t = { s with cpu := { s.cpu with touched := t.cpu.touched } }

theorem touch_ok {s t : State} {x : Touch} (h : s.touch x = .ok t) :
    t = s ∧ s.alone = true ∨
      s.alone = false ∧ (∀ c ∈ s.others, ∀ y ∈ c.touched, x.races y = false) ∧
        t = { s with cpu := { s.cpu with touched := x :: s.cpu.touched } } := by
  unfold State.touch at h
  split at h
  · exact .inl ⟨by simpa [eq_comm] using h, ‹_›⟩
  · split at h
    · simp at h
    · rename_i h1 h2
      refine .inr ⟨by simpa using h1, fun c hc y hy => ?_, by simpa [eq_comm] using h⟩
      simp only [List.any_eq_true, not_exists, not_and, Bool.not_eq_true] at h2
      exact h2 c hc y hy

theorem touch_error {s : State} {x : Touch} {e : Stop} (h : s.touch x = .error e) :
    e = .refuse (.race x.addr) := by
  unfold State.touch at h
  split at h
  · simp at h
  · split at h <;> simp_all

@[simp] theorem touch_alone {s : State} (h : s.alone = true) (x : Touch) : s.touch x = .ok s := by
  simp [State.touch, h]

/-- Everything a load that answers can do. -/
theorem load_ok {s t : State} {via : Option Word} {a v : Word} (h : s.load via a = .ok (v, t)) :
    s.mem.read4 a = some v ∧ s.touch { addr := a, via } = .ok t := by
  simp only [State.load, bind_ok] at h
  obtain ⟨u, hu, h⟩ := h
  have hm : u.mem = s.mem := by
    rcases touch_ok hu with ⟨rfl, -⟩ | ⟨-, -, rfl⟩ <;> rfl
  split at h
  · simp only [Except.ok.injEq, Prod.mk.injEq] at h
    obtain ⟨rfl, rfl⟩ := h
    exact ⟨hm ▸ ‹_›, hu⟩
  · simp at h

/-- Everything a store that answers can do. -/
theorem store_ok {s t : State} {via : Option Word} {a v : Word} (h : s.store via a v = .ok t) :
    s.inText a 4 = false ∧ ∃ u, s.touch { addr := a, via } = .ok u ∧
      t = { u with mem := s.mem.write4 a v } := by
  simp only [State.store, bind_ok, require_ok] at h
  obtain ⟨-, h1, u, hu, h⟩ := h
  have hm : u.mem = s.mem := by
    rcases touch_ok hu with ⟨rfl, -⟩ | ⟨-, -, rfl⟩ <;> rfl
  exact ⟨by simpa using h1, u, hu, by simpa [eq_comm, hm] using h⟩

theorem load_alone {s : State} (h : s.alone = true) (via : Option Word) {a v : Word}
    (hr : s.mem.read4 a = some v) : s.load via a = .ok (v, s) := by
  simp [State.load, h, hr]

theorem store_alone {s : State} (h : s.alone = true) (via : Option Word) {a : Word} (v : Word)
    (ht : s.inText a 4 = false) : s.store via a v = .ok { s with mem := s.mem.write4 a v } := by
  simp [State.store, h, ht, require]

/-- A load never raises an exception of the machine. -/
theorem load_error {s : State} {via : Option Word} {a : Word} {e : Stop}
    (h : s.load via a = .error e) : ∀ x, e ≠ .raise x := by
  simp only [State.load, bind_error] at h
  rcases h with h | ⟨u, -, h⟩
  · simp [touch_error h]
  · split at h <;> simp_all
    simp [← h]

/-- A store never raises an exception of the machine. -/
theorem store_error {s : State} {via : Option Word} {a v : Word} {e : Stop}
    (h : s.store via a v = .error e) : ∀ x, e ≠ .raise x := by
  simp only [State.store, bind_error, require_error] at h
  rcases h with ⟨-, rfl⟩ | ⟨u, -, h | ⟨w, -, h⟩⟩
  · simp
  · simp [touch_error h]
  · simp at h

theorem writeDest_error {s : State} {d : Dest} {v : Word} {e : Stop}
    (h : s.writeDest d v = .error e) : ∀ x, e ≠ .raise x := by
  cases d with
  | reg n => simp [State.writeDest] at h
  | mem a => exact store_error h

/-! ## What a computation inside an instruction can change -/

/-- Everything the steps of an instruction can do to the state, where the accesses of its queue operation are
made through the header `h` (`none`: not an interlocked instruction): parameters, other processors and
schedule stand, memory keeps its form, program text and every interlock another processor has on record
are left alone, and of the PSL only the condition codes change. -/
structure Follows (h : Option Word) (s t : State) : Prop where
  params : t.params = s.params
  others : t.others = s.others
  turns : t.turns = s.turns
  wf : s.mem.wf = true → t.mem.wf = true
  text : ∀ a : Word, s.inText a 1 = true → t.mem.readByte a.toNat = s.mem.readByte a.toNat
  psl : field t.cpu.psl 4 28 = field s.cpu.psl 4 28
  locks : ∀ c ∈ s.others, ∀ H : Word, h ≠ some H →
    ({ addr := H, via := some H } : Touch) ∈ c.touched → t.mem.read4 H = s.mem.read4 H
  touched : ∀ x ∈ s.cpu.touched, x ∈ t.cpu.touched

theorem Follows.refl (h : Option Word) (s : State) : Follows h s s :=
  ⟨rfl, rfl, rfl, id, fun _ _ => rfl, rfl, fun _ _ _ _ _ => rfl, fun _ => id⟩

theorem Follows.trans {h : Option Word} {s t u : State} (a : Follows h s t) (b : Follows h t u) :
    Follows h s u where
  params := b.params.trans a.params
  others := b.others.trans a.others
  turns := b.turns.trans a.turns
  wf w := b.wf (a.wf w)
  text x hx := (b.text x (by simpa [State.inText, a.params] using hx)).trans (a.text x hx)
  psl := b.psl.trans a.psl
  locks c hc H hH hm := (b.locks c (a.others ▸ hc) H hH hm).trans (a.locks c hc H hH hm)
  touched x hx := b.touched x (a.touched x hx)

theorem Follows.alone {h : Option Word} {s t : State} (a : Follows h s t) : t.alone = s.alone := by
  simp [State.alone, a.others]

theorem Follows.inText {h : Option Word} {s t : State} (a : Follows h s t) (x : Word) (n : Nat) :
    t.inText x n = s.inText x n := by
  simp [State.inText, a.params]

/-- A change of registers, condition codes, the half done instruction and the draws only. -/
theorem follows_of_eq {h : Option Word} {s t : State} (hp : t.params = s.params)
    (ho : t.others = s.others) (ht : t.turns = s.turns) (hm : t.mem = s.mem)
    (hs : field t.cpu.psl 4 28 = field s.cpu.psl 4 28) (hx : t.cpu.touched = s.cpu.touched) :
    Follows h s t :=
  ⟨hp, ho, ht, fun w => hm ▸ w, fun _ _ => by rw [hm], hs, fun _ _ _ _ _ => by rw [hm],
    fun _ h => hx ▸ h⟩

theorem follows_setReg (h : Option Word) (s : State) (n : Reg) (v : Word) : Follows h s (s.setReg n v) :=
  follows_of_eq rfl rfl rfl rfl rfl rfl

theorem follows_advance (h : Option Word) (s : State) (n : Nat) : Follows h s (s.advance n) :=
  follows_of_eq rfl rfl rfl rfl rfl rfl

theorem follows_release (h : Option Word) (s : State) : Follows h s s.release :=
  follows_of_eq rfl rfl rfl rfl rfl rfl

theorem follows_setCC (h : Option Word) (s : State) (n z v c : Bool) : Follows h s (s.setCC n z v c) :=
  follows_of_eq rfl rfl rfl rfl (withCC_high ..) rfl

theorem follows_touch {h : Option Word} {s t : State} {x : Touch} (e : s.touch x = .ok t) :
    Follows h s t := by
  rcases touch_ok e with ⟨rfl, -⟩ | ⟨-, -, rfl⟩
  · exact .refl ..
  · exact ⟨rfl, rfl, rfl, id, fun _ _ => rfl, rfl, fun _ _ _ _ _ => rfl,
      fun _ => List.mem_cons_of_mem _⟩

theorem touch_mem {s t : State} {x : Touch} (e : s.touch x = .ok t) : t.mem = s.mem := by
  rcases touch_ok e with ⟨rfl, -⟩ | ⟨-, -, rfl⟩ <;> rfl

theorem follows_load {h via : Option Word} {s t : State} {a v : Word}
    (e : s.load via a = .ok (v, t)) : Follows h s t :=
  follows_touch (load_ok e).2

/-- A longword that overlaps no text range holds no byte of program text. -/
theorem inText_of_inRange {s : State} {a b : Word} (h : s.inText b 1 = true) (hb : InRange b a 4) :
    s.inText a 4 = true := by
  simp only [State.inText, List.any_eq_true] at h ⊢
  obtain ⟨r, hr, h⟩ := h
  refine ⟨r, hr, ?_⟩
  simp only [overlaps, Bool.or_eq_true, Bool.and_eq_true, decide_eq_true_eq] at h ⊢
  simp only [InRange] at hb
  by_cases h1 : (r.base - a).toNat < 4
  · rcases h with ⟨-, h⟩ | ⟨h, -⟩
    · exact .inl ⟨h1, h⟩
    · exact .inl ⟨h1, by omega⟩
  · rcases h with ⟨h, h0⟩ | ⟨h, -⟩
    · exfalso; bv_omega
    · exact .inr ⟨by bv_omega, by omega⟩

theorem follows_store {h via : Option Word} {s t : State} {a v : Word} (hv : via = none ∨ via = h)
    (e : s.store via a v = .ok t) : Follows h s t := by
  obtain ⟨h1, u, hu, rfl⟩ := store_ok e
  have f : Follows h s u := follows_touch hu
  have hm : u.mem = s.mem := touch_mem hu
  refine ⟨f.params, f.others, f.turns, fun w => write4_wf _ _ w, fun b hb => ?_, f.psl,
    fun c hc H hH hx => ?_, f.touched⟩
  · rw [readByte_write4, if_neg]
    intro hr
    rw [inText_of_inRange hb hr] at h1
    simp at h1
  · rcases touch_ok hu with ⟨rfl, ha⟩ | ⟨-, hn, rfl⟩
    · simp only [State.alone, List.isEmpty_iff] at ha
      simp [ha] at hc
    · have := hn c hc _ hx
      refine read4_write4_apart _ _ ?_
      have hvia : via ≠ some H := by
        rcases hv with rfl | rfl
        · simp
        · exact hH
      by_contra ho
      simp only [Bool.not_eq_false] at ho
      simp [Touch.races, ho, hvia] at this

theorem follows_writeDest {h : Option Word} {s t : State} {d : Dest} {v : Word}
    (e : s.writeDest d v = .ok t) : Follows h s t := by
  cases d with
  | reg n =>
    simp only [State.writeDest, Except.ok.injEq] at e
    exact e ▸ follows_setReg ..
  | mem a => exact follows_store (.inl rfl) e

end Sys2Proof.Machine
end

