-- ==== Sys2Proof/Laws/Operands.lean ====
section
/-! SUPPORT. What evaluating an operand specifier can do (spec/30_encoding.md R77): the register it steps,
the program counter, and nothing else but the record of its pointer read. -/

namespace Sys2Proof.Machine

/-- Operand evaluation consumes the bytes the encoder gives (R78). -/
theorem encodeBase_length_eq (b : BaseSpec) : (encodeBase b).length = baseLength b := by
  cases b <;> simp [encodeBase, baseLength, bytes16, bytes32, Nat.add_comm]

theorem encodeSpecifier_length_eq (sp : Specifier) :
    (encodeSpecifier sp).length = specifierLength sp := by
  cases sp <;> simp [encodeSpecifier, specifierLength, encodeBase_length_eq, Nat.add_comm]

/-- Everything operand evaluation can change: the stepped registers and the program counter; `by` is how
far the program counter goes. -/
structure Evaluates (steps : List Reg) (len : Nat) (s t : State) : Prop where
  follows : ∀ h, Follows h s t
  mem : t.mem = s.mem
  psl : t.cpu.psl = s.cpu.psl
  pending : t.cpu.pending = s.cpu.pending
  draws : t.draws = s.draws
  pc : pcReg ∉ steps → t.pc = s.pc + BitVec.ofNat 32 len
  regs : ∀ n, n ≠ pcReg → n ∉ steps → t.reg n = s.reg n
  alone : s.alone = true → t.cpu.touched = s.cpu.touched

theorem Evaluates.trans {l l' : List Reg} {a b : Nat} {s t u : State} (x : Evaluates l a s t)
    (y : Evaluates l' b t u) : Evaluates (l ++ l') (a + b) s u where
  follows h := (x.follows h).trans (y.follows h)
  mem := y.mem.trans x.mem
  psl := y.psl.trans x.psl
  pending := y.pending.trans x.pending
  draws := y.draws.trans x.draws
  pc hn := by
    simp only [List.mem_append, not_or] at hn
    rw [y.pc hn.2, x.pc hn.1, BitVec.add_assoc, ← BitVec.ofNat_add]
  regs n h0 hn := by
    simp only [List.mem_append, not_or] at hn
    rw [y.regs n h0 hn.2, x.regs n h0 hn.1]
  alone ha := (y.alone (by rw [(x.follows none).alone, ha])).trans (x.alone ha)

theorem evaluates_advance (s : State) (k : Nat) : Evaluates [] k s (s.advance k) where
  follows _ := follows_advance ..
  mem := rfl
  psl := rfl
  pending := rfl
  draws := rfl
  pc _ := advance_pc ..
  regs _ h _ := advance_reg_ne _ _ h
  alone _ := rfl

theorem evaluates_setReg (s : State) (n : Reg) (v : Word) : Evaluates [n] 0 s (s.setReg n v) where
  follows _ := follows_setReg ..
  mem := rfl
  psl := rfl
  pending := rfl
  draws := rfl
  pc hn := by
    rw [setReg_pc_ne _ _ (by rintro rfl; simp at hn)]
    simp
  regs k _ hk := setReg_reg_ne _ _ (by simpa using hk)
  alone _ := rfl

/-- A pointer read answers the longword there, its probe having succeeded. -/
theorem pointer_ok {s t : State} {p v : Word} (e : s.pointer p = .ok (v, t)) :
    s.probe p 4 .read = none ∧ s.mem.read4 p = some v ∧ Evaluates [] 0 s t := by
  simp only [State.pointer, bind_ok, demand_ok] at e
  obtain ⟨-, hp, e⟩ := e
  obtain ⟨hr, hu⟩ := load_ok e
  refine ⟨hp, hr, ?_⟩
  rcases touch_ok hu with ⟨rfl, -⟩ | ⟨hn, -, rfl⟩
  · exact ⟨fun _ => .refl .., rfl, rfl, rfl, rfl, fun _ => by simp, fun _ _ _ => rfl, fun _ => rfl⟩
  · exact ⟨fun _ => follows_touch hu, rfl, rfl, rfl, rfl, fun _ => by simp [State.pc, State.reg],
      fun _ _ _ => rfl, fun h => by simp [h] at hn⟩

theorem notPc_ok {n : Reg} {u : Unit} : notPc n = .ok u ↔ n ≠ pcReg := by
  simp [notPc, require_ok]

/-- Everything a base specifier that answers can do. -/
theorem baseAddress_ok {size : Nat} {b : BaseSpec} {s t : State} {a : Word}
    (e : baseAddress size b s = .ok (a, t)) :
    Evaluates (baseSteps b).toList (baseLength b) s t ∧ baseSteps b ≠ some pcReg := by
  have step1 := evaluates_advance s (baseLength b)
  cases b <;> simp only [baseAddress, bind_ok, notPc_ok, reduceCtorEq, and_false, exists_false,
    exists_const] at e
  case deferred n =>
    simp only [Except.ok.injEq, Prod.mk.injEq] at e
    exact ⟨e.2.2 ▸ step1, by simp [baseSteps]⟩
  case autodec n =>
    simp only [Except.ok.injEq, Prod.mk.injEq] at e
    obtain ⟨hn, -, rfl⟩ := e
    exact ⟨step1.trans (evaluates_setReg ..), by simpa [baseSteps] using hn⟩
  case autoinc n =>
    simp only [Except.ok.injEq, Prod.mk.injEq] at e
    obtain ⟨hn, -, rfl⟩ := e
    exact ⟨step1.trans (evaluates_setReg ..), by simpa [baseSteps] using hn⟩
  case autoincDeferred n =>
    obtain ⟨hn, ⟨v, u⟩, hu, e⟩ := e
    simp only [Except.ok.injEq, Prod.mk.injEq] at e
    obtain ⟨-, rfl⟩ := e
    exact ⟨(step1.trans (pointer_ok hu).2.2).trans (evaluates_setReg ..),
      by simpa [baseSteps] using hn⟩
  case absolute w =>
    simp only [Except.ok.injEq, Prod.mk.injEq] at e
    exact ⟨e.2 ▸ step1, by simp [baseSteps]⟩
  case byteDisp n d =>
    simp only [Except.ok.injEq, Prod.mk.injEq] at e
    exact ⟨e.2 ▸ step1, by simp [baseSteps]⟩
  case wordDisp n d =>
    simp only [Except.ok.injEq, Prod.mk.injEq] at e
    exact ⟨e.2 ▸ step1, by simp [baseSteps]⟩
  case longDisp n d =>
    simp only [Except.ok.injEq, Prod.mk.injEq] at e
    exact ⟨e.2 ▸ step1, by simp [baseSteps]⟩
  case byteDispDeferred n d => exact ⟨step1.trans (pointer_ok e).2.2, by simp [baseSteps]⟩
  case wordDispDeferred n d => exact ⟨step1.trans (pointer_ok e).2.2, by simp [baseSteps]⟩
  case longDispDeferred n d => exact ⟨step1.trans (pointer_ok e).2.2, by simp [baseSteps]⟩

/-- Everything an address operand that answers can do. -/
theorem evalAddress_ok {dt : DataType} {sp : Specifier} {s t : State} {a : Word}
    (e : evalAddress dt sp s = .ok (a, t)) :
    Evaluates (specifierSteps sp).toList (specifierLength sp) s t ∧ specifierSteps sp ≠ some pcReg := by
  cases sp with
  | plain b => exact baseAddress_ok e
  | indexed x b =>
    simp only [evalAddress, bind_ok] at e
    obtain ⟨-, -, -, -, ⟨v, u⟩, hu, e⟩ := e
    simp only [Except.ok.injEq, Prod.mk.injEq] at e
    obtain ⟨-, rfl⟩ := e
    have := baseAddress_ok hu
    exact ⟨(evaluates_advance s 1).trans this.1, this.2⟩

/-- Everything a write operand that answers can do. -/
theorem evalDest_ok {sp : Specifier} {s t : State} {d : Dest} (e : evalDest sp s = .ok (d, t)) :
    Evaluates (specifierSteps sp).toList (specifierLength sp) s t ∧ specifierSteps sp ≠ some pcReg ∧
      d ≠ .reg pcReg := by
  have other : ∀ {a : Word}, evalAddress .long sp s = .ok (a, t) → d = .mem a →
      Evaluates (specifierSteps sp).toList (specifierLength sp) s t ∧
        specifierSteps sp ≠ some pcReg ∧ d ≠ .reg pcReg := by
    intro a h1 h2
    exact ⟨(evalAddress_ok h1).1, (evalAddress_ok h1).2, by simp [h2]⟩
  unfold evalDest at e
  split at e
  · simp only [bind_ok, notPc_ok, Except.ok.injEq, Prod.mk.injEq, exists_const] at e
    obtain ⟨hn, rfl, rfl⟩ := e
    exact ⟨evaluates_advance .., by simp [specifierSteps, baseSteps], by simpa using hn⟩
  · simp at e
  · simp only [bind_ok] at e
    obtain ⟨⟨v, u⟩, hu, e⟩ := e
    simp only [Except.ok.injEq, Prod.mk.injEq] at e
    obtain ⟨rfl, rfl⟩ := e
    exact other hu rfl

/-- A register destination comes from register mode. -/
theorem evalDest_reg {sp : Specifier} {s t : State} {n : Reg} (e : evalDest sp s = .ok (.reg n, t)) :
    sp = .plain (.register n) := by
  unfold evalDest at e
  split at e
  · simp only [bind_ok, Except.ok.injEq, Prod.mk.injEq, Dest.reg.injEq] at e
    obtain ⟨-, -, rfl, -⟩ := e
    rfl
  · simp at e
  · simp [bind_ok] at e

/-- Everything the operands of an insertion can do. -/
theorem evalInsertion_ok {dt : DataType} {entry target : Specifier} {s t : State} {e h : Word}
    (hx : evalInsertion dt entry target s = .ok (e, h, t)) :
    Evaluates ((specifierSteps entry).toList ++ (specifierSteps target).toList)
        (1 + specifierLength entry + specifierLength target) s t ∧
      specifierSteps entry ≠ some pcReg ∧ specifierSteps target ≠ some pcReg := by
  simp only [evalInsertion, bind_ok] at hx
  obtain ⟨⟨v, u⟩, hu, ⟨w, x⟩, hw, hx⟩ := hx
  simp only [Except.ok.injEq, Prod.mk.injEq] at hx
  obtain ⟨rfl, rfl, rfl⟩ := hx
  have a := evalAddress_ok hu
  have b := evalAddress_ok hw
  exact ⟨((evaluates_advance s 1).trans a.1).trans b.1, a.2, b.2⟩

/-- Everything the operands of a removal can do. -/
theorem evalRemoval_ok {dt : DataType} {source addr : Specifier} {s t : State} {a : Word} {d : Dest}
    (hx : evalRemoval dt source addr s = .ok (a, d, t)) :
    Evaluates ((specifierSteps source).toList ++ (specifierSteps addr).toList)
        (1 + specifierLength source + specifierLength addr) s t ∧
      specifierSteps source ≠ some pcReg ∧ specifierSteps addr ≠ some pcReg ∧ d ≠ .reg pcReg ∧
      ∀ n, d = .reg n → addr = .plain (.register n) := by
  simp only [evalRemoval, bind_ok] at hx
  obtain ⟨⟨v, u⟩, hu, ⟨w, x⟩, hw, hx⟩ := hx
  simp only [Except.ok.injEq, Prod.mk.injEq] at hx
  obtain ⟨rfl, rfl, rfl⟩ := hx
  have p := evalAddress_ok hu
  have q := evalDest_ok hw
  exact ⟨((evaluates_advance s 1).trans p.1).trans q.1, p.2, q.2.1, q.2.2, fun n hn =>
    evalDest_reg (hn ▸ hw)⟩

end Sys2Proof.Machine
end

