-- ==== Sys2Proof/Laws/Queue.lean ====
section
/-! SUPPORT. What the shared phases of the queue instructions can do, one lemma each
(spec/40_queue_common.md R106, R107, R109). -/

namespace Sys2Proof.Machine

/-! ## Runs of loads and stores -/

/-- Everything loads and stores can do to the state besides memory and the record of accesses: nothing. -/
structure Accesses (h : Option Word) (s t : State) : Prop where
  follows : Follows h s t
  regs : t.cpu.regs = s.cpu.regs
  psl : t.cpu.psl = s.cpu.psl
  pending : t.cpu.pending = s.cpu.pending
  draws : t.draws = s.draws
  touched : s.alone = true → t.cpu.touched = s.cpu.touched

theorem Accesses.refl (h : Option Word) (s : State) : Accesses h s s :=
  ⟨.refl .., rfl, rfl, rfl, rfl, fun _ => rfl⟩

theorem Accesses.trans {h : Option Word} {s t u : State} (a : Accesses h s t) (b : Accesses h t u) :
    Accesses h s u :=
  ⟨a.follows.trans b.follows, b.regs.trans a.regs, b.psl.trans a.psl, b.pending.trans a.pending,
    b.draws.trans a.draws, fun ha => (b.touched (by rw [a.follows.alone, ha])).trans (a.touched ha)⟩

/-- A processor that is alone changes memory only. -/
theorem Accesses.eq_of_alone {h : Option Word} {s t : State} (a : Accesses h s t)
    (ha : s.alone = true) : t = { s with mem := t.mem } := by
  obtain ⟨⟨regs, psl, pending, touched⟩, others, turns, mem, params, draws⟩ := t
  obtain ⟨f, h1, h2, h3, h4, h5⟩ := a
  obtain ⟨g1, g2, g3, -⟩ := f
  simp only at *
  obtain rfl := h1
  obtain rfl := h2
  obtain rfl := h3
  obtain rfl := h4
  obtain rfl := h5 ha
  subst g1 g2 g3
  rfl

theorem Accesses.reg {h : Option Word} {s t : State} (a : Accesses h s t) (n : Reg) :
    t.reg n = s.reg n := by
  simp only [State.reg, a.regs]

theorem accesses_touch {h : Option Word} {s t : State} {x : Touch} (e : s.touch x = .ok t) :
    Accesses h s t := by
  have f : Follows h s t := follows_touch e
  rcases touch_ok e with ⟨rfl, -⟩ | ⟨hn, -, rfl⟩
  · exact .refl ..
  · exact ⟨f, rfl, rfl, rfl, rfl, fun ha => by simp [ha] at hn⟩

theorem accesses_load {h via : Option Word} {s t : State} {a v : Word}
    (e : s.load via a = .ok (v, t)) : Accesses h s t := accesses_touch (load_ok e).2

theorem load_mem {via : Option Word} {s t : State} {a v : Word} (e : s.load via a = .ok (v, t)) :
    t.mem = s.mem := touch_mem (load_ok e).2

theorem store_mem {via : Option Word} {s t : State} {a v : Word} (e : s.store via a v = .ok t) :
    t.mem = s.mem.write4 a v := by
  obtain ⟨-, u, -, rfl⟩ := store_ok e
  rfl

theorem accesses_store {h via : Option Word} {s t : State} {a v : Word} (hv : via = none ∨ via = h)
    (e : s.store via a v = .ok t) : Accesses h s t := by
  have f := follows_store hv e
  obtain ⟨-, u, hu, rfl⟩ := store_ok e
  have := accesses_touch (h := h) hu
  exact ⟨f, this.regs, this.psl, this.pending, this.draws, this.touched⟩

/-- Everything writing a destination can do. -/
theorem writeDest_ok {s t : State} {d : Dest} {v : Word} (e : s.writeDest d v = .ok t) :
    (∃ n, d = .reg n ∧ t = s.setReg n v) ∨ (∃ a, d = .mem a ∧ s.store none a v = .ok t) := by
  cases d with
  | reg n => exact .inl ⟨n, rfl, by simpa [State.writeDest, eq_comm] using e⟩
  | mem a => exact .inr ⟨a, rfl, e⟩

/-- What a run of accesses that ends by writing a destination and setting the codes can do. -/
structure Writes (h : Option Word) (d : Dest) (s t : State) : Prop where
  follows : Follows h s t
  regs : ∀ n, d ≠ .reg n → t.reg n = s.reg n
  pending : t.cpu.pending = s.cpu.pending
  draws : t.draws = s.draws
  touched : s.alone = true → t.cpu.touched = s.cpu.touched

theorem writes_of {h : Option Word} {d : Dest} {s t u : State} {v : Word} {cn cz cv cc : Bool}
    (a : Accesses h s t) (e : t.writeDest d v = .ok u) : Writes h d s (u.setCC cn cz cv cc) := by
  rcases writeDest_ok e with ⟨n, rfl, rfl⟩ | ⟨x, rfl, e'⟩
  · refine ⟨(a.follows.trans (follows_setReg ..)).trans (follows_setCC ..), fun k hk => ?_,
      a.pending, a.draws, a.touched⟩
    rw [setCC_reg, setReg_reg_ne _ _ (fun h => hk (by rw [h])), a.reg]
  · have b := a.trans (accesses_store (.inl rfl) e')
    exact ⟨b.follows.trans (follows_setCC ..), fun k _ => b.reg k,
      b.pending, b.draws, b.touched⟩

/-! ## Link checks -/

/-- The condition of an alignment check. -/
theorem unless_aligned {test : Bool} {x : Exception} :
    conditionIf (!test) .reservedOperand = some x ↔ x = .reservedOperand ∧ test = false := by
  rw [conditionIf_eq_some, Bool.not_eq_true', eq_comm (a := Exception.reservedOperand), and_comm]

theorem mem_linkConditions {s : State} {l a : Word} {x : Exception} :
    x ∈ s.linkConditions l a ↔ FollowCondition s l a x := by
  simp only [State.linkConditions, mem_addCondition, unless_aligned, FollowCondition, List.not_mem_nil,
    or_false]

theorem linkConditions_eq_nil {s : State} {l a : Word} :
    s.linkConditions l a = [] ↔ aligned8 l = true ∧ s.probe a 4 .write = none := by
  simp [State.linkConditions, addCondition_eq_nil, conditionIf_eq_none]

theorem mem_insqhiLinks {s : State} {a b : Specifier} {h f : Word} {x : Exception} :
    x ∈ s.insqhiLinks h f ↔ LinkCondition (.insqhi a b) s h f x := by
  simp [State.insqhiLinks, mem_addCondition, LinkCondition]

theorem insqhiLinks_eq_nil {s : State} {h f : Word} :
    s.insqhiLinks h f = [] ↔ s.probe (h + f + 4) 4 .write = none := by
  simp [State.insqhiLinks, addCondition_eq_nil]

theorem mem_insqtiLinks {s : State} {a b : Specifier} {h f : Word} {x : Exception} :
    x ∈ s.insqtiLinks h ↔ LinkCondition (.insqti a b) s h f x := by
  unfold State.insqtiLinks LinkCondition
  rcases s.mem.read4 (h + 4) with - | back <;> simp [mem_linkConditions]

theorem mem_remqhiLinks {s : State} {a b : Specifier} {h f : Word} {x : Exception} :
    x ∈ s.remqhiLinks h f ↔ LinkCondition (.remqhi a b) s h f x := by
  unfold State.remqhiLinks LinkCondition
  rcases s.probe (h + f) 4 .read with - | y
  · rcases s.mem.read4 (h + f) with - | l <;> simp [mem_linkConditions]
  · simp [@eq_comm _ x y]

/-- What REMQTI's checks of the tail find. -/
theorem mem_remqtiTail {s : State} {h f b : Word} {x : Exception} :
    x ∈ s.remqtiTail h f b ↔ f ≠ 0 ∧ (s.probe (h + b + 4) 4 .read = some x ∨
      s.probe (h + b + 4) 4 .read = none ∧ ∃ l, s.mem.read4 (h + b + 4) = some l ∧
        FollowCondition s l (h + b + l) x) := by
  unfold State.remqtiTail
  rcases s.probe (h + b + 4) 4 .read with - | y
  · rcases s.mem.read4 (h + b + 4) with - | l <;> simp [mem_linkConditions]
  · simp [@eq_comm _ x y]

theorem mem_remqtiLinks {s : State} {a b : Specifier} {h f : Word} {x : Exception} :
    x ∈ s.remqtiLinks h f ↔ LinkCondition (.remqti a b) s h f x := by
  unfold State.remqtiLinks LinkCondition
  rcases s.mem.read4 (h + 4) with - | back
  · simp
  · simp [mem_addCondition, unless_aligned, mem_remqtiTail]

/-! ## Phase 2: the interlock -/

/-- Everything phase 2 can do when it answers: the header is accessible, nothing but the record of accesses
and the draws changes, and the answer says whether the interlock is set. -/
theorem acquire_ok {header : Word} {early : List Exception} {links : Word → List Exception} {s t : State}
    {r : Option Word} (e : acquire header early links s = .ok (r, t)) :
    ∃ f, s.mem.read4 header = some f ∧ s.probe header 8 .write = none ∧
      Follows (some header) s t ∧ t.mem = s.mem ∧ t.cpu.regs = s.cpu.regs ∧
      t.cpu.psl = s.cpu.psl ∧ t.cpu.pending = s.cpu.pending ∧
      (s.alone = true → t.cpu.touched = s.cpu.touched) ∧
      (r = none ∧ interlockSet f = true ∨
        r = some f ∧ interlockSet f = false ∧ early = [] ∧ field f 1 2 = 0 ∧ t.draws = s.draws) := by
  unfold acquire at e
  split at e
  · simp at e
  · rename_i hp
    obtain ⟨⟨f, u⟩, hu, e⟩ := bind_ok.1 e
    have a := accesses_load (h := some header) hu
    have hm := load_mem hu
    refine ⟨f, (load_ok hu).1, hp, ?_⟩
    simp only at e
    split at e
    · rename_i hi
      split at e
      · cases e
        exact ⟨a.follows, hm, a.regs, a.psl, a.pending, a.touched, .inl ⟨rfl, hi⟩⟩
      · split at e
        · simp at e
        · cases e
          exact ⟨a.follows.trans (follows_of_eq rfl rfl rfl rfl rfl rfl), hm, a.regs, a.psl,
            a.pending, a.touched, .inl ⟨rfl, hi⟩⟩
    · rename_i hi
      simp only [bind_ok, raiseAny_ok, addCondition_eq_nil, conditionIf_eq_none, bne_eq_false_iff_eq] at e
      obtain ⟨-, ⟨hf, he⟩, e⟩ := e
      cases e
      exact ⟨a.follows, hm, a.regs, a.psl, a.pending, a.touched,
        .inr ⟨rfl, by simpa using hi, he, hf, a.draws⟩⟩

/-- What phase 2 raises: the header's own exception, or one of the conditions; a condition of a later check
only when the interlock is clear and one of phase 1 or 2 holds (R188, D8). -/
theorem acquire_raises {header : Word} {early : List Exception} {links : Word → List Exception} {s : State}
    {x : Exception} (e : acquire header early links s = .error (.raise x)) :
    (∃ y, s.probe header 8 .write = some y ∧ (x = y ∨ x ∈ early)) ∨
      s.probe header 8 .write = none ∧ ∃ f, s.mem.read4 header = some f ∧
        (early ≠ [] ∨ field f 1 2 ≠ 0) ∧
        (x ∈ early ∨ x = .reservedOperand ∧ field f 1 2 ≠ 0 ∨
          interlockSet f = false ∧ x ∈ links f) := by
  have cond : ∀ {f : Word} {y : Exception},
      y ∈ addCondition (conditionIf (field f 1 2 != 0) .reservedOperand) early →
        y ∈ early ∨ y = .reservedOperand ∧ field f 1 2 ≠ 0 := by
    intro f y hy
    rcases mem_addCondition.1 hy with h | h
    · obtain ⟨h1, h2⟩ := conditionIf_eq_some.1 h
      exact .inr ⟨h2.symm, by simpa using h1⟩
    · exact .inl h
  have some_of : ∀ {f : Word},
      addCondition (conditionIf (field f 1 2 != 0) .reservedOperand) early ≠ [] →
        early ≠ [] ∨ field f 1 2 ≠ 0 := by
    intro f h
    rw [Ne, addCondition_eq_nil, conditionIf_eq_none, bne_eq_false_iff_eq] at h
    tauto
  unfold acquire at e
  split at e
  · rename_i y hy
    simp only [Except.error.injEq, Stop.raise.injEq] at e
    refine .inl ⟨y, hy, ?_⟩
    have := choose_mem s y (early.filter (· != y))
    rw [e, List.mem_cons] at this
    exact this.imp_right List.mem_of_mem_filter
  · rename_i hp
    refine .inr ⟨hp, ?_⟩
    rcases bind_error.1 e with e | ⟨⟨f, u⟩, hu, e⟩
    · exact absurd rfl (load_error e x)
    · refine ⟨f, (load_ok hu).1, ?_⟩
      simp only at e
      split at e
      · split at e
        · simp at e
        · rename_i y rest hc
          split at e
          · simp only [Except.error.injEq, Stop.raise.injEq] at e
            have := choose_mem u y rest
            rw [e, ← hc] at this
            refine ⟨some_of (by simp [hc]), ?_⟩
            exact (cond this).imp_right .inl
          · simp at e
      · rename_i hi
        rcases bind_error.1 e with e | ⟨-, -, e⟩
        · obtain ⟨hn, y, hy, h⟩ := raiseAny_error e
          cases h
          refine ⟨some_of hn, ?_⟩
          rcases List.mem_append.1 hy with hy | hy
          · exact (cond hy).imp_right .inl
          · exact .inr (.inr ⟨by simpa using hi, hy⟩)
        · simp at e

/-- Phase 2 on a header whose interlock is clear, with no condition, for a processor that is alone. -/
theorem acquire_clear {header f : Word} {links : Word → List Exception} {s : State} (ha : s.alone = true)
    (hp : s.probe header 8 .write = none) (hr : s.mem.read4 header = some f)
    (hi : interlockSet f = false) (hf : field f 1 2 = 0) :
    acquire header [] links s = .ok (some f, s) := by
  simp [acquire, hp, load_alone ha (some header) hr, hi, hf, conditionIf]

/-- Phase 2 on a header whose interlock is set, with no condition, for a processor that is alone. -/
theorem acquire_set {header f : Word} {links : Word → List Exception} {s : State} (ha : s.alone = true)
    (hp : s.probe header 8 .write = none) (hr : s.mem.read4 header = some f)
    (hi : interlockSet f = true) (hf : field f 1 2 = 0) :
    acquire header [] links s = .ok (none, s) := by
  simp [acquire, hp, load_alone ha (some header) hr, hi, hf, conditionIf]

/-! ## Phase 3 -/

/-- Everything phase 3 can do when it answers: the interlock is set and the operands are kept. -/
theorem hold_ok {start s t : State} {op : HeldOp} {header f : Word}
    (e : hold start op header f s = .ok t) :
    Follows (some header) s t ∧ t.mem = s.mem.write4 header (f ||| 1) ∧
      t.cpu.regs = s.cpu.regs ∧ t.cpu.psl = s.cpu.psl ∧ t.draws = s.draws ∧
      t.cpu.pending = some { op, header, forward := f, startRegs := start.cpu.regs } ∧
      (s.alone = true → t.cpu.touched = s.cpu.touched) ∧
      (s.alone = true ∨
        ({ addr := header, via := some header } : Touch) ∈ t.cpu.touched) := by
  simp only [hold, bind_ok] at e
  obtain ⟨u, hu, e⟩ := e
  cases e
  have a := accesses_store (h := some header) (.inr rfl) hu
  have hm := store_mem hu
  refine ⟨a.follows.trans (follows_of_eq rfl rfl rfl rfl rfl rfl), hm, a.regs, a.psl, a.draws, rfl,
    a.touched, ?_⟩
  obtain ⟨-, v, hv, rfl⟩ := store_ok hu
  rcases touch_ok hv with ⟨-, h⟩ | ⟨-, -, rfl⟩
  · exact .inl h
  · exact .inr (by simp)

/-- Phase 3 for a processor that is alone, on a header that holds no program text. -/
theorem hold_alone {start s : State} {op : HeldOp} {header f : Word} (ha : s.alone = true)
    (ht : s.inText header 4 = false) :
    hold start op header f s = .ok { s with
      mem := s.mem.write4 header (f ||| 1)
      cpu := { s.cpu with
        pending := some { op, header, forward := f, startRegs := start.cpu.regs } } } := by
  simp [hold, store_alone ha (some header) _ ht]

/-! ## Phases 4 to 6 -/

theorem accesses_unlock {header forward neighbour : Word} {s t : State}
    (e : unlockForward header forward neighbour s = .ok t) : Accesses (some header) s t := by
  unfold unlockForward at e
  split at e
  · cases e
    exact .refl ..
  · exact accesses_store (.inr rfl) e

/-- Everything step B can do when it answers: accesses through its header, the codes, and the destination of
a removal. -/
theorem completeHeld_ok {p : Pending} {s t : State} (e : completeHeld p s = .ok t) :
    Follows (some p.header) s t ∧ t.cpu.pending = s.cpu.pending ∧ t.draws = s.draws ∧
      (s.alone = true → t.cpu.touched = s.cpu.touched) ∧
      ∀ n, p.op ≠ .remqhi (.reg n) → (∀ b, p.op ≠ .remqti (.reg n) b) → t.reg n = s.reg n := by
  obtain ⟨op, h, f, regs⟩ := p
  cases op with
  | insqhi entry =>
    simp only [completeHeld, completeInsqhi, bind_ok] at e
    obtain ⟨-, -, -, -, u1, h1, u2, h2, u3, h3, u4, h4, ⟨_, u5⟩, h5, ⟨_, u6⟩, h6, e⟩ := e
    cases e
    have a := ((((accesses_store (h := some h) (.inr rfl) h1).trans (accesses_store (.inr rfl) h2)).trans
      (accesses_store (.inr rfl) h3)).trans (accesses_store (.inr rfl) h4)).trans
      ((accesses_load h5).trans (accesses_load h6))
    exact ⟨a.follows.trans (follows_setCC ..), a.pending, a.draws, a.touched,
      fun n _ _ => a.reg n⟩
  | insqti entry =>
    simp only [completeHeld, completeInsqti, bind_ok] at e
    obtain ⟨⟨b, u0⟩, h0, -, -, -, -, -, -, u1, h1, u2, h2, u3, h3, u4, h4, u5, h5, ⟨_, u6⟩, h6,
      ⟨_, u7⟩, h7, e⟩ := e
    cases e
    have a5 : Accesses (some h) u4 u5 := accesses_unlock h5
    have a := (accesses_load (h := some h) h0).trans
      (((((accesses_store (.inr rfl) h1).trans (accesses_store (.inr rfl) h2)).trans
      (accesses_store (.inr rfl) h3)).trans (accesses_store (.inr rfl) h4)).trans
      (a5.trans ((accesses_load h6).trans (accesses_load h7))))
    exact ⟨a.follows.trans (follows_setCC ..), a.pending, a.draws, a.touched,
      fun n _ _ => a.reg n⟩
  | remqhi d =>
    simp only [completeHeld, completeRemqhi, bind_ok] at e
    obtain ⟨-, -, ⟨_, u1⟩, h1, -, -, -, -, -, -, u2, h2, u3, h3, ⟨_, u4⟩, h4, u5, h5, e⟩ := e
    cases e
    have a := ((accesses_load (h := some h) h1).trans (accesses_store (.inr rfl) h2)).trans
      ((accesses_store (.inr rfl) h3).trans (accesses_load h4))
    have w := fun z => writes_of (cn := false) (cz := z) (cv := false) (cc := false) a h5
    exact ⟨(w _).follows, (w _).pending, (w _).draws, (w _).touched,
      fun n hn _ => (w _).regs n fun hd => hn (by rw [hd])⟩
  | remqti d back =>
    simp only [completeHeld, completeRemqti, bind_ok] at e
    obtain ⟨-, -, ⟨_, u1⟩, h1, -, -, -, -, -, -, u2, h2, u3, h3, u6, h6, ⟨_, u4⟩, h4, u5, h5, e⟩ := e
    cases e
    have a6 : Accesses (some h) u3 u6 := accesses_unlock h6
    have a := ((accesses_load (h := some h) h1).trans (accesses_store (.inr rfl) h2)).trans
      ((accesses_store (.inr rfl) h3).trans (a6.trans (accesses_load h4)))
    have w := fun z => writes_of (cn := false) (cz := z) (cv := false) (cc := false) a h5
    exact ⟨(w _).follows, (w _).pending, (w _).draws, (w _).touched,
      fun n _ hn => (w _).regs n fun hd => hn back (by rw [hd])⟩

/-- A removal that finds the queue empty: everything it can do. -/
theorem removeFromEmpty_ok {header link : Word} {d : Dest} {s t : State}
    (e : removeFromEmpty header d link s = .ok t) :
    d.apart header = true ∧ Writes (some header) d s t ∧
      ∃ u v : State, u.mem = s.mem ∧ u.writeDest d header = .ok v ∧ t.mem = v.mem := by
  simp only [removeFromEmpty, bind_ok, require_ok] at e
  obtain ⟨-, hd, ⟨v, u⟩, hu, w, hw, e⟩ := e
  cases e
  exact ⟨hd, writes_of (accesses_load hu) hw, u, w, load_mem hu, hw, rfl⟩

end Sys2Proof.Machine
end

