-- ==== Sys2Proof/Laws/StepA.lean ====
section
/-! SUPPORT. What step A of each interlocked instruction can do: it fails, holds the interlock, or takes
nothing from an empty queue (spec/40_queue_common.md R106, R107, R109). -/

namespace Sys2Proof.Machine

/-- Step A that found the interlock set: nothing changed but the codes, the record and the draws. -/
structure FoundSet (header : Word) (s t : State) : Prop where
  set : ∃ f, s.mem.read4 header = some f ∧ interlockSet f = true
  probe : s.probe header 8 .write = none
  follows : Follows (some header) s t
  mem : t.mem = s.mem
  regs : t.cpu.regs = s.cpu.regs
  pending : t.cpu.pending = s.cpu.pending

/-- Step A that holds the interlock for step B. -/
structure Holds (start : State) (op : HeldOp) (header f : Word) (s t : State) : Prop where
  read : s.mem.read4 header = some f
  clear : interlockSet f = false
  low : field f 1 2 = 0
  aligned : aligned8 header = true
  probe : s.probe header 8 .write = none
  follows : Follows (some header) s t
  mem : t.mem = s.mem.write4 header (f ||| 1)
  regs : t.cpu.regs = s.cpu.regs
  psl : t.cpu.psl = s.cpu.psl
  draws : t.draws = s.draws
  pending : t.cpu.pending = some { op, header, forward := f, startRegs := start.cpu.regs }
  record : s.alone = true → t.cpu.touched = s.cpu.touched
  touched : s.alone = true ∨
    ({ addr := header, via := some header } : Touch) ∈ t.cpu.touched

/-- Reads of step A: nothing changed but the record of accesses and the draws. -/
structure Reads (header : Word) (s t : State) : Prop where
  follows : Follows (some header) s t
  mem : t.mem = s.mem
  regs : t.cpu.regs = s.cpu.regs
  psl : t.cpu.psl = s.cpu.psl
  pending : t.cpu.pending = s.cpu.pending

/-- Step A that found the queue empty, and is all of the instruction. -/
structure FoundEmpty (header : Word) (d : Dest) (s t : State) : Prop where
  read : s.mem.read4 header = some 0
  aligned : aligned8 header = true
  apart : d.apart header = true
  writes : Writes (some header) d s t
  dest : ∃ u v : State, u.mem = s.mem ∧ u.writeDest d header = .ok v ∧ t.mem = v.mem

theorem insertionConditions_nil {entry header : Word} {s : State} :
    insertionConditions entry header s = [] ↔
      s.probe entry 8 .write = none ∧ aligned8 entry = true ∧ aligned8 header = true ∧
        entry ≠ header := by
  simp [insertionConditions, addCondition_eq_nil, conditionIf_eq_none, and_assoc]

theorem removalConditions_nil {header : Word} {d : Dest} {s : State} :
    removalConditions header d s = [] ↔
      (∀ a, d = .mem a → s.probe a 4 .write = none) ∧ aligned8 header = true ∧ d ≠ .mem header := by
  cases d <;> simp [removalConditions, State.probeDest, addCondition_eq_nil, conditionIf_eq_none]

theorem foundSet_of {header f : Word} {s u : State} (n z v c : Bool)
    (hr : s.mem.read4 header = some f) (hi : interlockSet f = true)
    (hp : s.probe header 8 .write = none) (hf : Follows (some header) s u) (hm : u.mem = s.mem)
    (hg : u.cpu.regs = s.cpu.regs) (hd : u.cpu.pending = s.cpu.pending) :
    FoundSet header s (u.setCC n z v c) :=
  ⟨⟨f, hr, hi⟩, hp, hf.trans (follows_setCC ..), hm, hg, hd⟩

theorem holds_of {start s u t : State} {op : HeldOp} {header f : Word}
    (hr : s.mem.read4 header = some f) (hi : interlockSet f = false) (hl : field f 1 2 = 0)
    (hh : aligned8 header = true) (hp : s.probe header 8 .write = none)
    (hf : Follows (some header) s u) (hm : u.mem = s.mem) (hg : u.cpu.regs = s.cpu.regs)
    (hs : u.cpu.psl = s.cpu.psl) (hd : u.draws = s.draws)
    (ht : s.alone = true → u.cpu.touched = s.cpu.touched) (e : hold start op header f u = .ok t) :
    Holds start op header f s t := by
  obtain ⟨f2, m2, g2, s2, d2, p2, r2, t2⟩ := hold_ok e
  exact ⟨hr, hi, hl, hh, hp, hf.trans f2, by rw [m2, hm], g2.trans hg, s2.trans hs, d2.trans hd, p2,
    fun ha => (r2 (by rw [hf.alone, ha])).trans (ht ha), by rwa [hf.alone] at t2⟩

/-- Everything step A of INSQHI can do when it answers. -/
theorem acquireInsqhi_ok {start s t : State} {entry header : Word}
    (e : acquireInsqhi start entry header s = .ok t) :
    FoundSet header s t ∨
      insertionConditions entry header s = [] ∧ ∃ f, Holds start (.insqhi entry) header f s t := by
  obtain ⟨⟨r, u⟩, hu, e⟩ := bind_ok.1 e
  obtain ⟨f, hr, hp, hf, hm, hg, hs, hd, ht, h⟩ := acquire_ok hu
  rcases h with ⟨rfl, hi⟩ | ⟨rfl, hi, hE, hl, hw⟩
  · cases e
    exact .inl (foundSet_of _ _ _ _ hr hi hp hf hm hg hd)
  · simp only [bind_ok, require_ok] at e
    obtain ⟨-, -, e⟩ := e
    exact .inr ⟨hE, f, holds_of hr hi hl (insertionConditions_nil.1 hE).2.2.1 hp hf hm hg hs hw ht e⟩

/-- Everything step A of INSQTI can do when it answers. -/
theorem acquireInsqti_ok {start s t : State} {entry header : Word}
    (e : acquireInsqti start entry header s = .ok t) :
    FoundSet header s t ∨
      insertionConditions entry header s = [] ∧ ∃ f, Holds start (.insqti entry) header f s t := by
  obtain ⟨⟨r, u⟩, hu, e⟩ := bind_ok.1 e
  obtain ⟨f, hr, hp, hf, hm, hg, hs, hd, ht, h⟩ := acquire_ok hu
  rcases h with ⟨rfl, hi⟩ | ⟨rfl, hi, hE, hl, hw⟩
  · cases e
    exact .inl (foundSet_of _ _ _ _ hr hi hp hf hm hg hd)
  · exact .inr ⟨hE, f, holds_of hr hi hl (insertionConditions_nil.1 hE).2.2.1 hp hf hm hg hs hw ht e⟩

theorem foundEmpty_of {header link : Word} {d : Dest} {s u t : State}
    (hr : s.mem.read4 header = some 0) (hh : aligned8 header = true)
    (a : Accesses (some header) s u) (hm : u.mem = s.mem)
    (e : removeFromEmpty header d link u = .ok t) : FoundEmpty header d s t := by
  obtain ⟨h1, w, v, x, hv, hx, ht⟩ := removeFromEmpty_ok e
  exact ⟨hr, hh, h1, ⟨a.follows.trans w.follows, fun n hn => (w.regs n hn).trans (a.reg n),
    w.pending.trans a.pending, w.draws.trans a.draws,
    fun ha => (w.touched (by rw [a.follows.alone, ha])).trans (a.touched ha)⟩,
    v, x, hv.trans hm, hx, ht⟩

/-- Everything step A of REMQHI can do when it answers. -/
theorem acquireRemqhi_ok {start s t : State} {header : Word} {d : Dest}
    (e : acquireRemqhi start header d s = .ok t) :
    FoundSet header s t ∨ removalConditions header d s = [] ∧
      ((∃ f, f ≠ 0 ∧ Holds start (.remqhi d) header f s t) ∨
        ∃ u, Reads header s u ∧ FoundEmpty header d u t) := by
  obtain ⟨⟨r, u⟩, hu, e⟩ := bind_ok.1 e
  obtain ⟨f, hr, hp, hf, hm, hg, hs, hd, ht, h⟩ := acquire_ok hu
  rcases h with ⟨rfl, hi⟩ | ⟨rfl, hi, hE, hl, hw⟩
  · cases e
    exact .inl (foundSet_of _ _ _ _ hr hi hp hf hm hg hd)
  · simp only [bind_ok, require_ok] at e
    obtain ⟨-, -, e⟩ := e
    have hh := (removalConditions_nil.1 hE).2.1
    split at e
    · subst f
      exact .inr ⟨hE, .inr ⟨u, ⟨hf, hm, hg, hs, hd⟩, foundEmpty_of (hm ▸ hr) hh (.refl ..) rfl e⟩⟩
    · exact .inr ⟨hE, .inl ⟨f, ‹_›, holds_of hr hi hl hh hp hf hm hg hs hw ht e⟩⟩

/-- Everything step A of REMQTI can do when it answers. -/
theorem acquireRemqti_ok {start s t : State} {header : Word} {d : Dest}
    (e : acquireRemqti start header d s = .ok t) :
    FoundSet header s t ∨ removalConditions header d s = [] ∧
      ((∃ f b, f ≠ 0 ∧ s.mem.read4 (header + 4) = some b ∧ aligned8 b = true ∧ b ≠ 0 ∧
        Holds start (.remqti d b) header f s t) ∨
        ∃ u, Reads header s u ∧ FoundEmpty header d u t) := by
  obtain ⟨⟨r, u⟩, hu, e⟩ := bind_ok.1 e
  obtain ⟨f, hr, hp, hf, hm, hg, hs, hd, ht, h⟩ := acquire_ok hu
  rcases h with ⟨rfl, hi⟩ | ⟨rfl, hi, hE, hl, hw⟩
  · cases e
    exact .inl (foundSet_of _ _ _ _ hr hi hp hf hm hg hd)
  · simp only [bind_ok, require_ok, raiseAny_ok, addCondition_eq_nil, conditionIf_eq_none,
      Bool.not_eq_false', and_true] at e
    obtain ⟨⟨b, v⟩, hv, -, hb, -, hc, e⟩ := e
    have a := accesses_load (h := some header) hv
    have hh := (removalConditions_nil.1 hE).2.1
    have hrb := (load_ok hv).1
    split at e
    · subst f
      exact .inr ⟨hE, .inr ⟨v, ⟨hf.trans a.follows, (load_mem hv).trans hm, a.regs.trans hg,
        a.psl.trans hs, a.pending.trans hd⟩, foundEmpty_of ((load_mem hv).trans hm ▸ hr) hh (.refl ..) rfl e⟩⟩
    · rename_i h0
      exact .inr ⟨hE, .inl ⟨f, b, h0, hm ▸ hrb, hb, by rintro rfl; exact h0 (by simpa using hc),
        holds_of hr hi hl hh hp (hf.trans a.follows) ((load_mem hv).trans hm) (a.regs.trans hg)
          (a.psl.trans hs) (a.draws.trans hw)
          (fun ha => (a.touched (by rw [hf.alone, ha])).trans (ht ha)) e⟩⟩

/-! ## The outcome of an interlocked instruction -/

/-- When an interlocked instruction answers, step A answered, and a processor that is alone went on. -/
theorem afterStepA_next {start u : State} {r : Res State} (e : afterStepA start r = .next u) :
    ∃ t, r = .ok t ∧
      ((t.cpu.pending = none ∨ t.alone = false) ∧ u = t ∨
        ∃ p v, t.cpu.pending = some p ∧ t.alone = true ∧ completeHeld p t = .ok v ∧ u = v.release) := by
  unfold afterStepA at e
  split at e
  · rename_i stop
    cases stop <;> simp [Stop.outcome, takeFault] at e
  · rename_i t
    refine ⟨t, rfl, ?_⟩
    split at e
    · cases e
      exact .inl ⟨.inl ‹_›, rfl⟩
    · rename_i p hp
      split at e
      · rename_i ha
        unfold stepB at e
        split at e
        · cases e
          exact .inr ⟨p, _, hp, ha, ‹_›, rfl⟩
        · rename_i stop _
          cases stop <;> simp [Stop.outcome, takeFault] at e
      · cases e
        rename_i ha
        exact .inl ⟨.inr (by simpa using ha), rfl⟩

theorem finish_next {left u : State} {r : Res State} (e : finish left r = .next u) : r = .ok u := by
  unfold finish at e
  split at e
  · cases e
    rfl
  · rename_i stop
    cases stop <;> simp [Stop.outcome, takeFault] at e

/-! ## The absolute instructions -/

/-- A load changes nothing that `Probe` looks at. -/
theorem load_probe {via : Option Word} {s t : State} {a v : Word} (e : s.load via a = .ok (v, t)) (b : Word)
    (n : Nat) (k : AccessKind) : t.probe b n k = s.probe b n k := by
  have f : Follows none s t := follows_load e
  simp only [State.probe, f.params, load_mem e, (accesses_load (h := none) e).psl]

/-- Everything INSQUE at the level of evaluated operands can do when it answers. -/
theorem insertAbsolute_ok {entry pred : Word} {s t : State}
    (e : insertAbsolute entry pred s = .ok t) :
    ∃ (succ : Word) (u : State) (n z c : Bool), s.mem.read4 pred = some succ ∧
      s.probe entry 8 .write = none ∧ s.probe pred 4 .write = none ∧
      s.probe (succ + 4) 4 .write = none ∧ Accesses none s u ∧ t = u.setCC n z false c ∧
      u.mem = (((s.mem.write4 entry succ).write4 (entry + 4) pred).write4 (succ + 4) entry).write4
        pred entry := by
  simp only [insertAbsolute, bind_ok, raiseAny_ok, addCondition_eq_nil, demand_ok, and_true] at e
  obtain ⟨-, ⟨p1, p2⟩, ⟨q, u0⟩, h0, -, p3, -, -, -, -, u1, h1, u2, h2, u3, h3, u4, h4, ⟨f, u5⟩, h5,
    ⟨b, u6⟩, h6, e⟩ := e
  cases e
  have a := (accesses_load (h := none) h0).trans
    (((((accesses_store (.inl rfl) h1).trans (accesses_store (.inl rfl) h2)).trans
    (accesses_store (.inl rfl) h3)).trans (accesses_store (.inl rfl) h4)).trans
    ((accesses_load h5).trans (accesses_load h6)))
  refine ⟨q, u6, _, _, _, (load_ok h0).1, p1, p2, by rw [← load_probe h0]; exact p3, a, rfl, ?_⟩
  rw [load_mem h6, load_mem h5, store_mem h4, store_mem h3, store_mem h2, store_mem h1, load_mem h0]

/-- Everything REMQUE at the level of evaluated operands can do when it answers. -/
theorem removeAbsolute_ok {entry : Word} {d : Dest} {s t : State}
    (e : removeAbsolute entry d s = .ok t) :
    Writes none d s t ∧ ∃ (f b : Word) (u v : State), s.mem.read4 entry = some f ∧
      s.mem.read4 (entry + 4) = some b ∧ s.probeDest d = none ∧ s.probe b 4 .write = none ∧
      s.probe (f + 4) 4 .write = none ∧ u.mem = (s.mem.write4 b f).write4 (f + 4) b ∧
      u.writeDest d entry = .ok v ∧ t.mem = v.mem := by
  simp only [removeAbsolute, State.neighbourConditions, bind_ok, raiseAny_ok, addCondition_eq_nil, and_true] at e
  obtain ⟨-, ⟨p1, -⟩, ⟨f, u0⟩, h0, ⟨b, u1⟩, h1, -, ⟨p2, p3⟩, -, -, -, -, u2, h2, u3, h3, u4, h4, e⟩ := e
  cases e
  have a := (accesses_load (h := none) h0).trans ((accesses_load h1).trans
    ((accesses_store (.inl rfl) h2).trans (accesses_store (.inl rfl) h3)))
  have hp : ∀ a n k, u1.probe a n k = s.probe a n k := fun a n k => by rw [load_probe h1, load_probe h0]
  refine ⟨writes_of a h4, f, b, u3, u4, (load_ok h0).1, ?_, p1, by rw [← hp]; exact p2,
    by rw [← hp]; exact p3, ?_, h4, rfl⟩
  · have := (load_ok h1).1
    rwa [load_mem h0] at this
  · rw [store_mem h3, store_mem h2, load_mem h1, load_mem h0]

end Sys2Proof.Machine
end

