-- ==== Sys2Proof/Laws/Frame.lean ====
section
/-! SUPPORT. Which bytes of memory the parts of an instruction change (spec/20_memory.md R43). -/

namespace Sys2Proof.Machine

theorem sameOutside_refl (m : Memory) (l : List (Word × Nat)) : sameOutside m m l := fun _ _ => rfl

theorem sameOutside_of_eq {m m' : Memory} (l : List (Word × Nat)) (h : m' = m) : sameOutside m m' l :=
  fun _ _ => by rw [h]

/-- Two runs of changes, both inside the ranges. -/
theorem sameOutside_trans {m m' m'' : Memory} {l : List (Word × Nat)} (a : sameOutside m m' l)
    (b : sameOutside m' m'' l) : sameOutside m m'' l := fun x hx => (b x hx).trans (a x hx)

/-- Ranges that cover the ranges given may take their place. -/
theorem sameOutside_mono {m m' : Memory} {l l' : List (Word × Nat)} (a : sameOutside m m' l)
    (h : ∀ r ∈ l, ∀ x : Word, InRange x r.1 r.2 → ∃ r' ∈ l', InRange x r'.1 r'.2) :
    sameOutside m m' l' := fun x hx => a x fun r hr hi =>
  have ⟨r', hr', hi'⟩ := h r hr x hi
  hx r' hr' hi'

/-- A store inside a range, after changes inside the ranges. -/
theorem sameOutside_write4 {m m' : Memory} {a v base : Word} {n : Nat} {l : List (Word × Nat)}
    (s : sameOutside m m' l) (hr : (base, n) ∈ l) (h : (a - base).toNat + 4 ≤ n) (hn : n ≤ 8) :
    sameOutside m (m'.write4 a v) l := by
  intro x hx
  rw [readByte_write4, if_neg]
  · exact s x hx
  · intro hi
    have := hx _ hr
    simp only [InRange] at this
    bv_omega

/-- A store at the base of a range. -/
theorem sameOutside_write4_base {m m' : Memory} {a v : Word} {n : Nat} {l : List (Word × Nat)}
    (s : sameOutside m m' l) (hr : (a, n) ∈ l) (h4 : 4 ≤ n) (hn : n ≤ 8) :
    sameOutside m (m'.write4 a v) l :=
  sameOutside_write4 s hr (by simpa using h4) hn

/-- A store to the second longword of a range of eight bytes. -/
theorem sameOutside_write4_second {m m' : Memory} {a v : Word} {l : List (Word × Nat)}
    (s : sameOutside m m' l) (hr : (a, 8) ∈ l) : sameOutside m (m'.write4 (a + 4) v) l :=
  sameOutside_write4 s hr (by bv_omega) (by decide)

/-- Everything writing a destination does to what it can be read from. -/
theorem writeDest_frame {s t : State} {d : Dest} {v : Word} (e : s.writeDest d v = .ok t) :
    sameOutside s.mem t.mem (destRange d) ∧ t.destValue d = some v := by
  rcases writeDest_ok e with ⟨n, rfl, rfl⟩ | ⟨a, rfl, e'⟩
  · exact ⟨sameOutside_refl _ _, by simp [State.destValue]⟩
  · rw [store_mem e']
    exact ⟨sameOutside_write4_base (n := 4) (sameOutside_refl _ _) (by simp [destRange]) (by decide) (by decide),
      by simp [State.destValue, store_mem e']⟩

/-- The store that releases the interlock at the tail. -/
theorem unlockForward_mem {header forward neighbour : Word} {s t : State}
    (e : unlockForward header forward neighbour s = .ok t) :
    t.mem = if neighbour = header then s.mem else s.mem.write4 header forward := by
  unfold unlockForward at e
  split at e
  · cases e
    simp [*]
  · simp [*, store_mem e]

/-- What the entry of an insertion is apart from. -/
theorem entryApart_iff {entry header forward neighbour : Word} {s : State} :
    entryApart entry header forward neighbour s = true ↔
      elementsApart entry neighbour = true ∧ elementsApart entry header = true ∧
        ∀ x ∈ s.selfEntries header (header + forward), elementsApart entry x = true := by
  simp [entryApart]

/-- What the destination of a removal is apart from. -/
theorem destApart_iff {d : Dest} {header forward : Word} {elements : List Word} {s : State} :
    destApart d header forward elements s = true ↔
      d.apart header = true ∧ (∀ x ∈ elements, d.apart x = true) ∧
        ∀ x ∈ s.selfEntries header (header + forward), d.apart x = true := by
  simp only [destApart, Dest.apartAll, List.cons_append, List.all_cons, List.all_append,
    Bool.and_eq_true, List.all_eq_true]

/-- Everything step B of INSQHI does to memory and the codes. -/
theorem completeInsqhi_ok {entry header forward : Word} {s t : State}
    (e : completeInsqhi entry header forward s = .ok t) :
    s.probe (header + forward + 4) 4 .write = none ∧
      elementsApart entry (header + forward) = true ∧
      t.mem = (((s.mem.write4 entry (header + forward - entry)).write4 (entry + 4)
        (header - entry)).write4 (header + forward + 4) (entry - (header + forward))).write4 header
        (entry - header) := by
  simp only [completeInsqhi, bind_ok, raiseAny_ok, insqhiLinks_eq_nil, require_ok] at e
  obtain ⟨-, hp, -, ha, u1, h1, u2, h2, u3, h3, u4, h4, ⟨_, u5⟩, h5, ⟨_, u6⟩, h6, e⟩ := e
  cases e
  refine ⟨hp, (entryApart_iff.1 ha).1, ?_⟩
  show u6.mem = _
  rw [load_mem h6, load_mem h5, store_mem h4, store_mem h3, store_mem h2, store_mem h1]

/-- Everything step B of INSQTI does to memory. -/
theorem completeInsqti_ok {entry header forward : Word} {s t : State}
    (e : completeInsqti entry header forward s = .ok t) :
    ∃ back, s.mem.read4 (header + 4) = some back ∧ aligned8 back = true ∧
      s.probe (header + back) 4 .write = none ∧ (forward = 0 ↔ back = 0) ∧
      elementsApart entry (header + back) = true ∧
      ∃ m : Memory, m = (((s.mem.write4 entry (header - entry)).write4 (entry + 4)
        (header + back - entry)).write4 (header + back) (entry - (header + back))).write4 (header + 4)
        (entry - header) ∧
        t.mem = if header + back = header then m else m.write4 header forward := by
  simp only [completeInsqti, bind_ok, raiseAny_ok, linkConditions_eq_nil, require_ok] at e
  obtain ⟨⟨b, u0⟩, h0, -, ⟨hb, hp⟩, -, hc, -, ha, u1, h1, u2, h2, u3, h3, u4, h4, u5, h5, ⟨_, u6⟩, h6,
      ⟨_, u7⟩, h7, e⟩ := e
  cases e
  have m0 := load_mem h0
  refine ⟨b, (load_ok h0).1, hb, by rw [← load_probe h0]; exact hp, by simpa using hc,
    (entryApart_iff.1 ha).1, _, rfl, ?_⟩
  show u7.mem = _
  rw [load_mem h7, load_mem h6, unlockForward_mem h5, store_mem h4, store_mem h3, store_mem h2,
    store_mem h1, m0]

/-- Everything step B of REMQHI does to memory. -/
theorem completeRemqhi_ok {header forward : Word} {d : Dest} {s t : State}
    (e : completeRemqhi header d forward s = .ok t) :
    ∃ link, s.mem.read4 (header + forward) = some link ∧ aligned8 link = true ∧
      s.probe (header + forward + link + 4) 4 .write = none ∧
      ∃ u v : State, u.mem = (s.mem.write4 (header + forward + link + 4)
          (header - (header + forward + link))).write4 header (header + forward + link - header) ∧
        u.writeDest d (header + forward) = .ok v ∧ t.mem = v.mem := by
  simp only [completeRemqhi, bind_ok, raiseAny_ok, linkConditions_eq_nil] at e
  obtain ⟨-, -, ⟨l, u1⟩, h1, -, ⟨hl, hq⟩, -, -, -, -, u2, h2, u3, h3, ⟨_, u4⟩, h4, u5, h5, e⟩ := e
  cases e
  exact ⟨l, (load_ok h1).1, hl, by rw [← load_probe h1]; exact hq, u4, u5,
    by rw [load_mem h4, store_mem h3, store_mem h2, load_mem h1], h5, rfl⟩

/-- Everything step B of REMQTI does to memory. -/
theorem completeRemqti_ok {header forward backward : Word} {d : Dest} {s t : State}
    (e : completeRemqti header d forward backward s = .ok t) :
    ∃ link, s.mem.read4 (header + backward + 4) = some link ∧ aligned8 link = true ∧
      s.probe (header + backward + link) 4 .write = none ∧
      ∃ (m : Memory) (u v : State), m = (s.mem.write4 (header + backward + link)
          (header - (header + backward + link))).write4 (header + 4)
          (header + backward + link - header) ∧
        u.mem = (if header + backward + link = header then m else m.write4 header forward) ∧
        u.writeDest d (header + backward) = .ok v ∧ t.mem = v.mem := by
  simp only [completeRemqti, bind_ok, raiseAny_ok, linkConditions_eq_nil] at e
  obtain ⟨-, -, ⟨l, u1⟩, h1, -, ⟨hl, hq⟩, -, -, -, -, u2, h2, u3, h3, u6, h6, ⟨_, u4⟩, h4, u5, h5, e⟩ := e
  cases e
  exact ⟨l, (load_ok h1).1, hl, by rw [← load_probe h1]; exact hq, _, u4, u5, rfl,
    by rw [load_mem h4, unlockForward_mem h6, store_mem h3, store_mem h2, load_mem h1], h5, rfl⟩

end Sys2Proof.Machine
end

