-- ==== Sys2Proof/Laws/Progress.lean ====
section
/-! SUPPORT. When the parts of an instruction answer, for a processor that is alone, and what they answer. -/

namespace Sys2Proof.Machine

/-! ## Specifiers -/

theorem modeByte_eq (k : Nat) (n : Reg) :
    modeByte k n = specifierByte (BitVec.ofNat 4 k) n := by
  have hn := n.isLt
  have h4 : (BitVec.ofNat 4 n.val).toNat < 2 ^ 4 := (BitVec.ofNat 4 n.val).isLt
  apply BitVec.eq_of_toNat_eq
  simp only [modeByte, specifierByte, BitVec.toNat_append]
  rw [← Nat.shiftLeft_add_eq_or_of_lt h4]
  simp only [BitVec.toNat_ofNat, Nat.shiftLeft_eq]
  omega

/-- A read of memory where nothing on record races with it answers (R72, R75; log 14). -/
theorem load_raceFree {s : State} {via : Option Word} {a v : Word} (h : s.raceFree via a = true)
    (hm : s.mem.read4 a = some v) : ∃ t, s.load via a = .ok (v, t) ∧ OnlyTouched s t ∧
      (s.alone = true → t.cpu.touched = s.cpu.touched) := by
  have ht : ∃ t, s.touch { addr := a, via } = .ok t := by
    unfold State.touch
    split
    · exact ⟨_, rfl⟩
    · rw [if_neg]
      · exact ⟨_, rfl⟩
      · simp only [State.raceFree, List.all_eq_true, Bool.not_eq_true'] at h
        simp only [List.any_eq_true, not_exists, not_and, Bool.not_eq_true]
        intro c hc y hy
        exact h c hc y hy
  obtain ⟨t, ht⟩ := ht
  have hmem : t.mem = s.mem := touch_mem ht
  refine ⟨t, by simp [State.load, ht, hmem, hm], ?_⟩
  rcases touch_ok ht with ⟨rfl, -⟩ | ⟨hn, -, rfl⟩
  · exact ⟨rfl, fun _ => rfl⟩
  · exact ⟨rfl, fun h => by simp [h] at hn⟩

theorem pointer_raceFree {s : State} {p v : Word} (h : s.raceFree none p = true)
    (hp : s.probe p 4 .read = none) (hm : s.mem.read4 p = some v) :
    ∃ t, s.pointer p = .ok (v, t) ∧ OnlyTouched s t := by
  obtain ⟨t, ht, ho, -⟩ := load_raceFree h hm
  exact ⟨t, by simpa [State.pointer, State.demand, hp] using ht, ho⟩

theorem pointer_raises {s : State} {p : Word} {x : Exception} (h : s.probe p 4 .read = some x) :
    s.pointer p = .error (.raise x) := by
  simp [State.pointer, State.demand, h]

/-! ## Ranges that share no byte -/

/-- Two elements that are apart: no longword link of one shares a byte with one of the other. -/
theorem links_apart {a b : Word} (h : elementsApart a b = true) :
    overlaps a 4 b 4 = false ∧ overlaps a 4 (b + 4) 4 = false ∧ overlaps (a + 4) 4 b 4 = false ∧
      overlaps (a + 4) 4 (b + 4) 4 = false := by
  simp only [elementsApart, overlaps, Bool.not_eq_true', Bool.or_eq_false_iff,
    Bool.and_eq_false_iff, decide_eq_false_iff_not] at h ⊢
  refine ⟨?_, ?_, ?_, ?_⟩ <;> constructor <;> left <;> bv_omega

theorem link_links_apart (a : Word) : overlaps a 4 (a + 4) 4 = false := by
  simp only [overlaps, Bool.or_eq_false_iff, Bool.and_eq_false_iff, decide_eq_false_iff_not]
  constructor <;> left <;> bv_omega

theorem elementsApart_comm (a b : Word) : elementsApart a b = elementsApart b a := by
  rw [elementsApart, elementsApart, overlaps_comm]

/-- Aligned elements are equal or apart (R44, R103). -/
theorem elementsApart_of_aligned {a b : Word} (ha : aligned8 a = true) (hb : aligned8 b = true)
    (h : a ≠ b) : elementsApart a b = true := by
  simp only [aligned8, field, beq_iff_eq] at ha hb
  simp only [elementsApart, overlaps, Bool.not_eq_true', Bool.or_eq_false_iff,
    Bool.and_eq_false_iff, decide_eq_false_iff_not]
  constructor <;> left <;> bv_omega

theorem aligned_add {a b : Word} (ha : aligned8 a = true) (hb : aligned8 b = true) :
    aligned8 (a + b) = true := by
  simp only [aligned8, field, beq_iff_eq] at *
  bv_omega

/-- A forward link whose interlock is clear and whose bits 2:1 are zero is that of an aligned element. -/
theorem aligned_of_clear {f : Word} (h1 : interlockSet f = false) (h2 : field f 1 2 = 0) :
    aligned8 f = true := by
  simp only [interlockSet, field, aligned8, beq_eq_false_iff_ne, beq_iff_eq] at *
  omega

/-! ## Loads and stores one after another -/

theorem store_then {s : State} (ha : s.alone = true) {via : Option Word} {a : Word} {m : Memory}
    {v : Word} (ht : s.inText a 4 = false) :
    State.store { s with mem := m } via a v = .ok { s with mem := m.write4 a v } :=
  store_alone (s := { s with mem := m }) ha via v ht

theorem load_then {s : State} (ha : s.alone = true) {via : Option Word} {a v : Word} {m : Memory}
    (hr : m.read4 a = some v) : State.load { s with mem := m } via a = .ok (v, { s with mem := m }) :=
  load_alone (s := { s with mem := m }) ha via hr

/-- The state with a destination written. -/
def State.afterDest (s : State) (d : Dest) (v : Word) : State :=
  match d with
  | .reg n => s.setReg n v
  | .mem a => { s with mem := s.mem.write4 a v }

theorem acceptsDest_mem {s : State} {a : Word} :
    s.acceptsDest (.mem a) = true ↔ s.probe a 4 .write = none ∧ s.inText a 4 = false := by
  simp [State.acceptsDest]

theorem writeDest_alone {s : State} (ha : s.alone = true) {d : Dest} (v : Word)
    (ht : s.acceptsDest d = true) : s.writeDest d v = .ok (s.afterDest d v) := by
  cases d with
  | reg n => rfl
  | mem a => exact store_alone ha none v (acceptsDest_mem.1 ht).2

theorem writeDest_then {s : State} (ha : s.alone = true) {d : Dest} {v : Word} {m : Memory}
    (ht : s.acceptsDest d = true) :
    State.writeDest { s with mem := m } d v = .ok (State.afterDest { s with mem := m } d v) := by
  cases d with
  | reg n => rfl
  | mem a => exact store_then ha (acceptsDest_mem.1 ht).2

theorem unlockForward_alone {s : State} (ha : s.alone = true) {header forward neighbour : Word}
    {m : Memory} (ht : s.inText header 4 = false) :
    unlockForward header forward neighbour { s with mem := m } = .ok { s with
      mem := if neighbour = header then m else m.write4 header forward } := by
  unfold unlockForward
  split
  · simp [*]
  · simp [*, store_then ha ht]

theorem afterDest_mem {s : State} {d : Dest} {v a : Word} (h : ∀ b, d = .mem b → overlaps b 4 a 4 = false) :
    (s.afterDest d v).mem.read4 a = s.mem.read4 a := by
  cases d with
  | reg n => rfl
  | mem b => exact read4_write4_apart _ _ (h b rfl)

theorem dest_apart {d : Dest} {element : Word} (h : d.apart element = true) :
    ∀ b, d = .mem b → overlaps b 4 element 4 = false ∧ overlaps b 4 (element + 4) 4 = false := by
  rintro b rfl
  simp only [Dest.apart, overlaps, Bool.not_eq_true', Bool.or_eq_false_iff,
    Bool.and_eq_false_iff, decide_eq_false_iff_not] at h ⊢
  refine ⟨?_, ?_⟩ <;> constructor <;> left <;> bv_omega

/-! ## Insertion -/

theorem completeInsqhi_alone {entry header forward : Word} {s : State} (ha : s.alone = true)
    (hp : s.probe (header + forward + 4) 4 .write = none)
    (he : entryApart entry header forward (header + forward) s = true)
    (ht : s.writable [entry, entry + 4, header + forward + 4, header] = true) :
    completeInsqhi entry header forward s = .ok (State.setCC { s with
      mem := (((s.mem.write4 entry (header + forward - entry)).write4 (entry + 4)
        (header - entry)).write4 (header + forward + 4) (entry - (header + forward))).write4 header
        (entry - header) } false (header + forward - entry == header - entry) false false) := by
  simp only [State.writable, List.all_cons, List.all_nil, Bool.and_true, Bool.and_eq_true,
    Bool.not_eq_true'] at ht
  obtain ⟨t1, t2, t3, t4⟩ := ht
  have l := links_apart (entryApart_iff.1 he).1
  have k := links_apart (entryApart_iff.1 he).2.1
  simp only [completeInsqhi, insqhiLinks_eq_nil.2 hp, raiseAny_nil, (require_ok (u := ())).2 he, ok_bind]
  rw [store_alone ha _ _ t1, ok_bind, store_then ha t2, ok_bind, store_then ha t3, ok_bind,
    store_then ha t4, ok_bind, load_then ha (v := header + forward - entry), ok_bind,
    load_then ha (v := header - entry), ok_bind]
  · rw [read4_write4_apart _ _ (overlaps_comm .. ▸ k.2.2.1),
      read4_write4_apart _ _ (overlaps_comm .. ▸ l.2.2.2), read4_write4_same]
  · rw [read4_write4_apart _ _ (overlaps_comm .. ▸ k.1),
      read4_write4_apart _ _ (overlaps_comm .. ▸ l.2.1),
      read4_write4_apart _ _ (overlaps_comm .. ▸ link_links_apart entry), read4_write4_same]

theorem completeInsqti_alone {entry header forward back : Word} {s : State} (ha : s.alone = true)
    (hr : s.mem.read4 (header + 4) = some back) (hb : aligned8 back = true)
    (hp : s.probe (header + back) 4 .write = none) (hc : forward = 0 ↔ back = 0)
    (he : entryApart entry header forward (header + back) s = true)
    (ht : s.writable [entry, entry + 4, header + back, header, header + 4] = true) :
    completeInsqti entry header forward s = .ok (State.setCC { s with
      mem := if header + back = header then (((s.mem.write4 entry (header - entry)).write4 (entry + 4)
        (header + back - entry)).write4 (header + back) (entry - (header + back))).write4 (header + 4)
        (entry - header) else ((((s.mem.write4 entry (header - entry)).write4 (entry + 4)
        (header + back - entry)).write4 (header + back) (entry - (header + back))).write4 (header + 4)
        (entry - header)).write4 header forward } false
      (header - entry == header + back - entry) false false) := by
  simp only [State.writable, List.all_cons, List.all_nil, Bool.and_true, Bool.and_eq_true,
    Bool.not_eq_true'] at ht
  obtain ⟨t1, t2, t3, t4, t5⟩ := ht
  have l := links_apart (entryApart_iff.1 he).1
  have k := links_apart (entryApart_iff.1 he).2.1
  have hc' : ((forward == 0) == (back == 0)) = true := by
    rw [beq_iff_eq, Bool.eq_iff_iff, beq_iff_eq, beq_iff_eq, hc]
  simp only [completeInsqti]
  rw [load_alone ha _ hr, ok_bind, linkConditions_eq_nil.2 ⟨hb, hp⟩, raiseAny_nil, ok_bind,
    (require_ok (u := ())).2 hc', ok_bind, (require_ok (u := ())).2 he, ok_bind, store_alone ha _ _ t1,
      ok_bind, store_then ha t2, ok_bind,
    store_then ha t3, ok_bind, store_then ha t5, ok_bind, unlockForward_alone ha t4, ok_bind,
    load_then ha (v := header - entry), ok_bind, load_then ha (v := header + back - entry), ok_bind]
  · have e : ∀ m : Memory, (((m.write4 (entry + 4) (header + back - entry)).write4 (header + back)
        (entry - (header + back))).write4 (header + 4) (entry - header)).read4 (entry + 4) =
        some (header + back - entry) := fun m => by
      rw [read4_write4_apart _ _ (overlaps_comm .. ▸ k.2.2.2),
        read4_write4_apart _ _ (overlaps_comm .. ▸ l.2.2.1), read4_write4_same]
    split
    · exact e _
    · rw [read4_write4_apart _ _ (overlaps_comm .. ▸ k.2.2.1), e]
  · have e : ((((s.mem.write4 entry (header - entry)).write4 (entry + 4)
        (header + back - entry)).write4 (header + back) (entry - (header + back))).write4 (header + 4)
        (entry - header)).read4 entry = some (header - entry) := by
      rw [read4_write4_apart _ _ (overlaps_comm .. ▸ k.2.1),
        read4_write4_apart _ _ (overlaps_comm .. ▸ l.1),
        read4_write4_apart _ _ (overlaps_comm .. ▸ link_links_apart entry), read4_write4_same]
    split
    · exact e
    · rw [read4_write4_apart _ _ (overlaps_comm .. ▸ k.1), e]

/-! ## Removal -/

theorem completeRemqhi_alone {header forward link : Word} {d : Dest} {s : State} (ha : s.alone = true)
    (hp : s.probe (header + forward) 4 .read = none)
    (hr : s.mem.read4 (header + forward) = some link) (hl : aligned8 link = true)
    (hq : s.probe (header + forward + link + 4) 4 .write = none)
    (hs : elementsApart (header + forward) (header + forward + link) = true)
    (hd : destApart d header forward [header + forward, header + forward + link] s = true)
    (ht : s.acceptsDest d = true)
    (hw : s.writable [header, header + forward + link + 4] = true) :
    completeRemqhi header d forward s = .ok ((State.afterDest { s with
      mem := (s.mem.write4 (header + forward + link + 4) (header - (header + forward + link))).write4
        header (header + forward + link - header) } d (header + forward)).setCC false
      (header + forward + link - header == 0) false false) := by
  simp only [State.writable, List.all_cons, List.all_nil, Bool.and_true, Bool.and_eq_true,
    Bool.not_eq_true'] at hw
  simp only [completeRemqhi]
  rw [(demand_ok (u := ())).2 hp, ok_bind, load_alone ha _ hr, ok_bind,
    linkConditions_eq_nil.2 ⟨hl, hq⟩, raiseAny_nil, ok_bind,
    (require_ok (u := ())).2 hs, ok_bind, (require_ok (u := ())).2 hd, ok_bind, store_alone ha _ _ hw.2,
      ok_bind, store_then ha hw.1, ok_bind,
    load_then ha (v := header + forward + link - header) (read4_write4_same ..), ok_bind]
  dsimp only
  rw [writeDest_then ha ht, ok_bind]

theorem completeRemqti_alone {header forward back link : Word} {d : Dest} {s : State}
    (ha : s.alone = true) (hp : s.probe (header + back + 4) 4 .read = none)
    (hr : s.mem.read4 (header + back + 4) = some link) (hl : aligned8 link = true)
    (hq : s.probe (header + back + link) 4 .write = none)
    (hs : elementsApart (header + back) (header + back + link) = true)
    (hd : destApart d header forward [header + back, header + back + link] s = true)
    (ht : s.acceptsDest d = true)
    (hw : s.writable [header, header + 4, header + back + link] = true) :
    completeRemqti header d forward back s = .ok ((State.afterDest { s with
      mem := if header + back + link = header then (s.mem.write4 (header + back + link)
        (header - (header + back + link))).write4 (header + 4) (header + back + link - header) else
        ((s.mem.write4 (header + back + link) (header - (header + back + link))).write4 (header + 4)
        (header + back + link - header)).write4 header forward } d (header + back)).setCC false
      (header + back + link - header == 0) false false) := by
  simp only [State.writable, List.all_cons, List.all_nil, Bool.and_true, Bool.and_eq_true,
    Bool.not_eq_true'] at hw
  simp only [completeRemqti]
  rw [(demand_ok (u := ())).2 hp, ok_bind, load_alone ha _ hr, ok_bind,
    linkConditions_eq_nil.2 ⟨hl, hq⟩, raiseAny_nil, ok_bind,
    (require_ok (u := ())).2 hs, ok_bind, (require_ok (u := ())).2 hd, ok_bind, store_alone ha _ _ hw.2.2,
      ok_bind, store_then ha hw.2.1, ok_bind, unlockForward_alone ha hw.1,
    ok_bind, load_then ha (v := header + back + link - header), ok_bind]
  dsimp only
  rw [writeDest_then ha ht, ok_bind]
  split
  · exact read4_write4_same ..
  · rw [read4_write4_apart _ _ (link_links_apart header), read4_write4_same]

theorem removeFromEmpty_alone {header link v : Word} {d : Dest} {s : State} (ha : s.alone = true)
    (hd : d.apart header = true) (hr : s.mem.read4 link = some v) (ht : s.acceptsDest d = true) :
    removeFromEmpty header d link s = .ok ((s.afterDest d header).setCC false (v == 0) true false) := by
  simp only [removeFromEmpty]
  rw [(require_ok (u := ())).2 hd, ok_bind, load_alone ha _ hr, ok_bind, writeDest_alone ha _ ht,
    ok_bind]

/-! ## Absolute queues -/

theorem insertAbsolute_alone {entry pred succ : Word} {s : State} (ha : s.alone = true)
    (he : s.probe entry 8 .write = none) (hp : s.probe pred 4 .write = none)
    (hr : s.mem.read4 pred = some succ) (hq : s.probe (succ + 4) 4 .write = none)
    (h1 : ((pred :: succ :: s.absEntries pred succ).all (elementsApart entry)) = true)
    (h3 : succ = pred ∨ elementsApart succ pred = true)
    (ht : s.writable [entry, entry + 4, succ + 4, pred] = true) :
    insertAbsolute entry pred s = .ok (State.compareCC { s with
      mem := (((s.mem.write4 entry succ).write4 (entry + 4) pred).write4 (succ + 4) entry).write4 pred
        entry } succ pred false) := by
  simp only [State.writable, List.all_cons, List.all_nil, Bool.and_true, Bool.and_eq_true,
    Bool.not_eq_true'] at ht
  obtain ⟨t1, t2, t3, t4⟩ := ht
  have h1' := h1
  simp only [List.all_cons, Bool.and_eq_true] at h1'
  have l := links_apart h1'.2.1
  have k := links_apart h1'.1
  have h3' : (succ == pred || elementsApart succ pred) = true := by simpa using h3
  simp only [insertAbsolute, he, hp, addCondition_none, raiseAny_nil]
  rw [ok_bind, load_alone ha _ hr, ok_bind, (demand_ok (u := ())).2 hq, ok_bind,
    (require_ok (u := ())).2 h1, ok_bind, (require_ok (u := ())).2 h3', ok_bind, store_alone ha _ _ t1,
      ok_bind, store_then ha t2, ok_bind, store_then ha t3, ok_bind,
    store_then ha t4, ok_bind, load_then ha (v := succ), ok_bind, load_then ha (v := pred), ok_bind]
  · rw [read4_write4_apart _ _ (overlaps_comm .. ▸ k.2.2.1),
      read4_write4_apart _ _ (overlaps_comm .. ▸ l.2.2.2), read4_write4_same]
  · rw [read4_write4_apart _ _ (overlaps_comm .. ▸ k.1),
      read4_write4_apart _ _ (overlaps_comm .. ▸ l.2.1),
      read4_write4_apart _ _ (overlaps_comm .. ▸ link_links_apart entry), read4_write4_same]

theorem removeAbsolute_alone {entry f b : Word} {d : Dest} {s : State} (ha : s.alone = true)
    (he : s.probe entry 8 .read = none) (hf : s.mem.read4 entry = some f)
    (hb : s.mem.read4 (entry + 4) = some b) (hp : s.probe b 4 .write = none)
    (hq : s.probe (f + 4) 4 .write = none)
    (h1 : AbsQueue s.mem entry (s.absEntries entry f) = true)
    (hd : d.apartAll (entry :: s.absEntries entry f) = true)
    (ht : s.acceptsDest d = true) (hw : s.writable [b, f + 4] = true) :
    removeAbsolute entry d s = .ok ((State.afterDest { s with
      mem := (s.mem.write4 b f).write4 (f + 4) b } d entry).compareCC f b (entry == b)) := by
  simp only [State.writable, List.all_cons, List.all_nil, Bool.and_true, Bool.and_eq_true,
    Bool.not_eq_true'] at hw
  have hdest : s.probeDest d = none := by
    cases d with
    | reg n => rfl
    | mem a =>
      simp only [State.acceptsDest, Bool.and_eq_true, beq_iff_eq] at ht
      exact ht.1
  simp only [removeAbsolute, he, hdest, addCondition_none, raiseAny_nil]
  rw [ok_bind, load_alone ha _ hf, ok_bind, load_alone ha _ hb]
  simp only [ok_bind, State.neighbourConditions, hp, hq, addCondition_none, raiseAny_nil]
  rw [(require_ok (u := ())).2 h1, ok_bind, (require_ok (u := ())).2 hd, ok_bind, store_alone ha _ _ hw.1,
    ok_bind, store_then ha hw.2, ok_bind,
    writeDest_then ha ht, ok_bind]

/-! ## Conditions of the absolute instructions -/

/-- The conditions INSQUE looks for are those it may raise (R132, R183). -/
theorem mem_insqueConditions {s : State} {e p : Word} {x : Exception} :
    x ∈ addCondition (s.probe e 8 .write) (addCondition (s.probe p 4 .write) []) ++ s.insqueLinks p ↔
      InsqueCondition s e p x := by
  unfold State.insqueLinks InsqueCondition
  rcases s.probe p 4 .write with - | y
  · rcases s.mem.read4 p with - | q <;> simp [mem_addCondition]
  · simp [mem_addCondition]

/-- The conditions REMQUE looks for are those it may raise (R152, R183). -/
theorem mem_remqueConditions {s : State} {e : Word} {d : Dest} {x : Exception} :
    x ∈ addCondition (s.probeDest d) (addCondition (s.probe e 8 .read) []) ++ s.remqueLinks e ↔
      RemqueCondition s e d x := by
  have hd : s.probeDest d = some x ↔ ∃ a, d = .mem a ∧ s.probe a 4 .write = some x := by
    cases d <;> simp [State.probeDest]
  unfold State.remqueLinks RemqueCondition
  rcases s.probe e 8 .read with - | y
  · rcases s.mem.read4 e with - | f <;> rcases s.mem.read4 (e + 4) with - | b <;>
      simp [mem_addCondition, State.neighbourConditions, hd]
  · simp [mem_addCondition, hd, or_comm]

theorem no_insqueCondition {s : State} {e p : Word}
    (h1 : addCondition (s.probe e 8 .write) (addCondition (s.probe p 4 .write) []) = [])
    (h2 : s.insqueLinks p = []) (x : Exception) : ¬ InsqueCondition s e p x := by
  rw [← mem_insqueConditions, h1, h2]
  simp

theorem no_remqueCondition {s : State} {e : Word} {d : Dest}
    (h1 : addCondition (s.probeDest d) (addCondition (s.probe e 8 .read) []) = [])
    (h2 : s.remqueLinks e = []) (x : Exception) : ¬ RemqueCondition s e d x := by
  rw [← mem_remqueConditions, h1, h2]
  simp

/-! ## After the operands -/

theorem Evaluates.probe {l : List Reg} {n : Nat} {s t : State} (x : Evaluates l n s t) (a : Word) (k : Nat)
    (kind : AccessKind) : t.probe a k kind = s.probe a k kind := by
  simp only [State.probe, (x.follows none).params, x.psl, x.mem]

theorem Evaluates.inText {l : List Reg} {n : Nat} {s t : State} (x : Evaluates l n s t) (a : Word)
    (k : Nat) : t.inText a k = s.inText a k := (x.follows none).inText a k

theorem Evaluates.writable {l : List Reg} {n : Nat} {s t : State} (x : Evaluates l n s t)
    (as : List Word) : t.writable as = s.writable as := by
  simp only [State.writable, x.inText]

theorem Evaluates.acceptsDest {l : List Reg} {n : Nat} {s t : State} (x : Evaluates l n s t) (d : Dest) :
    t.acceptsDest d = s.acceptsDest d := by
  cases d <;> simp only [State.acceptsDest, x.probe, x.inText]

theorem Evaluates.isAlone {l : List Reg} {n : Nat} {s t : State} (x : Evaluates l n s t)
    (h : s.others = []) : t.alone = true := by
  rw [(x.follows none).alone]
  simp [State.alone, h]

/-- The conditions of an insertion are those of phase 1 and of the header's bits 2:1. -/
theorem mem_insertionConditions {s : State} {e h f : Word} {x : Exception} :
    (x ∈ insertionConditions e h s ∨ x = .reservedOperand ∧ field f 1 2 ≠ 0) ↔
      InsertionCondition s e h f x := by
  simp only [insertionConditions, mem_addCondition, conditionIf_eq_some, List.not_mem_nil, or_false,
    InsertionCondition, Bool.or_eq_true, Bool.not_eq_true', beq_iff_eq]
  constructor
  · rintro ((h1 | ⟨(h1 | h1) | h1, rfl⟩) | ⟨rfl, h1⟩)
    · exact .inr h1
    · exact .inl ⟨rfl, .inl h1⟩
    · exact .inl ⟨rfl, .inr (.inl h1)⟩
    · exact .inl ⟨rfl, .inr (.inr (.inl h1))⟩
    · exact .inl ⟨rfl, .inr (.inr (.inr h1))⟩
  · rintro (⟨rfl, h1 | h1 | h1 | h1⟩ | h1)
    · exact .inl (.inr ⟨.inl (.inl h1), rfl⟩)
    · exact .inl (.inr ⟨.inl (.inr h1), rfl⟩)
    · exact .inl (.inr ⟨.inr h1, rfl⟩)
    · exact .inr ⟨rfl, h1⟩
    · exact .inl (.inl h1)

/-- The conditions of a removal are those of phase 1 and of the header's bits 2:1. -/
theorem mem_removalConditions {s : State} {h f : Word} {d : Dest} {x : Exception} :
    (x ∈ removalConditions h d s ∨ x = .reservedOperand ∧ field f 1 2 ≠ 0) ↔
      RemovalCondition s h d f x := by
  have hd : s.probeDest d = some x ↔ ∃ a, d = .mem a ∧ s.probe a 4 .write = some x := by
    cases d <;> simp [State.probeDest]
  simp only [removalConditions, mem_addCondition, conditionIf_eq_some, List.not_mem_nil, or_false,
    RemovalCondition, Bool.or_eq_true, Bool.not_eq_true', beq_iff_eq, hd]
  constructor
  · rintro ((h1 | ⟨h1 | h1, rfl⟩) | ⟨rfl, h1⟩)
    · exact .inr h1
    · exact .inl ⟨rfl, .inl h1⟩
    · exact .inl ⟨rfl, .inr (.inl h1)⟩
    · exact .inl ⟨rfl, .inr (.inr h1)⟩
  · rintro (⟨rfl, h1 | h1 | h1⟩ | h1)
    · exact .inl (.inr ⟨.inl h1, rfl⟩)
    · exact .inl (.inr ⟨.inr h1, rfl⟩)
    · exact .inr ⟨rfl, h1⟩
    · exact .inl (.inl h1)

/-- The list of conditions phase 2 works with (R106, `E`). -/
theorem mem_insertionSet {s : State} {e h f : Word} {x : Exception} :
    x ∈ addCondition (conditionIf (field f 1 2 != 0) .reservedOperand) (insertionConditions e h s) ↔
      InsertionCondition s e h f x := by
  rw [← mem_insertionConditions, mem_addCondition, or_comm, conditionIf_eq_some, bne_iff_ne,
    eq_comm (a := Exception.reservedOperand), and_comm]

theorem mem_removalSet {s : State} {h f : Word} {d : Dest} {x : Exception} :
    x ∈ addCondition (conditionIf (field f 1 2 != 0) .reservedOperand) (removalConditions h d s) ↔
      RemovalCondition s h d f x := by
  rw [← mem_removalConditions, mem_addCondition, or_comm, conditionIf_eq_some, bne_iff_ne,
    eq_comm (a := Exception.reservedOperand), and_comm]

theorem insertionConditions_of_none {s : State} {e h f : Word} (hn : ∀ x, ¬ InsertionCondition s e h f x) :
    insertionConditions e h s = [] ∧ field f 1 2 = 0 := by
  refine ⟨List.eq_nil_iff_forall_not_mem.2 fun x hx => hn x (mem_insertionConditions.1 (.inl hx)), ?_⟩
  by_contra h0
  exact hn _ (mem_insertionConditions.1 (.inr ⟨rfl, h0⟩))

theorem removalConditions_of_none {s : State} {h f : Word} {d : Dest}
    (hn : ∀ x, ¬ RemovalCondition s h d f x) : removalConditions h d s = [] ∧ field f 1 2 = 0 := by
  refine ⟨List.eq_nil_iff_forall_not_mem.2 fun x hx => hn x (mem_removalConditions.1 (.inl hx)), ?_⟩
  by_contra h0
  exact hn _ (mem_removalConditions.1 (.inr ⟨rfl, h0⟩))

/-- No condition holds when phase 1 finds none and the header's bits 2:1 are zero. -/
theorem no_insertionCondition {s : State} {e h f : Word} (hE : insertionConditions e h s = [])
    (hf : field f 1 2 = 0) (x : Exception) : ¬ InsertionCondition s e h f x := by
  rw [← mem_insertionConditions, hE]
  simp [hf]

theorem no_removalCondition {s : State} {h f : Word} {d : Dest} (hE : removalConditions h d s = [])
    (hf : field f 1 2 = 0) (x : Exception) : ¬ RemovalCondition s h d f x := by
  rw [← mem_removalConditions, hE]
  simp [hf]

theorem Evaluates.insertionConditions {l : List Reg} {n : Nat} {s t : State} (x : Evaluates l n s t)
    (e h : Word) : Machine.insertionConditions e h t = Machine.insertionConditions e h s := by
  simp only [Machine.insertionConditions, x.probe]

theorem Evaluates.removalConditions {l : List Reg} {n : Nat} {s t : State} (x : Evaluates l n s t)
    (h : Word) (d : Dest) : Machine.removalConditions h d t = Machine.removalConditions h d s := by
  have : t.probeDest d = s.probeDest d := by cases d <;> simp only [State.probeDest, x.probe]
  simp only [Machine.removalConditions, this]

theorem Evaluates.consistentHeader {l : List Reg} {n : Nat} {s t : State} (x : Evaluates l n s t)
    (h f : Word) : Machine.consistentHeader t h f = Machine.consistentHeader s h f := by
  simp only [Machine.consistentHeader, x.mem]

theorem release_of_none {s : State} (h : s.cpu.pending = none) : s.release = s := by
  obtain ⟨⟨regs, psl, pending, touched⟩, others, turns, mem, params, draws⟩ := s
  simp only at h
  subst h
  rfl

theorem Evaluates.raceFree {l : List Reg} {n : Nat} {s t : State} (x : Evaluates l n s t)
    (via : Option Word) (a : Word) : t.raceFree via a = s.raceFree via a := by
  simp only [State.raceFree, (x.follows none).others]

/-- The link conditions stand as they were before the operands. -/
theorem Evaluates.linkCondition {l : List Reg} {n : Nat} {s t : State} (x : Evaluates l n s t) (i : Instr)
    (h f : Word) (e : Exception) : LinkCondition i t h f e ↔ LinkCondition i s h f e := by
  cases i <;> simp only [LinkCondition, FollowCondition, x.probe, x.mem]

/-- Phase 2 on a header that can be read without a race: what it answers. -/
theorem acquire_raceFree {header f : Word} {early : List Exception} {links : Word → List Exception} {s : State}
    (hr : s.raceFree (some header) header = true) (hp : s.probe header 8 .write = none)
    (hm : s.mem.read4 header = some f) :
    ∃ t, OnlyTouched s t ∧ (s.alone = true → t.cpu.touched = s.cpu.touched) ∧
      let conditions := addCondition (conditionIf (field f 1 2 != 0) .reservedOperand) early
      (interlockSet f = true → conditions = [] → acquire header early links s = .ok (none, t)) ∧
      (interlockSet f = true → conditions ≠ [] →
        (∃ x ∈ conditions, acquire header early links s = .error (.raise x)) ∨
          acquire header early links s = .ok (none, { t with draws := t.draws + 1 })) ∧
      (interlockSet f = false → conditions = [] → acquire header early links s = .ok (some f, t)) ∧
      (interlockSet f = false → conditions ≠ [] →
        ∃ x ∈ conditions ++ links f, acquire header early links s = .error (.raise x)) := by
  obtain ⟨t, ht, ho, ha⟩ := load_raceFree hr hm
  refine ⟨t, ho, ha, ?_⟩
  have hacq : acquire header early links s =
      let conditions := addCondition (conditionIf (field f 1 2 != 0) .reservedOperand) early
      if interlockSet f then
        match conditions with
        | [] => .ok (none, t)
        | e :: rest =>
          if Config.unpredChoice t.draws then .error (.raise (t.choose e rest))
          else .ok (none, { t with draws := t.draws + 1 })
      else t.raiseAny conditions (links f) >>= fun _ => .ok (some f, t) := by
    rw [acquire, hp]
    change s.load _ _ >>= _ = _
    rw [ht]
    rfl
  rw [hacq]
  intro C
  refine ⟨fun h1 h2 => ?_, fun h1 h2 => ?_, fun h1 h2 => ?_, fun h1 h2 => ?_⟩
  · simp [h1, show addCondition _ _ = [] from h2]
  · simp only [h1, if_true]
    obtain ⟨e, rest, hE⟩ := List.exists_cons_of_ne_nil h2
    simp only [C] at hE ⊢
    rw [hE]
    dsimp only
    split
    · exact .inl ⟨_, choose_mem t e rest, rfl⟩
    · exact .inr rfl
  · simp [h1, show addCondition _ _ = [] from h2]
  · obtain ⟨x, hx, hy⟩ := raiseAny_of_ne_nil (s := t) h2 (links f)
    refine ⟨x, hx, ?_⟩
    simp only [C] at hy
    simp [h1, hy]
/-- Phase 2 after the operands, on a header whose interlock is clear, with no condition. -/
theorem Evaluates.acquire {l : List Reg} {n : Nat} {s t : State} (x : Evaluates l n s t)
    {conditions : List Exception} {links : Word → List Exception} {h f : Word} (ho : s.others = [])
      (hp : s.probe h 8 .write = none)
    (hf : s.mem.read4 h = some f) (hi : interlockSet f = false) (hl : field f 1 2 = 0)
    (hE : conditions = []) : Machine.acquire h conditions links t = .ok (some f, t) := by
  subst hE
  exact acquire_clear (x.isAlone ho) (by rw [x.probe, hp]) (by rw [x.mem, hf]) hi hl

/-! ## An instruction once its operands are evaluated -/

theorem exec_insqhi {a b : Specifier} {s t : State} {e h : Word} (hp : s.cpu.pending = none)
    (he : evalInsertion .quad a b s = .ok (e, h, t)) :
    exec (.insqhi a b) s = afterStepA s (acquireInsqhi s e h t) := by
  simp only [exec, execInsqhi, release_of_none hp, he, ok_bind]

theorem exec_insqti {a b : Specifier} {s t : State} {e h : Word} (hp : s.cpu.pending = none)
    (he : evalInsertion .quad a b s = .ok (e, h, t)) :
    exec (.insqti a b) s = afterStepA s (acquireInsqti s e h t) := by
  simp only [exec, execInsqti, release_of_none hp, he, ok_bind]

theorem exec_remqhi {a b : Specifier} {s t : State} {h : Word} {d : Dest} (hp : s.cpu.pending = none)
    (he : evalRemoval .quad a b s = .ok (h, d, t)) :
    exec (.remqhi a b) s = afterStepA s (acquireRemqhi s h d t) := by
  simp only [exec, execRemqhi, release_of_none hp, he, ok_bind]

theorem exec_remqti {a b : Specifier} {s t : State} {h : Word} {d : Dest} (hp : s.cpu.pending = none)
    (he : evalRemoval .quad a b s = .ok (h, d, t)) :
    exec (.remqti a b) s = afterStepA s (acquireRemqti s h d t) := by
  simp only [exec, execRemqti, release_of_none hp, he, ok_bind]

theorem exec_insque {a b : Specifier} {s t : State} {e p : Word}
    (he : evalInsertion .byte a b s = .ok (e, p, t)) :
    exec (.insque a b) s = finish s (insertAbsolute e p t) := by
  simp only [exec, execInsque, he, ok_bind]

theorem exec_remque {a b : Specifier} {s t : State} {e : Word} {d : Dest}
    (he : evalRemoval .byte a b s = .ok (e, d, t)) :
    exec (.remque a b) s = finish s (removeAbsolute e d t) := by
  simp only [exec, execRemque, he, ok_bind]

/-- Step A of INSQHI once phase 2 found the interlock clear. -/
theorem acquireInsqhi_clear {start t u : State} {e h f : Word}
    (ha : ∀ links, acquire h (insertionConditions e h t) links t = .ok (some f, u)) :
    acquireInsqhi start e h t = if consistentHeader u h f = true then hold start (.insqhi e) h f u
      else .error (.refuse .inconsistentHeader) := by
  simp only [acquireInsqhi, ha, ok_bind, require]
  split <;> rfl

theorem acquireInsqti_clear {start t u : State} {e h f : Word}
    (ha : ∀ links, acquire h (insertionConditions e h t) links t = .ok (some f, u)) :
    acquireInsqti start e h t = hold start (.insqti e) h f u := by
  simp only [acquireInsqti, ha, ok_bind]

theorem acquireRemqhi_clear {start t u : State} {h f : Word} {d : Dest}
    (ha : ∀ links, acquire h (removalConditions h d t) links t = .ok (some f, u)) :
    acquireRemqhi start h d t = if consistentHeader u h f = true then
        (if f = 0 then removeFromEmpty h d h u else hold start (.remqhi d) h f u)
      else .error (.refuse .inconsistentHeader) := by
  simp only [acquireRemqhi, ha, ok_bind, require]
  split <;> rfl

/-- Step A of REMQTI once phase 2 found the interlock clear and the backward link is read. -/
theorem acquireRemqti_clear {start t u v : State} {h f b : Word} {d : Dest}
    (ha : ∀ links, acquire h (removalConditions h d t) links t = .ok (some f, u))
    (hl : u.load (some h) (h + 4) = .ok (b, v)) :
    (aligned8 b = true → acquireRemqti start h d t = if (f = 0 ↔ b = 0) then
        (if f = 0 then removeFromEmpty h d (h + 4) v else hold start (.remqti d b) h f v)
      else .error (.refuse .inconsistentHeader)) ∧
    (aligned8 b = false → ∃ x ∈ Exception.reservedOperand :: v.remqtiTail h f b,
      acquireRemqti start h d t = .error (.raise x)) := by
  constructor
  · intro hb
    have hc : ((f == 0) == (b == 0)) = decide (f = 0 ↔ b = 0) := by
      rw [Bool.eq_iff_iff, beq_iff_eq, Bool.eq_iff_iff, beq_iff_eq, beq_iff_eq, decide_eq_true_iff]
    simp only [acquireRemqti, ha, ok_bind, hl, hb, Bool.not_true, conditionIf, Bool.false_eq_true, if_false,
      addCondition_none, raiseAny_nil, require, hc, decide_eq_true_iff]
    split <;> rfl
  · intro hb
    refine ⟨_, choose_mem v .reservedOperand (v.remqtiTail h f b), ?_⟩
    simp only [acquireRemqti, ha, ok_bind, hl, hb]
    rfl
/-! ## Step A and step B in one -/

/-- The state `v` between step A and step B, where `t` is the state after the operands: the interlock is set
and the operands are kept. -/
structure Between (t v : State) (header f : Word) : Prop where
  mem : v.mem = t.mem.write4 header (f ||| 1)
  eq : { v with mem := t.mem, cpu := { v.cpu with pending := t.cpu.pending } } = t

/-- Setting the interlock changes no more than the header's forward link, which memory held. -/
theorem Between.domain {t v : State} {header f : Word} (m : Between t v header f)
    (hr : t.mem.read4 header = some f) : SameDomain t.mem v.mem := by
  rw [m.mem]
  exact sameDomain_write4 _ (isSome_of_read4 hr)

theorem Between.probe {t v : State} {header f : Word} (m : Between t v header f)
    (hr : t.mem.read4 header = some f) (a : Word) (n : Nat) (k : AccessKind) :
    v.probe a n k = t.probe a n k := by
  have h : v.probe a n k = t.params.access.probe v.mem k (modeOf t.cpu.psl) a n := by
    rw [← m.eq]
    rfl
  rw [h, (m.domain hr).probe]
  rfl

theorem Between.writable {t v : State} {header f : Word} (m : Between t v header f) (as : List Word) :
    v.writable as = t.writable as := by
  rw [← m.eq]
  rfl

theorem Between.inText {t v : State} {header f : Word} (m : Between t v header f) (a : Word) (n : Nat) :
    v.inText a n = t.inText a n := by
  rw [← m.eq]
  rfl

theorem Between.acceptsDest {t v : State} {header f : Word} (m : Between t v header f)
    (hr : t.mem.read4 header = some f) (d : Dest) : v.acceptsDest d = t.acceptsDest d := by
  cases d <;> simp only [State.acceptsDest, m.probe hr, m.inText]

theorem Between.alone {t v : State} {header f : Word} (m : Between t v header f)
    (h : t.alone = true) : v.alone = true := by
  rw [← m.eq] at h
  exact h

/-- A processor that is alone and holds the interlock goes on with step B. -/
theorem afterStepA_hold {start t : State} {op : HeldOp} {header f : Word} (ha : t.alone = true)
    (ht : t.inText header 4 = false) :
    ∃ v, afterStepA start (hold start op header f t) =
        stepB { op, header, forward := f, startRegs := start.cpu.regs } v ∧ Between t v header f := by
  refine ⟨{ t with
    mem := t.mem.write4 header (f ||| 1)
    cpu := { t.cpu with
      pending := some { op, header, forward := f, startRegs := start.cpu.regs } } }, ?_, rfl, rfl⟩
  rw [hold_alone ha ht]
  simp only [afterStepA]
  rw [if_pos]
  exact ha

/-- Step B undone leaves the state step A started from, when the header's link is put back. -/
theorem Between.release {t v : State} {header f : Word} (m : Between t v header f)
    (hp : t.cpu.pending = none) (M : Memory) :
    State.release { v with mem := M } = { t with mem := M } := by
  have e := m.eq
  rw [hp] at e
  rw [← e]
  rfl

/-- What a fault of step B of a processor that is alone leaves: the state before the instruction. -/
theorem Between.undo {l : List Reg} {n : Nat} {s t v : State} {op : HeldOp} {h f : Word}
    (m : Between t v h f) (ev : Evaluates l n s t) (hw : s.mem.wf = true) (hp : s.cpu.pending = none)
    (ho : s.others = []) (hr : s.mem.read4 h = some f) :
    undoHeld { op, header := h, forward := f, startRegs := s.cpu.regs } v = s := by
  have hmem : v.mem.write4 h f = s.mem := by
    rw [m.mem, ev.mem, write4_write4_same _ _ _ hw, write4_read4_same hw hr]
  have e := m.eq
  have hal : s.alone = true := by simp [State.alone, ho]
  obtain ⟨⟨vr, vp, vq, vt⟩, vo, vtu, vm, vpa, vd⟩ := v
  obtain ⟨⟨tr, tp, tq, tt⟩, toth, ttu, tm, tpa, td⟩ := t
  obtain ⟨⟨sr, sp, sq, st⟩, so, stu, sm, spa, sd⟩ := s
  simp only [State.mk.injEq, Cpu.mk.injEq] at e
  have f1 := (ev.follows none).params
  have f2 := (ev.follows none).others
  have f3 := (ev.follows none).turns
  have f4 := ev.psl
  have f5 := ev.draws
  have f6 := ev.alone hal
  simp only [undoHeld] at *
  simp [hmem, hp, e, f1, f2, f3, f4, f5, f6]

/-- A longword that shares no byte with the header's forward link reads as before. -/
theorem Between.read4 {t v : State} {h f : Word} (m : Between t v h f) {a : Word}
    (hn : overlaps h 4 a 4 = false) : v.mem.read4 a = t.mem.read4 a := by
  rw [m.mem, read4_write4_apart _ _ hn]

theorem aligned_apart {h a : Word} (hh : aligned8 h = true) (ha : aligned8 a = true) (hn : a ≠ h) :
    overlaps h 4 a 4 = false ∧ overlaps h 4 (a + 4) 4 = false :=
  have := links_apart (elementsApart_of_aligned hh ha (Ne.symm hn))
  ⟨this.1, this.2.1⟩

theorem aligned_second_apart {h a : Word} (hh : aligned8 h = true) (ha : aligned8 a = true) :
    overlaps h 4 (a + 4) 4 = false := by
  by_cases hn : a = h
  · subst hn; exact link_links_apart _
  · exact (aligned_apart hh ha hn).2

/-- Step B's outcome where it raises. -/
theorem stepB_raises {p : Pending} {v : State} {E F : List Exception} (hE : E ≠ [])
    {k : Unit → Res State} (h : completeHeld p v = (v.raiseAny E F >>= k)) :
    ∃ x ∈ E ++ F, stepB p v = .fault (.raised x (undoHeld p v)) := by
  obtain ⟨x, hx, hr⟩ := raiseAny_of_ne_nil (s := v) hE F
  refine ⟨x, hx, ?_⟩
  simp [stepB, h, hr, Stop.outcome, takeFault]

/-- A refused check of step B. -/
theorem stepB_refuses {p : Pending} {v : State} {r : Refusal} (h : completeHeld p v = .error (.refuse r)) :
    stepB p v = .refused r := by
  simp only [stepB, h, Stop.outcome]

theorem hold_refuses {start s : State} {op : HeldOp} {h f : Word} (ht : s.inText h 4 = true) :
    hold start op h f s = .error (.refuse (.programTextStore h)) := by
  simp [hold, State.store, ht, require]

end Sys2Proof.Machine
end

