-- ==== Sys2Proof/Laws/Chain.lean ====
section
/-! SUPPORT. Chains of linked elements: reading them off a queue, joining and cutting them, and carrying them
over to a memory that differs elsewhere (spec/40_queue_common.md R101, R103). -/

namespace Sys2Proof.Machine

/-- A longword that shares no byte with the ranges reads as before. -/
theorem sameOutside_read4 {m m' : Memory} {l : List (Word × Nat)} (s : sameOutside m m' l) {a : Word}
    (h : ∀ r ∈ l, overlaps a 4 r.1 r.2 = false) : m'.read4 a = m.read4 a := by
  have key (k : Word) (hk : k.toNat < 4) :
      m'.readByte (a + k).toNat = m.readByte (a + k).toNat := by
    refine s _ fun r hr hi => ?_
    have := h r hr
    simp only [overlaps, InRange, Bool.or_eq_false_iff, Bool.and_eq_false_iff,
      decide_eq_false_iff_not] at this hi
    bv_omega
  have k0 := key 0 (by decide)
  rw [read4_eq, read4_eq]
  rw [show a + 0 = a from BitVec.add_zero a] at k0
  rw [k0, key 1 (by decide), key 2 (by decide), key 3 (by decide)]

/-! ## Self-relative chains -/

theorem selfLinked_iff {m : Memory} {x y : Word} : selfLinked m x y = true ↔
    m.read4 x = some (y - x) ∧ m.read4 (y + 4) = some (x - y) := by
  simp [selfLinked]

theorem selfChain_append (m : Memory) (z x y : Word) (xs ys : List Word) :
    selfChain m z x (xs ++ y :: ys) = (selfChain m y x xs && selfChain m z y ys) := by
  induction xs generalizing x with
  | nil => rfl
  | cons w ws ih => simp [selfChain, ih, Bool.and_assoc]

/-- A chain stands in any memory that reads alike at its links. -/
theorem selfChain_congr {m m' : Memory} {z x : Word} {xs : List Word}
    (hf : ∀ w ∈ x :: xs, m'.read4 w = m.read4 w)
    (hb : ∀ w ∈ xs ++ [z], m'.read4 (w + 4) = m.read4 (w + 4)) :
    selfChain m' z x xs = selfChain m z x xs := by
  induction xs generalizing x with
  | nil =>
    simp only [selfChain, selfLinked]
    rw [hf x (by simp), hb z (by simp)]
  | cons w ws ih =>
    simp only [selfChain, selfLinked]
    rw [hf x (by simp), hb w (by simp), ih (fun v hv => hf v (by simp [hv]))
      (fun v hv => hb v (by simp at hv ⊢; tauto))]

theorem selfChain_forward {m : Memory} {z x : Word} {xs : List Word} (h : selfChain m z x xs = true) :
    m.read4 x = some (xs.headD z - x) := by
  cases xs with
  | nil => exact (selfLinked_iff.1 h).1
  | cons w ws =>
    simp only [selfChain, Bool.and_eq_true] at h
    exact (selfLinked_iff.1 h.1).1

theorem selfChain_backward {m : Memory} {z x : Word} {xs : List Word} (h : selfChain m z x xs = true) :
    m.read4 (z + 4) = some (xs.getLastD x - z) := by
  rcases List.eq_nil_or_concat xs with rfl | ⟨ws, w, rfl⟩
  · exact (selfLinked_iff.1 h).2
  · rw [List.concat_eq_append, selfChain_append, Bool.and_eq_true] at h
    simpa [List.getLastD_eq_getLast?] using (selfLinked_iff.1 h.2).2

/-! ## Absolute chains -/

theorem absLinked_iff {m : Memory} {x y : Word} : absLinked m x y = true ↔
    m.read4 x = some y ∧ m.read4 (y + 4) = some x := by
  simp [absLinked]

theorem absChain_append (m : Memory) (z x y : Word) (xs ys : List Word) :
    absChain m z x (xs ++ y :: ys) = (absChain m y x xs && absChain m z y ys) := by
  induction xs generalizing x with
  | nil => rfl
  | cons w ws ih => simp [absChain, ih, Bool.and_assoc]

/-- A chain stands in any memory that reads alike at its links. -/
theorem absChain_congr {m m' : Memory} {z x : Word} {xs : List Word}
    (hf : ∀ w ∈ x :: xs, m'.read4 w = m.read4 w)
    (hb : ∀ w ∈ xs ++ [z], m'.read4 (w + 4) = m.read4 (w + 4)) :
    absChain m' z x xs = absChain m z x xs := by
  induction xs generalizing x with
  | nil =>
    simp only [absChain, absLinked]
    rw [hf x (by simp), hb z (by simp)]
  | cons w ws ih =>
    simp only [absChain, absLinked]
    rw [hf x (by simp), hb w (by simp), ih (fun v hv => hf v (by simp [hv]))
      (fun v hv => hb v (by simp at hv ⊢; tauto))]

theorem absChain_forward {m : Memory} {z x : Word} {xs : List Word} (h : absChain m z x xs = true) :
    m.read4 x = some (xs.headD z) := by
  cases xs with
  | nil => exact (absLinked_iff.1 h).1
  | cons w ws =>
    simp only [absChain, Bool.and_eq_true] at h
    exact (absLinked_iff.1 h.1).1

theorem absChain_backward {m : Memory} {z x : Word} {xs : List Word} (h : absChain m z x xs = true) :
    m.read4 (z + 4) = some (xs.getLastD x) := by
  rcases List.eq_nil_or_concat xs with rfl | ⟨ws, w, rfl⟩
  · exact (absLinked_iff.1 h).2
  · rw [List.concat_eq_append, absChain_append, Bool.and_eq_true] at h
    simpa [List.getLastD_eq_getLast?] using (absLinked_iff.1 h.2).2

/-! ## The elements that forward links reach -/

/-- Following forward links does not look at the header's own link: it reaches the same entries in a memory
that differs there only. -/
theorem selfEntries_congr {m m' : Memory} {h : Word}
    (e : ∀ x, aligned8 x = true → x ≠ h → m'.read4 x = m.read4 x) (n : Nat) (x : Word) :
    selfEntries m' h n x = selfEntries m h n x := by
  induction n generalizing x with
  | zero => rfl
  | succ n ih =>
    simp only [selfEntries]
    split
    · rfl
    · rename_i hx
      simp only [not_or, Bool.not_eq_false] at hx
      rw [e x hx.2 hx.1]
      rcases m.read4 x with - | l
      · rfl
      · simp only [ih]

/-- Setting the interlock of a header changes no entry that its forward links reach. -/
theorem selfEntries_write4_header (m : Memory) {h : Word} (ha : aligned8 h = true) (v : Word) (n : Nat)
    (x : Word) : selfEntries (m.write4 h v) h n x = selfEntries m h n x :=
  selfEntries_congr (fun _ hx hn => read4_write4_apart _ _
    (links_apart (elementsApart_of_aligned ha hx (Ne.symm hn))).1) n x

/-- Along a chain the forward links reach its entries, in order. -/
theorem selfEntries_chain {m : Memory} {h x : Word} {L : List Word} (hc : selfChain m h x L = true)
    (ha : ∀ y ∈ L, aligned8 y = true) (hn : h ∉ L) (n : Nat) :
    selfEntries m h n (L.headD h) = L.take n := by
  induction n generalizing x L with
  | zero => rfl
  | succ n ih =>
    cases L with
    | nil => simp [selfEntries]
    | cons y ys =>
      simp only [List.mem_cons, not_or] at hn
      simp only [selfChain, Bool.and_eq_true] at hc
      have hf := selfChain_forward hc.2
      simp only [List.headD_cons, selfEntries, Ne.symm hn.1, ha y (by simp), hf]
      rw [show y + (ys.headD h - y) = ys.headD h by bv_omega,
        ih hc.2 (fun z hz => ha z (by simp [hz])) hn.2]
      simp

/-- Every entry reached from the head of a well-formed queue is one of the queue (R101). -/
theorem selfApart_of_queue {m : Memory} {h : Word} {L : List Word} {apart : Word → Bool}
    (hq : SRQueue m h L = true) (ha : ∀ x ∈ L, apart x = true) : selfApart m h (L.headD h) apart := by
  simp only [SRQueue, Bool.and_eq_true, decide_eq_true_eq, List.nodup_cons, List.all_eq_true,
    List.mem_cons, forall_eq_or_imp] at hq
  intro n y hy
  rw [selfEntries_chain hq.2 hq.1.1.2 hq.1.2.1] at hy
  exact ha y (List.mem_of_mem_take hy)

/-- Along a chain the forward links reach its elements, in order. -/
theorem absEntries_chain {m : Memory} {h x : Word} {L : List Word} (hc : absChain m h x L = true)
    (hn : h ∉ L) (n : Nat) : absEntries m h n (L.headD h) = L.take n := by
  induction n generalizing x L with
  | zero => rfl
  | succ n ih =>
    cases L with
    | nil => simp [absEntries]
    | cons y ys =>
      simp only [List.mem_cons, not_or] at hn
      simp only [absChain, Bool.and_eq_true] at hc
      have hf := absChain_forward hc.2
      simp only [List.headD_cons, absEntries, Ne.symm hn.1, hf]
      rw [ih hc.2 hn.2]
      simp

theorem absQueue_iff {m : Memory} {h : Word} {L : List Word} : AbsQueue m h L = true ↔
    (h :: L).Pairwise (fun x y => elementsApart x y = true) ∧ absChain m h h L = true := by
  simp [AbsQueue]

theorem elementsApart_irrefl (a : Word) : elementsApart a a = false := by
  simp [elementsApart, overlaps]

theorem absQueue_nodup {m : Memory} {h : Word} {L : List Word} (hq : AbsQueue m h L = true) :
    (h :: L).Nodup :=
  (absQueue_iff.1 hq).1.imp fun {a b} hab => by
    rintro rfl
    simp [elementsApart_irrefl] at hab

/-- Every element reached from the first entry of a well-formed queue is one of the queue (R103). -/
theorem absApart_of_queue {m : Memory} {h : Word} {L : List Word} {apart : Word → Bool}
    (hq : AbsQueue m h L = true) (ha : ∀ x ∈ L, apart x = true) : absApart m h (L.headD h) apart := by
  intro n y hy
  rw [absEntries_chain (absQueue_iff.1 hq).2 (List.nodup_cons.1 (absQueue_nodup hq)).1] at hy
  exact ha y (List.mem_of_mem_take hy)

/-- Any entry of a ring may stand for its header. -/
theorem absQueue_rotate {m : Memory} {h e : Word} {A B : List Word}
    (hq : AbsQueue m h (A ++ e :: B) = true) : AbsQueue m e (B ++ h :: A) = true := by
  rw [absQueue_iff] at hq ⊢
  refine ⟨?_, ?_⟩
  · have hp : (h :: (A ++ e :: B)).Perm (e :: (B ++ h :: A)) := by
      have : (h :: (A ++ e :: B)) = (h :: A) ++ (e :: B) := rfl
      rw [this]
      exact List.perm_append_comm
    exact (hp.pairwise_iff (fun hab => by rwa [elementsApart_comm])).1 hq.1
  · have hc := hq.2
    rw [absChain_append, Bool.and_eq_true] at hc ⊢
    exact ⟨hc.2, hc.1⟩

/-- Distinct addresses that memory holds are no more than its bytes. -/
theorem length_le_of_held {m : Memory} {L : List Word} (hn : L.Nodup)
    (hr : ∀ x ∈ L, ∃ v, m.read4 x = some v) : L.length ≤ m.length := by
  have hb : ∀ (m : Memory) (a : Nat) (b : Byte), m.readByte a = some b → a ∈ m.map (·.1) := by
    intro m a b h
    induction m with
    | nil => simp [Memory.readByte] at h
    | cons c rest ih =>
      obtain ⟨k, v⟩ := c
      simp only [Memory.readByte] at h
      split at h
      · simp [*]
      · exact List.mem_cons_of_mem _ (ih h)
  have hsub : L.map (·.toNat) ⊆ m.map (·.1) := by
    intro a ha
    obtain ⟨x, hx, rfl⟩ := List.mem_map.1 ha
    obtain ⟨v, hv⟩ := hr x hx
    exact hb _ _ _ (readByte_of_read4 hv).1
  have hnd : (L.map (·.toNat)).Nodup := hn.map fun a b => BitVec.eq_of_toNat_eq
  simpa using (hnd.subperm hsub).length_le

theorem absChain_held {m : Memory} {z x : Word} {L : List Word} (hc : absChain m z x L = true) :
    ∀ y ∈ L, ∃ v, m.read4 y = some v := by
  induction L generalizing x with
  | nil => simp
  | cons w ws ih =>
    simp only [absChain, Bool.and_eq_true] at hc
    intro y hy
    rcases List.mem_cons.1 hy with rfl | hy
    · exact ⟨_, absChain_forward hc.2⟩
    · exact ih hc.2 y hy

/-- The walk that REMQUE takes finds the whole ring (R152; log 16). -/
theorem absEntries_queue {s : State} {e : Word} {L : List Word} (hq : AbsQueue s.mem e L = true) :
    s.absEntries e (L.headD e) = L := by
  have hn := List.nodup_cons.1 (absQueue_nodup hq)
  have hc := (absQueue_iff.1 hq).2
  rw [State.absEntries, absEntries_chain hc hn.1]
  exact List.take_of_length_le (length_le_of_held hn.2 (absChain_held hc))

/-- An entry of a well-formed queue is linked to from both its neighbours (R103, R152). -/
theorem absQueue_links {m : Memory} {e f b : Word} {L : List Word} (hq : AbsQueue m e L = true)
    (hf : m.read4 e = some f) (hb : m.read4 (e + 4) = some b) :
    f = L.headD e ∧ m.read4 b = some e ∧ m.read4 (f + 4) = some e := by
  have hc := (absQueue_iff.1 hq).2
  have h1 := absChain_forward hc
  have h2 := absChain_backward hc
  rw [hf, Option.some.injEq] at h1
  rw [hb, Option.some.injEq] at h2
  subst f b
  refine ⟨rfl, ?_, ?_⟩
  · rcases List.eq_nil_or_concat L with rfl | ⟨ws, w, rfl⟩
    · exact hf
    · rw [List.concat_eq_append, absChain_append, Bool.and_eq_true] at hc
      simpa [List.getLastD_eq_getLast?] using (absLinked_iff.1 hc.2).1
  · cases L with
    | nil => exact hb
    | cons w ws =>
      simp only [absChain, Bool.and_eq_true] at hc
      exact (absLinked_iff.1 hc.1).2

/-! ## Well-formed self-relative queues -/

theorem srQueue_iff {m : Memory} {h : Word} {L : List Word} : SRQueue m h L = true ↔
    (∀ x ∈ h :: L, aligned8 x = true) ∧ (h :: L).Nodup ∧ selfChain m h h L = true := by
  simp only [SRQueue, Bool.and_eq_true, decide_eq_true_eq, List.all_eq_true, and_assoc]

theorem selfChain_held {m : Memory} {z x : Word} {L : List Word} (hc : selfChain m z x L = true) :
    ∀ y ∈ L, ∃ v, m.read4 y = some v := by
  induction L generalizing x with
  | nil => simp
  | cons w ws ih =>
    simp only [selfChain, Bool.and_eq_true] at hc
    intro y hy
    rcases List.mem_cons.1 hy with rfl | hy
    · exact ⟨_, selfChain_forward hc.2⟩
    · exact ih hc.2 y hy

/-- The header's links of a well-formed queue (R101, R105). -/
theorem srQueue_links {m : Memory} {h : Word} {L : List Word} (hq : SRQueue m h L = true) :
    m.read4 h = some (L.headD h - h) ∧ m.read4 (h + 4) = some (L.getLastD h - h) ∧
      (L.headD h - h = 0 ↔ L = []) ∧ (L.getLastD h - h = 0 ↔ L = []) := by
  obtain ⟨-, hn, hc⟩ := srQueue_iff.1 hq
  rw [List.nodup_cons] at hn
  refine ⟨selfChain_forward hc, selfChain_backward hc, ?_, ?_⟩
  · cases L with
    | nil => simp
    | cons y ys =>
      have : y ≠ h := by rintro rfl; simp at hn
      simp only [List.headD_cons, reduceCtorEq, iff_false]
      intro h'; apply this; bv_omega
  · rcases List.eq_nil_or_concat L with rfl | ⟨ws, w, rfl⟩
    · simp
    · have : w ≠ h := by rintro rfl; simp at hn
      simp only [List.concat_eq_append, List.getLastD_eq_getLast?, List.getLast?_append, List.getLast?_singleton,
        Option.some_or, Option.getD_some, List.append_eq_nil_iff, List.cons_ne_nil, and_false, iff_false]
      intro h'; apply this; bv_omega

theorem consistentHeader_of_queue {s : State} {h f : Word} {L : List Word} (hq : SRQueue s.mem h L = true)
    (hf : s.mem.read4 h = some f) : consistentHeader s h f = true := by
  obtain ⟨h1, h2, h3, h4⟩ := srQueue_links hq
  rw [hf, Option.some.injEq] at h1
  rw [consistentHeader, h2, h1, beq_iff_eq, Bool.eq_iff_iff, beq_iff_eq, beq_iff_eq, h3, h4]
/-- Between step A and step B the walk from the header reaches exactly the entries of a well-formed queue. -/
theorem Between.selfEntries_queue {t v : State} {h f : Word} {L : List Word} (m : Between t v h f)
    (hq : SRQueue t.mem h L = true) (hr : t.mem.read4 h = some f) : v.selfEntries h (h + f) = L := by
  obtain ⟨ha, hn, hc⟩ := srQueue_iff.1 hq
  have hf := selfChain_forward hc
  rw [hr, Option.some.injEq] at hf
  have h1 : h + f = L.headD h := by rw [hf]; bv_omega
  rw [List.nodup_cons] at hn
  rw [State.selfEntries, h1, m.mem, selfEntries_write4_header _ (ha h (by simp)),
    selfEntries_chain hc (fun y hy => ha y (by simp [hy])) hn.1, ← m.mem]
  apply List.take_of_length_le
  apply length_le_of_held hn.2
  intro x hx
  have hne : x ≠ h := by rintro rfl; exact hn.1 hx
  obtain ⟨w, hw⟩ := selfChain_held hc x hx
  exact ⟨w, by rw [m.read4 (aligned_apart (ha h (by simp)) (ha x (by simp [hx])) hne).1, hw]⟩

end Sys2Proof.Machine
end

