-- ==== Sys2Proof/Laws/Decode.lean ====
section
/-! SUPPORT. What the pieces of the decoder and the encoder do: specifier bytes, fields of the instruction
stream, and the modes (spec/30_encoding.md R64 to R76). -/

namespace Sys2Proof

open Sys2Proof.Machine

theorem except_bind_ok {ε α β : Type} {x : Except ε α} {f : α → Except ε β} {b : β} :
    (x >>= f) = .ok b ↔ ∃ a, x = .ok a ∧ f a = .ok b := by
  cases x <;> simp [bind, Except.bind]

/-! ## Specifier bytes -/

theorem modeByte_toNat {k : Nat} (hk : k < 16) (n : Reg) : (modeByte k n).toNat = 16 * k + n.val := by
  have := n.isLt
  simp only [modeByte, BitVec.toNat_ofNat]
  omega

theorem regOf_modeByte {k : Nat} (hk : k < 16) (n : Reg) : regOf (modeByte k n) = n := by
  have := n.isLt
  apply Fin.ext
  simp only [regOf, modeByte_toNat hk]
  omega

theorem modeByte_regOf {b : Byte} {k : Nat} (h : b.toNat / 16 = k) : modeByte k (regOf b) = b := by
  have := b.isLt
  apply BitVec.eq_of_toNat_eq
  rw [modeByte_toNat (by omega)]
  simp only [regOf]
  omega

/-- A specifier byte of modes 4 to 15 is decoded by its mode. -/
theorem decodeBase_mode (dt : DataType) {k : Nat} (h4 : 4 ≤ k) (hk : k < 16) (n : Reg)
    (rest : List Byte) : decodeBase dt (modeByte k n :: rest) = decodeMode dt k n rest := by
  have hn := n.isLt
  have h1 : ¬ (modeByte k n).toNat < 64 := by rw [modeByte_toNat hk]; omega
  have h2 : (modeByte k n).toNat / 16 = k := by rw [modeByte_toNat hk]; omega
  simp only [decodeBase, h1, if_false, regOf_modeByte hk, h2]

/-! ## Fields of the instruction stream -/

theorem le16_bytes16 (d : BitVec 16) : le16 (d.extractLsb' 0 8) (d.extractLsb' 8 8) = d := by
  apply BitVec.eq_of_toNat_eq
  have := d.isLt
  have h0 : (d.extractLsb' 0 8).toNat < 2 ^ 8 := (d.extractLsb' 0 8).isLt
  simp only [le16, BitVec.toNat_append]
  rw [← Nat.shiftLeft_add_eq_or_of_lt h0]
  simp only [Nat.shiftLeft_eq, BitVec.extractLsb'_toNat, Nat.shiftRight_eq_div_pow]
  omega

theorem le32_bytes32 (d : Word) :
    le32 (d.extractLsb' 0 8) (d.extractLsb' 8 8) (d.extractLsb' 16 8) (d.extractLsb' 24 8) = d :=
  bytes_append d

theorem bytes16_le16 (a b : Byte) : bytes16 (le16 a b) = [a, b] := by
  have h0 := a.isLt
  have h1 := b.isLt
  have e : (le16 a b).toNat = a.toNat + 256 * b.toNat := by
    simp only [le16, BitVec.toNat_append]
    rw [← Nat.shiftLeft_add_eq_or_of_lt h0, Nat.shiftLeft_eq]
    omega
  have e1 : (le16 a b).extractLsb' 0 8 = a := by
    apply BitVec.eq_of_toNat_eq
    rw [BitVec.extractLsb'_toNat, e, Nat.shiftRight_eq_div_pow]
    omega
  have e2 : (le16 a b).extractLsb' 8 8 = b := by
    apply BitVec.eq_of_toNat_eq
    rw [BitVec.extractLsb'_toNat, e, Nat.shiftRight_eq_div_pow]
    omega
  rw [bytes16, e1, e2]

theorem bytes32_le32 (a b c d : Byte) : bytes32 (le32 a b c d) = [a, b, c, d] := by
  obtain ⟨e0, e1, e2, e3⟩ := byteOf_append a b c d
  simp only [byteOf] at e0 e1 e2 e3
  simp only [bytes32, le32]
  exact congr (congrArg List.cons e0) (congr (congrArg List.cons e1)
    (congr (congrArg List.cons e2) (congr (congrArg List.cons e3) rfl)))

/-- What taking a field can do: the field's bytes stand first. -/
theorem take8_ok {f : BitVec 8 → BaseSpec} {bytes rest : List Byte} {b : BaseSpec}
    (h : take8 f bytes = .ok (b, rest)) : ∃ d, b = f d ∧ bytes = d :: rest := by
  unfold take8 at h
  split at h <;> simp only [Except.ok.injEq, Prod.mk.injEq, reduceCtorEq] at h
  exact ⟨_, h.1.symm, by simp [h.2]⟩

theorem take16_ok {f : BitVec 16 → BaseSpec} {bytes rest : List Byte} {b : BaseSpec}
    (h : take16 f bytes = .ok (b, rest)) : ∃ d, b = f d ∧ bytes = bytes16 d ++ rest := by
  unfold take16 at h
  split at h <;> simp only [Except.ok.injEq, Prod.mk.injEq, reduceCtorEq] at h
  exact ⟨_, h.1.symm, by simp [h.2, bytes16_le16]⟩

theorem take32_ok {f : BitVec 32 → BaseSpec} {bytes rest : List Byte} {b : BaseSpec}
    (h : take32 f bytes = .ok (b, rest)) : ∃ d, b = f d ∧ bytes = bytes32 d ++ rest := by
  unfold take32 at h
  split at h <;> simp only [Except.ok.injEq, Prod.mk.injEq, reduceCtorEq] at h
  exact ⟨_, h.1.symm, by simp [h.2, bytes32_le32]⟩

theorem takeData_ok {dt : DataType} {bytes rest : List Byte} {b : BaseSpec}
    (h : takeData dt bytes = .ok (b, rest)) :
    ∃ data, b = .immediate data ∧ data.length = dt.size ∧ bytes = data ++ rest := by
  unfold takeData at h
  split at h <;> simp only [Except.ok.injEq, Prod.mk.injEq, reduceCtorEq] at h
  obtain ⟨rfl, rfl⟩ := h
  exact ⟨_, rfl, by simpa using ‹_›, by simp⟩

/-! ## Lengths -/

/-- The bytes of a base specifier are as many as operand evaluation consumes (R78). -/
theorem encodeBase_length {dt : DataType} {under : Bool} {b : BaseSpec} (h : b.wf dt under = true) :
    1 ≤ (encodeBase b).length ∧ (encodeBase b).length ≤ max 5 (1 + dt.size) := by
  cases b <;> simp_all [encodeBase, bytes16, bytes32, BaseSpec.wf]

theorem encodeSpecifier_length {dt : DataType} {sp : Specifier} (h : sp.wf dt = true) :
    1 ≤ (encodeSpecifier sp).length ∧ (encodeSpecifier sp).length ≤ 1 + max 5 (1 + dt.size) := by
  cases sp with
  | plain b => have := encodeBase_length h; simp only [encodeSpecifier]; omega
  | indexed x b => have := encodeBase_length h; simp only [encodeSpecifier, List.length_cons]; omega

end Sys2Proof
end

