-- ==== Sys2Proof/Laws/Domain.lean ====
section
/-! SUPPORT. Memory holds a value at the same addresses before and after an instruction, and no queue
instruction reads where it holds none (spec/20_memory.md R47(d); logs 5, 6). -/

namespace Sys2Proof.Machine

/-! ## Stores keep the domain -/

theorem SameDomain.write4 {m m' : Memory} (d : SameDomain m m') {a : Word} (v : Word)
    (h : ∃ w, m.read4 a = some w) : SameDomain m (m'.write4 a v) := by
  obtain ⟨w, hw⟩ := h
  refine d.trans (sameDomain_write4 v fun k hk => ?_)
  rw [d]
  exact isSome_of_read4 hw k hk

/-- Memories with the same domain hold the same longwords. -/
theorem SameDomain.held {m m' : Memory} (d : SameDomain m m') {a : Word} (h : ∃ w, m.read4 a = some w) :
    ∃ w, m'.read4 a = some w := by
  obtain ⟨w, hw⟩ := h
  exact read4_of_isSome fun k hk => by rw [d]; exact isSome_of_read4 hw k hk

theorem SameDomain.holds {m m' : Memory} (d : SameDomain m m') (a : Word) (n : Nat) :
    m'.holds a n = m.holds a n := by
  simp only [Memory.holds, d _]

theorem SameDomain.mapped {m m' : Memory} (d : SameDomain m m') (p : Pending) : p.mapped m' = p.mapped m := by
  obtain ⟨op, h, f, r⟩ := p
  rcases op with e | e | d' | ⟨d', b⟩ <;> try rcases d' with n | a
  all_goals simp only [Pending.mapped, d.holds]

theorem holds_of_probe {s : State} {a : Word} {n : Nat} {k : AccessKind} (h : s.probe a n k = none) :
    s.mem.holds a n = true := by
  simp only [Memory.holds, List.all_eq_true, List.mem_range]
  exact isSome_of_probe h

theorem read4_of_holds {m : Memory} {a : Word} {n : Nat} (h : m.holds a n = true) (hn : 4 ≤ n) :
    ∃ w, m.read4 a = some w := by
  simp only [Memory.holds, List.all_eq_true, List.mem_range] at h
  exact read4_of_isSome fun k hk => h k (by omega)

theorem read4_second_of_holds {m : Memory} {a : Word} (h : m.holds a 8 = true) :
    ∃ w, m.read4 (a + 4) = some w := by
  simp only [Memory.holds, List.all_eq_true, List.mem_range] at h
  refine read4_of_isSome fun k hk => ?_
  have := h (k + 4) (by omega)
  rwa [show a + 4 + BitVec.ofNat 32 k = a + BitVec.ofNat 32 (k + 4) by
    rw [Nat.add_comm k, BitVec.ofNat_add, BitVec.add_assoc]; rfl]

theorem writeDest_domain {s t : State} {d : Dest} {v : Word} (e : s.writeDest d v = .ok t)
    (h : ∀ a, d = .mem a → ∃ w, s.mem.read4 a = some w) : SameDomain s.mem t.mem := by
  rcases writeDest_ok e with ⟨n, rfl, rfl⟩ | ⟨a, rfl, e'⟩
  · exact .refl _
  · rw [store_mem e']
    exact (SameDomain.refl _).write4 v (h a rfl)

/-- What a half done instruction's operands give to read. -/
theorem Pending.mapped_iff {p : Pending} {m : Memory} : p.mapped m = true ↔
    m.holds p.header 8 = true ∧
      (∀ e, p.op = .insqhi e ∨ p.op = .insqti e → m.holds e 8 = true) ∧
      ∀ a, p.dest = some (.mem a) → m.holds a 4 = true := by
  obtain ⟨op, h, f, r⟩ := p
  rcases op with e | e | d | ⟨d, b⟩ <;> try rcases d with n | a
  all_goals simp [Pending.mapped, Pending.dest]

/-- Step B keeps the domain. -/
theorem completeHeld_domain {p : Pending} {s t : State} (hm : p.mapped s.mem = true)
    (e : completeHeld p s = .ok t) : SameDomain s.mem t.mem := by
  obtain ⟨hh, he, hd⟩ := Pending.mapped_iff.1 hm
  obtain ⟨op, h, f, r⟩ := p
  have h0 := read4_of_holds hh (by decide)
  have h4 := read4_second_of_holds hh
  have i := SameDomain.refl s.mem
  cases op with
  | insqhi entry =>
    have e8 := he entry (.inl rfl)
    obtain ⟨hp, -, hmem⟩ := completeInsqhi_ok e
    rw [hmem]
    exact (((i.write4 _ (read4_of_holds e8 (by decide))).write4 _ (read4_second_of_holds e8)).write4 _
      (read4_of_probe hp (le_refl 4))).write4 _ h0
  | insqti entry =>
    have e8 := he entry (.inr rfl)
    obtain ⟨back, hb, -, hp, -, -, m, rfl, hmem⟩ := completeInsqti_ok e
    have key := (((i.write4 (h - entry) (read4_of_holds e8 (by decide))).write4 (h + back - entry)
      (read4_second_of_holds e8)).write4 (entry - (h + back)) (read4_of_probe hp (le_refl 4))).write4
        (entry - h) h4
    rw [hmem]
    split
    · exact key
    · exact key.write4 _ h0
  | remqhi d =>
    obtain ⟨l, hl, -, hq, u, v, hu, hv, hmem⟩ := completeRemqhi_ok e
    have key := (i.write4 (h - (h + f + l)) (read4_of_probe hq (le_refl 4))).write4 (h + f + l - h) h0
    rw [hmem]
    refine (hu ▸ key).trans (writeDest_domain hv fun a ha => (hu ▸ key).held ?_)
    exact read4_of_holds (hd a (by rw [← ha]; rfl)) (le_refl 4)
  | remqti d b =>
    obtain ⟨l, hl, -, hq, m, u, v, rfl, hu, hv, hmem⟩ := completeRemqti_ok e
    have key := (i.write4 (h - (h + b + l)) (read4_of_probe hq (le_refl 4))).write4 (h + b + l - h) h4
    have key : SameDomain s.mem u.mem := by
      rw [hu]
      split
      · exact key
      · exact key.write4 _ h0
    rw [hmem]
    refine key.trans (writeDest_domain hv fun a ha => key.held ?_)
    exact read4_of_holds (hd a (by rw [← ha]; rfl)) (le_refl 4)

/-- What step A keeps: the domain, and that memory holds the operands of what it leaves half done. -/
structure KeepsDomain (s t : State) : Prop where
  domain : SameDomain s.mem t.mem
  mapped : ∀ p, t.cpu.pending = some p → p.mapped t.mem = true

theorem FoundSet.keeps {h : Word} {s t : State} (x : FoundSet h s t) (hp : s.cpu.pending = none) :
    KeepsDomain s t :=
  ⟨by rw [x.mem]; exact .refl _, fun p h => by rw [x.pending, hp] at h; simp at h⟩

theorem Holds.keeps {start s t : State} {op : HeldOp} {h f : Word} (x : Holds start op h f s t)
    (he : ∀ e, op = .insqhi e ∨ op = .insqti e → s.probe e 8 .write = none)
    (hd : ∀ a, Pending.dest { op, header := h, forward := f, startRegs := start.cpu.regs } = some (.mem a) →
      s.probe a 4 .write = none) : KeepsDomain s t := by
  have d : SameDomain s.mem t.mem := by
    rw [x.mem]
    exact (SameDomain.refl _).write4 _ ⟨f, x.read⟩
  refine ⟨d, fun p hp => ?_⟩
  rw [x.pending, Option.some.injEq] at hp
  subst hp
  rw [d.mapped, Pending.mapped_iff]
  exact ⟨holds_of_probe x.probe, fun e h => holds_of_probe (he e h), fun a h => holds_of_probe (hd a h)⟩

theorem FoundEmpty.keeps {h : Word} {d : Dest} {s t : State} (x : FoundEmpty h d s t)
    (hp : s.cpu.pending = none) (hd : ∀ a, d = .mem a → s.probe a 4 .write = none) : KeepsDomain s t := by
  obtain ⟨u, v, hu, hv, ht⟩ := x.dest
  refine ⟨?_, fun p h => by rw [x.writes.pending, hp] at h; simp at h⟩
  rw [ht, ← hu]
  exact writeDest_domain hv fun a ha => by rw [hu]; exact read4_of_probe (hd a ha) (le_refl 4)

theorem Reads.probe {h : Word} {s t : State} (x : Reads h s t) (a : Word) (n : Nat) (k : AccessKind) :
    t.probe a n k = s.probe a n k := by
  simp only [State.probe, x.follows.params, x.mem, x.psl]

theorem acquireInsqhi_keeps {start s t : State} {entry header : Word} (hp : s.cpu.pending = none)
    (e : acquireInsqhi start entry header s = .ok t) : KeepsDomain s t := by
  rcases acquireInsqhi_ok e with x | ⟨hE, f, x⟩
  · exact x.keeps hp
  · refine x.keeps (fun e h => ?_) (fun a h => by simp [Pending.dest] at h)
    simp only [HeldOp.insqhi.injEq, reduceCtorEq, or_false] at h
    exact h ▸ (insertionConditions_nil.1 hE).1

theorem acquireInsqti_keeps {start s t : State} {entry header : Word} (hp : s.cpu.pending = none)
    (e : acquireInsqti start entry header s = .ok t) : KeepsDomain s t := by
  rcases acquireInsqti_ok e with x | ⟨hE, f, x⟩
  · exact x.keeps hp
  · refine x.keeps (fun e h => ?_) (fun a h => by simp [Pending.dest] at h)
    simp only [HeldOp.insqti.injEq, reduceCtorEq, false_or] at h
    exact h ▸ (insertionConditions_nil.1 hE).1

theorem acquireRemqhi_keeps {start s t : State} {header : Word} {d : Dest} (hp : s.cpu.pending = none)
    (e : acquireRemqhi start header d s = .ok t) : KeepsDomain s t := by
  rcases acquireRemqhi_ok e with x | ⟨hE, ⟨f, -, x⟩ | ⟨u, r, x⟩⟩
  · exact x.keeps hp
  · refine x.keeps (fun e h => by simp at h) fun a h => (removalConditions_nil.1 hE).1 a ?_
    simpa [Pending.dest] using h
  · have := x.keeps (r.pending.trans hp) fun a h => by rw [r.probe]; exact (removalConditions_nil.1 hE).1 a h
    exact ⟨r.mem ▸ this.domain, this.mapped⟩

theorem acquireRemqti_keeps {start s t : State} {header : Word} {d : Dest} (hp : s.cpu.pending = none)
    (e : acquireRemqti start header d s = .ok t) : KeepsDomain s t := by
  rcases acquireRemqti_ok e with x | ⟨hE, ⟨f, b, -, -, -, -, x⟩ | ⟨u, r, x⟩⟩
  · exact x.keeps hp
  · refine x.keeps (fun e h => by simp at h) fun a h => (removalConditions_nil.1 hE).1 a ?_
    simpa [Pending.dest] using h
  · have := x.keeps (r.pending.trans hp) fun a h => by rw [r.probe]; exact (removalConditions_nil.1 hE).1 a h
    exact ⟨r.mem ▸ this.domain, this.mapped⟩

/-- An interlocked instruction whose step A keeps the domain keeps it, step B included. -/
theorem afterStepA_keeps {start s u : State} {r : Res State} (hk : ∀ t, r = .ok t → KeepsDomain s t)
    (e : afterStepA start r = .next u) : KeepsDomain s u := by
  obtain ⟨t, ht, ⟨-, rfl⟩ | ⟨p, v, hp, -, hv, rfl⟩⟩ := afterStepA_next e
  · exact hk _ ht
  · have k := hk _ ht
    have d : SameDomain t.mem v.mem := completeHeld_domain (k.mapped p hp) hv
    exact ⟨k.domain.trans d, fun q hq => by simp [State.release] at hq⟩

theorem insertAbsolute_domain {entry pred : Word} {s t : State} (e : insertAbsolute entry pred s = .ok t) :
    SameDomain s.mem t.mem ∧ t.cpu.pending = s.cpu.pending := by
  obtain ⟨q, u, n, z, c, hq, p1, p2, p3, a, rfl, hm⟩ := insertAbsolute_ok e
  refine ⟨?_, a.pending⟩
  show SameDomain s.mem u.mem
  rw [hm]
  exact ((((SameDomain.refl _).write4 _ (read4_of_probe p1 (by decide))).write4 _
    (read4_second_of_probe p1)).write4 _
    (read4_of_probe p3 (le_refl 4))).write4 _ ⟨q, hq⟩

theorem removeAbsolute_domain {entry : Word} {d : Dest} {s t : State} (e : removeAbsolute entry d s = .ok t) :
    SameDomain s.mem t.mem ∧ t.cpu.pending = s.cpu.pending := by
  obtain ⟨w, f, b, u, v, hf, hb, p1, p2, p3, hu, hv, hm⟩ := removeAbsolute_ok e
  refine ⟨?_, w.pending⟩
  have key := ((SameDomain.refl s.mem).write4 f (read4_of_probe p2 (le_refl 4))).write4 b (read4_of_probe p3
    (le_refl 4))
  rw [hm]
  refine (hu ▸ key).trans (writeDest_domain hv fun a ha => (hu ▸ key).held ?_)
  subst ha
  exact read4_of_probe p1 (le_refl 4)

/-- Everything `exec` does to the domain of memory, and to what is half done. -/
theorem exec_keeps {i : Instr} {s u : State} (hp : s.cpu.pending = none) (e : exec i s = .next u) :
    KeepsDomain s u := by
  have same : ∀ {v : State}, SameDomain s.mem v.mem ∧ v.cpu.pending = s.cpu.pending → KeepsDomain s v :=
    fun h => ⟨h.1, fun p hq => by rw [h.2, hp] at hq; simp at hq⟩
  have br : ∀ {t d}, KeepsDomain s (branch t d s) := fun {t d} => same ⟨.refl _, rfl⟩
  have after : ∀ {l n} {t v : State}, Evaluates l n s t → KeepsDomain t v → KeepsDomain s v :=
    fun ev k => ⟨ev.mem ▸ k.domain, k.mapped⟩
  cases i with
  | brb d => simp only [exec, execBrb, Host.Outcome.next.injEq] at e; exact e ▸ br
  | beql d => simp only [exec, execBeql, Host.Outcome.next.injEq] at e; exact e ▸ br
  | bvs d => simp only [exec, execBvs, Host.Outcome.next.injEq] at e; exact e ▸ br
  | bcs d => simp only [exec, execBcs, Host.Outcome.next.injEq] at e; exact e ▸ br
  | insque a b =>
    obtain ⟨⟨x, y, t⟩, hx, e⟩ := bind_ok.1 (finish_next e)
    have ev := (evalInsertion_ok hx).1
    have k := insertAbsolute_domain e
    exact same ⟨ev.mem ▸ k.1, k.2.trans ev.pending⟩
  | remque a b =>
    obtain ⟨⟨x, y, t⟩, hx, e⟩ := bind_ok.1 (finish_next e)
    have ev := (evalRemoval_ok hx).1
    have k := removeAbsolute_domain e
    exact same ⟨ev.mem ▸ k.1, k.2.trans ev.pending⟩
  | insqhi a b =>
    refine afterStepA_keeps (fun t ht => ?_) e
    rw [release_of_none hp] at ht
    obtain ⟨⟨x, y, v⟩, hx, ht⟩ := bind_ok.1 ht
    have ev := (evalInsertion_ok hx).1
    exact after ev (acquireInsqhi_keeps (ev.pending.trans hp) ht)
  | insqti a b =>
    refine afterStepA_keeps (fun t ht => ?_) e
    rw [release_of_none hp] at ht
    obtain ⟨⟨x, y, v⟩, hx, ht⟩ := bind_ok.1 ht
    have ev := (evalInsertion_ok hx).1
    exact after ev (acquireInsqti_keeps (ev.pending.trans hp) ht)
  | remqhi a b =>
    refine afterStepA_keeps (fun t ht => ?_) e
    rw [release_of_none hp] at ht
    obtain ⟨⟨x, y, v⟩, hx, ht⟩ := bind_ok.1 ht
    have ev := (evalRemoval_ok hx).1
    exact after ev (acquireRemqhi_keeps (ev.pending.trans hp) ht)
  | remqti a b =>
    refine afterStepA_keeps (fun t ht => ?_) e
    rw [release_of_none hp] at ht
    obtain ⟨⟨x, y, v⟩, hx, ht⟩ := bind_ok.1 ht
    have ev := (evalRemoval_ok hx).1
    exact after ev (acquireRemqti_keeps (ev.pending.trans hp) ht)

/-! ## No read where memory holds nothing -/

/-- A computation that does not stop at memory that holds no value. -/
def NoGap {α : Type} (x : Res α) : Prop := ∀ a, x ≠ .error (.noValue a)

theorem NoGap.bind {α β : Type} {x : Res α} {f : α → Res β} (hx : NoGap x)
    (hf : ∀ a, x = .ok a → NoGap (f a)) : NoGap (x >>= f) := by
  intro a e
  rcases bind_error.1 e with e | ⟨b, hb, e⟩
  · exact hx a e
  · exact hf b hb a e

theorem noGap_ok {α : Type} (a : α) : NoGap (.ok a : Res α) := fun _ => by simp

theorem noGap_require (t : Bool) (r : Refusal) : NoGap (require t r) := fun a e => by
  simp [require_error] at e

theorem noGap_raiseAny (s : State) (E F : List Exception) : NoGap (s.raiseAny E F) := fun a e => by
  obtain ⟨-, x, -, h⟩ := raiseAny_error e
  simp at h

theorem noGap_demand (s : State) (a : Word) (n : Nat) (k : AccessKind) : NoGap (s.demand a n k) := fun b e => by
  simp [demand_error] at e

theorem noGap_touch (s : State) (x : Touch) : NoGap (s.touch x) := fun a e => by
  simpa using touch_error e

theorem noGap_load {s : State} {via : Option Word} {a : Word} (h : ∃ v, s.mem.read4 a = some v) :
    NoGap (s.load via a) := by
  refine (noGap_touch _ _).bind fun u hu => ?_
  obtain ⟨v, hv⟩ := h
  rw [touch_mem hu, hv]
  exact noGap_ok _

theorem noGap_store (s : State) (via : Option Word) (a v : Word) : NoGap (s.store via a v) :=
  (noGap_require _ _).bind fun _ _ => (noGap_touch _ _).bind fun _ _ => noGap_ok _

theorem noGap_writeDest (s : State) (d : Dest) (v : Word) : NoGap (s.writeDest d v) := by
  cases d with
  | reg n => exact noGap_ok _
  | mem a => exact noGap_store _ _ _ _

theorem noGap_pointer (s : State) (p : Word) : NoGap (s.pointer p) :=
  (noGap_demand _ _ _ _).bind fun _ h => noGap_load (read4_of_probe (demand_ok.1 h) (le_refl 4))


theorem noGap_notPc (n : Reg) : NoGap (notPc n) := noGap_require _ _

theorem noGap_stop {α : Type} {stop : Stop} (h : ∀ a, stop ≠ .noValue a) : NoGap (.error stop : Res α) :=
  fun a e => h a (by simpa using e)

theorem noGap_baseAddress (size : Nat) (b : BaseSpec) (s : State) : NoGap (baseAddress size b s) := by
  have raise : ∀ x : Exception, NoGap (.error (.raise x) : Res (Word × State)) := fun _ => noGap_stop (by simp)
  have refuse : ∀ x : Refusal, NoGap (.error (.refuse x) : Res (Word × State)) := fun _ => noGap_stop (by simp)
  cases b with
  | literal _ => exact raise _
  | indexPrefix _ => exact raise _
  | register n => exact (noGap_notPc n).bind fun _ _ => raise _
  | deferred n => exact (noGap_notPc n).bind fun _ _ => noGap_ok _
  | autodec n => exact (noGap_notPc n).bind fun _ _ => noGap_ok _
  | autoinc n => exact (noGap_notPc n).bind fun _ _ => noGap_ok _
  | immediate _ => exact refuse _
  | autoincDeferred n => exact (noGap_notPc n).bind fun _ _ => (noGap_pointer _ _).bind fun _ _ => noGap_ok _
  | absolute _ => exact noGap_ok _
  | byteDisp _ _ => exact noGap_ok _
  | wordDisp _ _ => exact noGap_ok _
  | longDisp _ _ => exact noGap_ok _
  | byteDispDeferred _ _ => exact noGap_pointer _ _
  | wordDispDeferred _ _ => exact noGap_pointer _ _
  | longDispDeferred _ _ => exact noGap_pointer _ _

theorem noGap_evalAddress (dt : DataType) (sp : Specifier) (s : State) : NoGap (evalAddress dt sp s) := by
  cases sp with
  | plain b => exact noGap_baseAddress _ _ _
  | indexed x b =>
    refine NoGap.bind (fun a e => by simp [unlessRaise_error] at e) fun _ _ => NoGap.bind ?_ fun _ _ =>
      (noGap_baseAddress _ _ _).bind fun _ _ => noGap_ok _
    unfold indexable
    split <;> first | exact noGap_stop (by simp) | exact noGap_require _ _

theorem noGap_evalDest (sp : Specifier) (s : State) : NoGap (evalDest sp s) := by
  unfold evalDest
  split
  · exact (noGap_notPc _).bind fun _ _ => noGap_ok _
  · exact noGap_stop (by simp)
  · exact (noGap_evalAddress _ _ _).bind fun _ _ => noGap_ok _

theorem noGap_acquire (h : Word) (E : List Exception) (L : Word → List Exception) (s : State) :
    NoGap (acquire h E L s) := by
  unfold acquire
  split
  · exact noGap_stop (by simp)
  · rename_i hp
    refine (noGap_load (read4_of_probe hp (by decide))).bind fun ⟨f, u⟩ _ => ?_
    dsimp only
    split
    · split
      · exact noGap_ok _
      · split
        · exact noGap_stop (by simp)
        · exact noGap_ok _
    · exact (noGap_raiseAny _ _ _).bind fun _ _ => noGap_ok _

theorem noGap_hold (start : State) (op : HeldOp) (h f : Word) (s : State) : NoGap (hold start op h f s) :=
  (noGap_store _ _ _ _).bind fun _ _ => noGap_ok _

theorem noGap_removeFromEmpty {h : Word} {d : Dest} {l : Word} {s : State} (hl : ∃ v, s.mem.read4 l = some v) :
    NoGap (removeFromEmpty h d l s) :=
  (noGap_require _ _).bind fun _ _ => (noGap_load hl).bind fun _ _ =>
    (noGap_writeDest _ _ _).bind fun _ _ => noGap_ok _

theorem noGap_unlock (h f n : Word) (s : State) : NoGap (unlockForward h f n s) := by
  unfold unlockForward
  split
  · exact noGap_ok _
  · exact noGap_store _ _ _ _

/-- A longword that memory held before a store it holds after. -/
theorem held_write4 {m : Memory} {a b v : Word} (h : ∃ w, m.read4 b = some w) :
    ∃ w, (m.write4 a v).read4 b = some w := by
  obtain ⟨w, hw⟩ := h
  refine read4_of_isSome fun k hk => ?_
  rw [readByte_write4]
  split
  · rfl
  · exact isSome_of_read4 hw k hk

theorem held_store {s t : State} {via : Option Word} {a b v : Word} (e : s.store via a v = .ok t)
    (h : ∃ w, s.mem.read4 b = some w) : ∃ w, t.mem.read4 b = some w := by
  rw [store_mem e]
  exact held_write4 h

theorem held_stored {s t : State} {via : Option Word} {a v : Word} (e : s.store via a v = .ok t) :
    ∃ w, t.mem.read4 a = some w := ⟨v, by rw [store_mem e, read4_write4_same]⟩

theorem held_unlock {s t : State} {h f n b : Word} (e : unlockForward h f n s = .ok t)
    (x : ∃ w, s.mem.read4 b = some w) : ∃ w, t.mem.read4 b = some w := by
  rw [unlockForward_mem e]
  split
  · exact x
  · exact held_write4 x

/-- Step B reads no address that memory does not hold. -/
theorem noGap_completeHeld {p : Pending} {s : State} (hm : p.mapped s.mem = true) : NoGap
  (completeHeld p s) := by
  have hh := read4_second_of_holds (Pending.mapped_iff.1 hm).1
  obtain ⟨op, h, f, r⟩ := p
  cases op with
  | insqhi entry =>
    refine (noGap_raiseAny _ _ _).bind fun _ _ => (noGap_require _ _).bind fun _ _ =>
      (noGap_store _ _ _ _).bind fun u1 h1 => (noGap_store _ _ _ _).bind fun u2 h2 =>
      (noGap_store _ _ _ _).bind fun u3 h3 => (noGap_store _ _ _ _).bind fun u4 h4 => ?_
    have e1 := held_store h4 (held_store h3 (held_store h2 (held_stored h1)))
    have e2 := held_store h4 (held_store h3 (held_stored h2))
    exact (noGap_load e1).bind fun x hx => (noGap_load
      (by rw [load_mem hx]; exact e2)).bind fun _ _ => noGap_ok _
  | insqti entry =>
    refine (noGap_load hh).bind fun _ _ => (noGap_raiseAny _ _ _).bind fun _ _ =>
      (noGap_require _ _).bind fun _ _ =>
      (noGap_require _ _).bind fun _ _ =>
      (noGap_store _ _ _ _).bind fun u1 h1 => (noGap_store _ _ _ _).bind fun u2 h2 =>
      (noGap_store _ _ _ _).bind fun u3 h3 => (noGap_store _ _ _ _).bind fun u4 h4 =>
      (noGap_unlock _ _ _ _).bind fun u5 h5 => ?_
    have e1 := held_unlock h5 (held_store h4 (held_store h3 (held_store h2 (held_stored h1))))
    have e2 := held_unlock h5 (held_store h4 (held_store h3 (held_stored h2)))
    exact (noGap_load e1).bind fun x hx => (noGap_load
      (by rw [load_mem hx]; exact e2)).bind fun _ _ => noGap_ok _
  | remqhi d =>
    refine (noGap_demand _ _ _ _).bind fun _ hd => (noGap_load (read4_of_probe (demand_ok.1 hd)
      (le_refl 4))).bind
      fun _ _ => (noGap_raiseAny _ _ _).bind fun _ _ => (noGap_require _ _).bind fun _ _ =>
      (noGap_require _ _).bind fun _ _ =>
      (noGap_store _ _ _ _).bind fun u1 h1 => (noGap_store _ _ _ _).bind fun u2 h2 =>
      (noGap_load (held_stored h2)).bind fun _ _ => (noGap_writeDest _ _ _).bind fun _ _ => noGap_ok _
  | remqti d b =>
    refine (noGap_demand _ _ _ _).bind fun _ hd => (noGap_load (read4_of_probe (demand_ok.1 hd)
      (le_refl 4))).bind
      fun _ _ => (noGap_raiseAny _ _ _).bind fun _ _ => (noGap_require _ _).bind fun _ _ =>
      (noGap_require _ _).bind fun _ _ =>
      (noGap_store _ _ _ _).bind fun u1 h1 => (noGap_store _ _ _ _).bind fun u2 h2 =>
      (noGap_unlock _ _ _ _).bind fun u3 h3 =>
      (noGap_load (held_unlock h3 (held_stored h2))).bind fun _ _ =>
        (noGap_writeDest _ _ _).bind fun _ _ => noGap_ok _

theorem noGap_acquireInsqhi (start : State) (e h : Word) (s : State) : NoGap (acquireInsqhi start e h s) := by
  refine (noGap_acquire _ _ _ _).bind fun ⟨r, u⟩ _ => ?_
  cases r with
  | none => exact noGap_ok _
  | some f => exact (noGap_require _ _).bind fun _ _ => noGap_hold _ _ _ _ _

theorem noGap_acquireInsqti (start : State) (e h : Word) (s : State) : NoGap (acquireInsqti start e h s) := by
  refine (noGap_acquire _ _ _ _).bind fun ⟨r, u⟩ _ => ?_
  cases r with
  | none => exact noGap_ok _
  | some f => exact noGap_hold _ _ _ _ _

theorem noGap_acquireRemqhi (start : State) (h : Word) (d : Dest) (s : State) :
    NoGap (acquireRemqhi start h d s) := by
  refine (noGap_acquire _ _ _ _).bind fun ⟨r, u⟩ hu => ?_
  obtain ⟨f, hr, -, -, hm, -⟩ := acquire_ok hu
  cases r with
  | none => exact noGap_ok _
  | some f =>
    refine (noGap_require _ _).bind fun _ _ => ?_
    split
    · exact noGap_removeFromEmpty (by rw [hm]; exact ⟨_, hr⟩)
    · exact noGap_hold _ _ _ _ _

theorem noGap_acquireRemqti (start : State) (h : Word) (d : Dest) (s : State) :
    NoGap (acquireRemqti start h d s) := by
  refine (noGap_acquire _ _ _ _).bind fun ⟨r, u⟩ hu => ?_
  obtain ⟨f, hr, hp, -, hm, -⟩ := acquire_ok hu
  cases r with
  | none => exact noGap_ok _
  | some f =>
    have h4 : ∃ v, u.mem.read4 (h + 4) = some v := by rw [hm]; exact read4_second_of_probe hp
    refine (noGap_load h4).bind fun ⟨b, v⟩ hv => (noGap_raiseAny _ _ _).bind fun _ _ =>
      (noGap_require _ _).bind fun _ _ => ?_
    split
    · exact noGap_removeFromEmpty (by rw [load_mem hv]; exact h4)
    · exact noGap_hold _ _ _ _ _

theorem noGap_insertAbsolute (e p : Word) (s : State) : NoGap (insertAbsolute e p s) := by
  refine (noGap_raiseAny _ _ _).bind fun _ hE => ?_
  simp only [raiseAny_ok, addCondition_eq_nil, and_true] at hE
  refine (noGap_load (read4_of_probe hE.2 (le_refl 4))).bind fun x hx => (noGap_demand _ _ _ _).bind fun _ _ =>
    (noGap_require _ _).bind fun _ _ => (noGap_require _ _).bind fun _ _ =>
    (noGap_store _ _ _ _).bind fun u1 h1 => (noGap_store _ _ _ _).bind fun u2 h2 =>
    (noGap_store _ _ _ _).bind fun u3 h3 => (noGap_store _ _ _ _).bind fun u4 h4 => ?_
  have e1 := held_store h4 (held_store h3 (held_store h2 (held_stored h1)))
  have e2 := held_store h4 (held_store h3 (held_stored h2))
  exact (noGap_load e1).bind fun x hx => (noGap_load (by rw [load_mem hx]; exact e2)).bind fun _ _ => noGap_ok _

theorem noGap_removeAbsolute (e : Word) (d : Dest) (s : State) : NoGap (removeAbsolute e d s) := by
  refine (noGap_raiseAny _ _ _).bind fun _ hE => ?_
  simp only [raiseAny_ok, addCondition_eq_nil, and_true] at hE
  refine (noGap_load (read4_of_probe hE.2 (by decide))).bind fun x hx =>
    (noGap_load (by rw [load_mem hx]; exact read4_second_of_probe hE.2)).bind fun _ _ =>
    (noGap_raiseAny _ _ _).bind fun _ _ => (noGap_require _ _).bind fun _ _ =>
      (noGap_require _ _).bind fun _ _ =>
    (noGap_store _ _ _ _).bind fun u1 h1 => (noGap_store _ _ _ _).bind fun u2 h2 =>
    (noGap_writeDest _ _ _).bind fun _ _ => noGap_ok _

end Sys2Proof.Machine
end

