-- ==== Sys2Proof/Laws/Fetch.lean ====
section
/-! SUPPORT. What fetching can do: the bytes that stand as code come first, and placing an instruction makes
it the code the next step fetches (spec/20_memory.md R51; spec/10_state.md R23). -/

namespace Sys2Proof.Machine

/-- Bytes that stand as code are the first that are fetched. -/
theorem fetchBytes_of_holdsCode {s : State} {a : Word} {bytes : List Byte} {n : Nat}
    (h : s.holdsCode a bytes = true) :
    fetchBytes s a (bytes.length + n) =
      (bytes ++ (fetchBytes s (a + BitVec.ofNat 32 bytes.length) n).1,
        (fetchBytes s (a + BitVec.ofNat 32 bytes.length) n).2) := by
  induction bytes generalizing a with
  | nil => simp
  | cons b bytes ih =>
    simp only [State.holdsCode, Bool.and_eq_true, bne_iff_ne, beq_iff_eq] at h
    obtain ⟨⟨⟨h1, h2⟩, h3⟩, h4⟩ := h
    have e : a + 1 + BitVec.ofNat 32 bytes.length = a + BitVec.ofNat 32 (bytes.length + 1) := by
      rw [Nat.add_comm bytes.length, BitVec.ofNat_add, BitVec.add_assoc]
      rfl
    rw [List.length_cons, Nat.add_right_comm, fetchBytes, if_neg h1, h2, h3, ih h4, e]
    simp

/-- Placing bytes keeps the canonical form. -/
theorem placeBytes_wf {m : Memory} (a : Word) (bytes : List Byte) (h : m.wf = true) :
    (placeBytes m a bytes).wf = true := by
  induction bytes generalizing m a with
  | nil => exact h
  | cons b bytes ih => exact ih _ (writeByte_wf h a.isLt)

/-- Passing the turn permutes the processors. -/
theorem nextTurn_perm (s : State) : s.nextTurn.cpus.Perm s.cpus := by
  unfold State.nextTurn
  split
  · exact .rfl
  · exact .rfl
  · split
    · exact .rfl
    · rename_i k _ _ c hc
      obtain ⟨hk, rfl⟩ := List.getElem?_eq_some_iff.1 hc
      refine ((List.set_perm_cons_eraseIdx hk s.cpu).cons _).trans ?_
      exact (List.Perm.swap ..).trans ((List.getElem_cons_eraseIdx_perm hk).cons _)

end Sys2Proof.Machine
end

