-- ==== Sys2Proof/Laws/PerInstr.lean ====
section
/-! SUPPORT. Statements for all instructions, one lemma per constructor: how many bytes an encoding has
(spec/30_encoding.md R60, R78). -/

namespace Sys2Proof.Laws.EncodingLength

/-- A well-formed instruction is encoded in at least two bytes and at most `maxInstrBytes` (R78). -/
def Statement (i : Instr) : Prop :=
  i.wf = true → 2 ≤ (encode i).length ∧ (encode i).length ≤ maxInstrBytes

/-- The bytes of an opcode and two specifiers. -/
theorem pair_length {op : Byte} {first second : DataType} {a b : Specifier} (ha : a.wf first = true)
    (hb : b.wf second = true) (hs : first.size + second.size ≤ 12) (h1 : first = .byte ∨ second = .long) :
    2 ≤ (op :: (encodeSpecifier a ++ encodeSpecifier b)).length ∧
      (op :: (encodeSpecifier a ++ encodeSpecifier b)).length ≤ maxInstrBytes := by
  have la := encodeSpecifier_length ha
  have lb := encodeSpecifier_length hb
  simp only [List.length_cons, List.length_append, maxInstrBytes]
  rcases h1 with rfl | rfl
  · cases second <;> simp only [DataType.size] at * <;> omega
  · cases first <;> simp only [DataType.size] at * <;> omega

theorem insque (entry pred : Specifier) : Statement (.insque entry pred) := by
  intro h
  simp only [Instr.wf, Bool.and_eq_true] at h
  exact pair_length h.1 h.2 (by decide) (.inl rfl)

theorem remque (entry addr : Specifier) : Statement (.remque entry addr) := by
  intro h
  simp only [Instr.wf, Bool.and_eq_true] at h
  exact pair_length h.1 h.2 (by decide) (.inl rfl)

theorem brb (d : BitVec 8) : Statement (.brb d) := fun _ => by simp [encode, maxInstrBytes]

theorem beql (d : BitVec 8) : Statement (.beql d) := fun _ => by simp [encode, maxInstrBytes]

theorem bvs (d : BitVec 8) : Statement (.bvs d) := fun _ => by simp [encode, maxInstrBytes]

theorem bcs (d : BitVec 8) : Statement (.bcs d) := fun _ => by simp [encode, maxInstrBytes]

theorem insqhi (entry header : Specifier) : Statement (.insqhi entry header) := by
  intro h
  simp only [Instr.wf, Bool.and_eq_true] at h
  exact pair_length h.1 h.2 (by decide) (.inl rfl)

theorem insqti (entry header : Specifier) : Statement (.insqti entry header) := by
  intro h
  simp only [Instr.wf, Bool.and_eq_true] at h
  exact pair_length h.1 h.2 (by decide) (.inl rfl)

theorem remqhi (header addr : Specifier) : Statement (.remqhi header addr) := by
  intro h
  simp only [Instr.wf, Bool.and_eq_true] at h
  exact pair_length h.1 h.2 (by decide) (.inr rfl)

theorem remqti (header addr : Specifier) : Statement (.remqti header addr) := by
  intro h
  simp only [Instr.wf, Bool.and_eq_true] at h
  exact pair_length h.1 h.2 (by decide) (.inr rfl)

end Sys2Proof.Laws.EncodingLength
end

