-- ==== Sys2Proof/Laws/Races.lean ====
section
/-! SUPPORT. Which longwords step B accesses while no access of another processor races with them, and that it
then answers as it does for a processor that is alone (spec/20_memory.md R47; spec/40_queue_common.md R109; log 14). -/

namespace Sys2Proof.Machine

/-! ## What has been accessed raced with nothing -/

theorem raceFree_of_touch {s t : State} {via : Option Word} {a : Word} (e : s.touch ⟨a, via⟩ = .ok t) :
    s.raceFree via a = true := by
  simp only [State.raceFree, List.all_eq_true, Bool.not_eq_true']
  intro c hc y hy
  rcases touch_ok e with ⟨-, h⟩ | ⟨-, h, -⟩
  · simp only [State.alone, List.isEmpty_iff] at h
    simp [h] at hc
  · exact h c hc y hy

theorem raceFree_of_load {s t : State} {via : Option Word} {a v : Word} (e : s.load via a = .ok (v, t)) :
    s.raceFree via a = true := raceFree_of_touch (load_ok e).2

theorem raceFree_of_store {s t : State} {via : Option Word} {a v : Word} (e : s.store via a v = .ok t) :
    s.raceFree via a = true :=
  have ⟨_, _, h, _⟩ := store_ok e
  raceFree_of_touch h

theorem Accesses.raceFree {h : Option Word} {s t : State} (x : Accesses h s t) {via : Option Word} {a : Word}
    (c : t.raceFree via a = true) : s.raceFree via a = true := by
  rwa [State.raceFree, ← x.follows.others]

/-- What races with an access: one that overlaps it and was not made through the same header (D9). -/
theorem not_raceFree {s : State} {via : Option Word} {a : Word} {c : Cpu} {y : Touch} (hc : c ∈ s.others)
    (hy : y ∈ c.touched) (ho : overlaps a 4 y.addr 4 = true) (hn : y.via ≠ via ∨ via = none) :
    s.raceFree via a ≠ true := by
  intro h
  simp only [State.raceFree, List.all_eq_true, Bool.not_eq_true'] at h
  have := h c hc y hy
  simp only [Touch.races, ho, Bool.true_and, Bool.or_eq_false_iff] at this
  obtain ⟨h1, h2⟩ := this
  rcases hn with hn | rfl
  · exact hn (bne_eq_false_iff_eq.1 h2).symm
  · simp at h1

/-- Everything step B accesses when it answers raced with nothing. -/
theorem completeHeld_raceFree {p : Pending} {s t : State} (e : completeHeld p s = .ok t) :
    (∀ a ∈ p.accesses s.mem, s.raceFree (some p.header) a = true) ∧ ∀ a, p.dest = some
      (.mem a) → s.raceFree none a = true := by
  obtain ⟨op, h, f, regs⟩ := p
  cases op with
  | insqhi entry =>
    simp only [completeHeld, completeInsqhi, bind_ok] at e
    obtain ⟨-, -, -, -, u1, h1, u2, h2, u3, h3, u4, h4, ⟨_, u5⟩, h5, ⟨_, u6⟩, h6, e⟩ := e
    have a1 := accesses_store (h := some h) (.inr rfl) h1
    have a2 := a1.trans (accesses_store (h := some h) (.inr rfl) h2)
    have a3 := a2.trans (accesses_store (h := some h) (.inr rfl) h3)
    refine ⟨fun a ha => ?_, fun a ha => by simp [Pending.dest] at ha⟩
    simp only [Pending.accesses, List.mem_cons, List.not_mem_nil, or_false] at ha
    rcases ha with rfl | rfl | rfl | rfl
    · exact a3.raceFree (raceFree_of_store h4)
    · exact raceFree_of_store h1
    · exact a1.raceFree (raceFree_of_store h2)
    · exact a2.raceFree (raceFree_of_store h3)
  | insqti entry =>
    simp only [completeHeld, completeInsqti, bind_ok] at e
    obtain ⟨⟨b, u0⟩, h0, -, -, -, -, -, -, u1, h1, u2, h2, u3, h3, u4, h4, u5, h5, ⟨_, u6⟩, h6,
      ⟨_, u7⟩, h7, e⟩ := e
    have a0 := accesses_load (h := some h) h0
    have a1 := a0.trans (accesses_store (h := some h) (.inr rfl) h1)
    have a2 := a1.trans (accesses_store (h := some h) (.inr rfl) h2)
    have a3 := a2.trans (accesses_store (h := some h) (.inr rfl) h3)
    have a4 := a3.trans (accesses_store (h := some h) (.inr rfl) h4)
    refine ⟨fun a ha => ?_, fun a ha => by simp [Pending.dest] at ha⟩
    have hb := (load_ok h0).1
    simp only [Pending.accesses, hb, Option.map_some, Option.toList, List.mem_append, List.mem_cons,
      List.not_mem_nil, or_false] at ha
    rcases ha with (rfl | rfl | rfl | rfl) | rfl
    · unfold unlockForward at h5
      split at h5
      · rename_i ht
        have := a2.raceFree (raceFree_of_store h3)
        dsimp only at ht this
        rwa [ht] at this
      · exact a4.raceFree (raceFree_of_store h5)
    · exact raceFree_of_load h0
    · exact a0.raceFree (raceFree_of_store h1)
    · exact a1.raceFree (raceFree_of_store h2)
    · exact a2.raceFree (raceFree_of_store h3)
  | remqhi d =>
    simp only [completeHeld, completeRemqhi, bind_ok] at e
    obtain ⟨-, -, ⟨l, u1⟩, h1, -, -, -, -, -, -, u2, h2, u3, h3, ⟨_, u4⟩, h4, u5, h5, e⟩ := e
    have a1 := accesses_load (h := some h) h1
    have a2 := a1.trans (accesses_store (h := some h) (.inr rfl) h2)
    have a3 := a2.trans (accesses_store (h := some h) (.inr rfl) h3)
    have a4 := a3.trans (accesses_load (h := some h) h4)
    have hb := (load_ok h1).1
    refine ⟨fun a ha => ?_, fun a ha => ?_⟩
    · simp only [Pending.accesses, hb, Option.map_some, Option.toList, List.mem_append, List.mem_cons,
      List.not_mem_nil, or_false] at ha
      rcases ha with (rfl | rfl) | rfl
      · exact a2.raceFree (raceFree_of_store h3)
      · exact raceFree_of_load h1
      · exact a1.raceFree (raceFree_of_store h2)
    · simp only [Pending.dest, Option.some.injEq] at ha
      subst ha
      exact a4.raceFree (raceFree_of_store h5)
  | remqti d back =>
    simp only [completeHeld, completeRemqti, bind_ok] at e
    obtain ⟨-, -, ⟨l, u1⟩, h1, -, -, -, -, -, -, u2, h2, u3, h3, u6, h6, ⟨_, u4⟩, h4, u5, h5, e⟩ := e
    have a1 := accesses_load (h := some h) h1
    have a2 := a1.trans (accesses_store (h := some h) (.inr rfl) h2)
    have a3 := a2.trans (accesses_store (h := some h) (.inr rfl) h3)
    have a6 := a3.trans (accesses_unlock h6)
    have a4 := a6.trans (accesses_load (h := some h) h4)
    have hb := (load_ok h1).1
    refine ⟨fun a ha => ?_, fun a ha => ?_⟩
    · simp only [Pending.accesses, hb, Option.map_some, Option.toList, List.mem_append, List.mem_cons,
      List.not_mem_nil, or_false] at ha
      rcases ha with (rfl | rfl | rfl) | rfl
      · unfold unlockForward at h6
        split at h6
        · rename_i ht
          have := a1.raceFree (raceFree_of_store h2)
          dsimp only at ht this
          rwa [ht] at this
        · exact a3.raceFree (raceFree_of_store h6)
      · exact a2.raceFree (raceFree_of_store h3)
      · exact raceFree_of_load h1
      · exact a1.raceFree (raceFree_of_store h2)
    · simp only [Pending.dest, Option.some.injEq] at ha
      subst ha
      exact a4.raceFree (raceFree_of_store h5)

/-! ## Step B with other processors about -/

/-- Two states that differ only in the other processors, the schedule and the record of accesses. -/
structure Alike (s s' : State) : Prop where
  regs : s'.cpu.regs = s.cpu.regs
  psl : s'.cpu.psl = s.cpu.psl
  pending : s'.cpu.pending = s.cpu.pending
  mem : s'.mem = s.mem
  params : s'.params = s.params
  draws : s'.draws = s.draws

theorem Alike.probe {s s' : State} (x : Alike s s') (a : Word) (n : Nat) (k : AccessKind) :
    s'.probe a n k = s.probe a n k := by
  simp only [State.probe, x.params, x.mem, x.psl]

theorem touch_raceFree {s : State} {via : Option Word} {a : Word} (h : s.raceFree via a = true) :
    ∃ t, s.touch ⟨a, via⟩ = .ok t ∧ Alike s t ∧ t.others = s.others := by
  unfold State.touch
  split
  · exact ⟨s, rfl, ⟨rfl, rfl, rfl, rfl, rfl, rfl⟩, rfl⟩
  · rw [if_neg]
    · exact ⟨_, rfl, ⟨rfl, rfl, rfl, rfl, rfl, rfl⟩, rfl⟩
    · simp only [State.raceFree, List.all_eq_true, Bool.not_eq_true'] at h
      simp only [List.any_eq_true, not_exists, not_and, Bool.not_eq_true]
      exact h

theorem load_follows {s s' : State} (x : Alike s s') {via : Option Word} {a v : Word} {t : State}
    (h : s'.raceFree via a = true) (e : s.load via a = .ok (v, t)) :
    ∃ t', s'.load via a = .ok (v, t') ∧ Alike t t' ∧ t'.others = s'.others := by
  obtain ⟨u, hu, k, ho⟩ := touch_raceFree h
  obtain ⟨hr, ht⟩ := load_ok e
  have a := accesses_touch (h := none) ht
  refine ⟨u, ?_, ⟨?_, ?_, ?_, ?_, ?_, ?_⟩, ho⟩
  · simp [State.load, hu, k.mem, x.mem, hr]
  · rw [k.regs, x.regs, a.regs]
  · rw [k.psl, x.psl, a.psl]
  · rw [k.pending, x.pending, a.pending]
  · rw [k.mem, x.mem, touch_mem ht]
  · rw [k.params, x.params, a.follows.params]
  · rw [k.draws, x.draws, a.draws]

theorem store_follows {s s' : State} (x : Alike s s') {via : Option Word} {a v : Word} {t : State}
    (h : s'.raceFree via a = true) (e : s.store via a v = .ok t) :
    ∃ t', s'.store via a v = .ok t' ∧ Alike t t' ∧ t'.others = s'.others := by
  obtain ⟨u, hu, k, ho⟩ := touch_raceFree h
  have b := accesses_store (h := via) (.inr rfl) e
  obtain ⟨hn, w, hw, -⟩ := store_ok e
  have ht : s'.inText a 4 = false := by simpa [State.inText, x.params] using hn
  refine ⟨{ u with mem := u.mem.write4 a v }, ?_, ⟨?_, ?_, ?_, ?_, ?_, ?_⟩, ho⟩
  · simp [State.store, ht, require, hu]
  · show u.cpu.regs = _; rw [k.regs, x.regs, b.regs]
  · show u.cpu.psl = _; rw [k.psl, x.psl, b.psl]
  · show u.cpu.pending = _; rw [k.pending, x.pending, b.pending]
  · show u.mem.write4 a v = _; rw [k.mem, x.mem, store_mem e]
  · show u.params = _; rw [k.params, x.params, b.follows.params]
  · show u.draws = _; rw [k.draws, x.draws, b.draws]

theorem Alike.linkConditions {s s' : State} (x : Alike s s') (l a : Word) :
    s'.linkConditions l a = s.linkConditions l a := by
  simp only [State.linkConditions, x.probe]

theorem Alike.entryApart {s s' : State} (x : Alike s s') (e h f n : Word) :
    Machine.entryApart e h f n s' = Machine.entryApart e h f n s := by
  simp only [Machine.entryApart, State.selfEntries, x.mem]

theorem Alike.destApart {s s' : State} (x : Alike s s') (d : Dest) (h f : Word) (l : List Word) :
    Machine.destApart d h f l s' = Machine.destApart d h f l s := by
  simp only [Machine.destApart, State.selfEntries, x.mem]

theorem Alike.setCC {s s' : State} (x : Alike s s') (n z v c : Bool) : Alike (s.setCC n z v c)
  (s'.setCC n z v c) :=
  ⟨x.regs, by show withCC s'.cpu.psl _ _ _ _ = withCC s.cpu.psl _ _ _ _; rw [x.psl], x.pending, x.mem,
    x.params, x.draws⟩

theorem writeDest_follows {s s' : State} (x : Alike s s') {d : Dest} {v : Word} {t : State}
    (h : s'.raceFreeDest d = true) (e : s.writeDest d v = .ok t) :
    ∃ t', s'.writeDest d v = .ok t' ∧ Alike t t' := by
  cases d with
  | reg n =>
    simp only [State.writeDest, Except.ok.injEq] at e
    subst e
    refine ⟨s'.setReg n v, rfl, ⟨?_, x.psl, x.pending, x.mem, x.params, x.draws⟩⟩
    simp only [State.setReg, x.regs]
  | mem a =>
    obtain ⟨t', h1, h2, -⟩ := store_follows x h e
    exact ⟨t', h1, h2⟩

theorem unlock_follows {s s' : State} (x : Alike s s') {h f n : Word} {t : State}
    (hr : s'.raceFree (some h) h = true) (e : unlockForward h f n s = .ok t) :
    ∃ t', unlockForward h f n s' = .ok t' ∧ Alike t t' ∧ t'.others = s'.others := by
  unfold unlockForward at e ⊢
  split at e
  · rename_i hn
    cases e
    exact ⟨s', by rw [if_pos hn], x, rfl⟩
  · rename_i hn
    rw [if_neg hn]
    exact store_follows x hr e

theorem completeHeld_follows {p : Pending} {s s' w : State} (x : Alike s s')
    (hr : ∀ a ∈ p.accesses s'.mem, s'.raceFree (some p.header) a = true)
    (hd : ∀ d, p.dest = some d → s'.raceFreeDest d = true) (e : completeHeld p s = .ok w) :
    ∃ w', completeHeld p s' = .ok w' ∧ Alike w w' := by
  obtain ⟨op, h, f, regs⟩ := p
  cases op with
  | insqhi entry =>
    simp only [Pending.accesses, List.mem_cons, List.not_mem_nil, or_false, forall_eq_or_imp, forall_eq] at hr
    obtain ⟨r0, r1, r2, r3⟩ := hr
    simp only [completeHeld, completeInsqhi, bind_ok, raiseAny_ok, insqhiLinks_eq_nil, require_ok] at e ⊢
    obtain ⟨-, hp, -, ha, u1, h1, u2, h2, u3, h3, u4, h4, ⟨y1, u5⟩, h5, ⟨y2, u6⟩, h6, e⟩ := e
    obtain ⟨v1, g1, x1, o1⟩ := store_follows x r1 h1
    obtain ⟨v2, g2, x2, o2⟩ := store_follows x1 (by rwa [State.raceFree, o1]) h2
    obtain ⟨v3, g3, x3, o3⟩ := store_follows x2 (by rwa [State.raceFree, o2, o1]) h3
    obtain ⟨v4, g4, x4, o4⟩ := store_follows x3 (by rwa [State.raceFree, o3, o2, o1]) h4
    obtain ⟨v5, g5, x5, o5⟩ := load_follows x4 (by rwa [State.raceFree, o4, o3, o2, o1]) h5
    obtain ⟨v6, g6, x6, o6⟩ := load_follows x5 (by rwa [State.raceFree, o5, o4, o3, o2, o1]) h6
    cases e
    exact ⟨_, ⟨(), by rw [x.probe]; exact hp, (), by rw [x.entryApart]; exact ha, v1, g1, v2, g2, v3, g3, v4,
      g4, _, g5, _, g6, rfl⟩,
      x6.setCC _ _ _ _⟩
  | insqti entry =>
    simp only [completeHeld, completeInsqti, bind_ok, raiseAny_ok, require_ok] at e ⊢
    obtain ⟨⟨b, u0⟩, h0, -, hl, -, hc, -, ha, u1, h1, u2, h2, u3, h3, u4, h4, u5, h5, ⟨y1, u6⟩, h6,
      ⟨y2, u7⟩, h7, e⟩ := e
    have hb : s'.mem.read4 (h + 4) = some b := by rw [x.mem]; exact (load_ok h0).1
    simp only [Pending.accesses, hb, Option.map_some, Option.toList, List.mem_append, List.mem_cons,
      List.not_mem_nil, or_false, or_imp, forall_and, forall_eq] at hr
    obtain ⟨⟨r0, r4, r1, r2⟩, r3⟩ := hr
    obtain ⟨v0, g0, x0, o0⟩ := load_follows x r4 h0
    obtain ⟨v1, g1, x1, o1⟩ := store_follows x0 (by rwa [State.raceFree, o0]) h1
    obtain ⟨v2, g2, x2, o2⟩ := store_follows x1 (by rwa [State.raceFree, o1, o0]) h2
    obtain ⟨v3, g3, x3, o3⟩ := store_follows x2 (by rwa [State.raceFree, o2, o1, o0]) h3
    obtain ⟨v4, g4, x4, o4⟩ := store_follows x3 (by rwa [State.raceFree, o3, o2, o1, o0]) h4
    obtain ⟨v5, g5, x5, o5⟩ := unlock_follows x4 (by rwa [State.raceFree, o4, o3, o2, o1, o0]) h5
    obtain ⟨v6, g6, x6, o6⟩ := load_follows x5 (by rwa [State.raceFree, o5, o4, o3, o2, o1, o0]) h6
    obtain ⟨v7, g7, x7, o7⟩ := load_follows x6 (by rwa [State.raceFree, o6, o5, o4, o3, o2, o1, o0]) h7
    cases e
    exact ⟨_, ⟨_, g0, (), by rw [x0.linkConditions]; exact hl, (), hc, (), by rw [x0.entryApart]; exact ha,
      v1, g1, v2, g2, v3, g3, v4, g4, v5, g5, _, g6, _, g7, rfl⟩, x7.setCC _ _ _ _⟩
  | remqhi d =>
    simp only [completeHeld, completeRemqhi, bind_ok, demand_ok, raiseAny_ok, require_ok] at e ⊢
    obtain ⟨-, hp, ⟨l, u1⟩, h1, -, hl, -, ha, -, hda, u2, h2, u3, h3, ⟨y, u4⟩, h4, u5, h5, e⟩ := e
    have hb : s'.mem.read4 (h + f) = some l := by rw [x.mem]; exact (load_ok h1).1
    simp only [Pending.accesses, hb, Option.map_some, Option.toList, List.mem_append, List.mem_cons,
      List.not_mem_nil, or_false, or_imp, forall_and, forall_eq] at hr
    obtain ⟨⟨r0, r1⟩, r2⟩ := hr
    obtain ⟨v1, g1, x1, o1⟩ := load_follows x r1 h1
    obtain ⟨v2, g2, x2, o2⟩ := store_follows x1 (by rwa [State.raceFree, o1]) h2
    obtain ⟨v3, g3, x3, o3⟩ := store_follows x2 (by rwa [State.raceFree, o2, o1]) h3
    obtain ⟨v4, g4, x4, o4⟩ := load_follows x3 (by rwa [State.raceFree, o3, o2, o1]) h4
    obtain ⟨v5, g5, x5⟩ := writeDest_follows x4 (d := d) (by
      have := hd d rfl
      cases d with
      | reg n => rfl
      | mem a => simpa only [State.raceFreeDest, State.raceFree, o4, o3, o2, o1] using this) h5
    cases e
    exact ⟨_, ⟨(), by rw [x.probe]; exact hp, _, g1, (), by rw [x1.linkConditions]; exact hl, (), ha, (),
      by rw [x1.destApart]; exact hda, v2, g2, v3, g3, _, g4, v5, g5, rfl⟩, x5.setCC _ _ _ _⟩
  | remqti d back =>
    simp only [completeHeld, completeRemqti, bind_ok, demand_ok, raiseAny_ok, require_ok] at e ⊢
    obtain ⟨-, hp, ⟨l, u1⟩, h1, -, hl, -, ha, -, hda, u2, h2, u3, h3, u6, h6, ⟨y, u4⟩, h4, u5, h5, e⟩ := e
    have hb : s'.mem.read4 (h + back + 4) = some l := by rw [x.mem]; exact (load_ok h1).1
    simp only [Pending.accesses, hb, Option.map_some, Option.toList, List.mem_append, List.mem_cons,
      List.not_mem_nil, or_false, or_imp, forall_and, forall_eq] at hr
    obtain ⟨⟨r0, r4, r1⟩, r2⟩ := hr
    obtain ⟨v1, g1, x1, o1⟩ := load_follows x r1 h1
    obtain ⟨v2, g2, x2, o2⟩ := store_follows x1 (by rwa [State.raceFree, o1]) h2
    obtain ⟨v3, g3, x3, o3⟩ := store_follows x2 (by rwa [State.raceFree, o2, o1]) h3
    obtain ⟨v6, g6, x6, o6⟩ := unlock_follows x3 (by rwa [State.raceFree, o3, o2, o1]) h6
    obtain ⟨v4, g4, x4, o4⟩ := load_follows x6 (by rwa [State.raceFree, o6, o3, o2, o1]) h4
    obtain ⟨v5, g5, x5⟩ := writeDest_follows x4 (d := d) (by
      have := hd d rfl
      cases d with
      | reg n => rfl
      | mem a => simpa only [State.raceFreeDest, State.raceFree, o4, o6, o3, o2, o1] using this) h5
    cases e
    exact ⟨_, ⟨(), by rw [x.probe]; exact hp, _, g1, (), by rw [x1.linkConditions]; exact hl, (), ha, (),
      by rw [x1.destApart]; exact hda, v2, g2, v3, g3, v6, g6, _, g4, v5, g5, rfl⟩, x5.setCC _ _ _ _⟩
end Sys2Proof.Machine
end

