-- ==== Sys2Proof/Tests/Slice0.lean ====
section
/-! SUPPORT. Tests on fixed values, each from spec/ and not from the model, and witnesses that the hypotheses
of the statements can be met together. -/

namespace Sys2Proof.Tests

open Sys2Proof.Machine

/-! ## Small states -/

/-- The state a step answers, if it does. -/
def nextOf : Host.Outcome State Fault Refusal → Option State
  | .next s => some s
  | _ => none

/-- The fault a step ends in, if it does. -/
def faultOf : Host.Outcome State Fault Refusal → Option Fault
  | .fault f => some f
  | _ => none

/-- The refusal a step ends in, if it does. -/
def refusalOf : Host.Outcome State Fault Refusal → Option Refusal
  | .refused r => some r
  | _ => none

/-- Memory that holds the longwords given. -/
def memory : List (Word × Word) → Memory
  | [] => []
  | (a, v) :: rest => (memory rest).write4 a v

/-- A state with registers 1, 2 and 3 and memory as given, every condition code set, else as after reset. -/
def machine (r1 r2 r3 : Word) (longs : List (Word × Word)) : State :=
  ((((State.reset.setReg 1 r1).setReg 2 r2).setReg 3 r3).setCC true true true true) |>
    fun s => { s with mem := memory longs }

/-- Longwords of memory, the codes N Z V C, registers and the program counter a step answers. -/
def codes (s : State) : List Bool := [s.ccN, s.ccZ, s.ccV, s.ccC]

/-- The specifiers `(R1)`, `(R2)`, `(R3)`. -/
def at1 : Specifier := .plain (.deferred 1)
def at2 : Specifier := .plain (.deferred 2)
def at3 : Specifier := .plain (.deferred 3)

/-- The specifiers of an absolute address and of a register. -/
def abs (a : Word) : Specifier := .plain (.absolute a)
def reg (n : Reg) : Specifier := .plain (.register n)

/-- Access to one quadword denied to every mode. -/
def denied (why : MMReason) : Rights :=
  ⟨.noAccess ⟨why, why⟩, .noAccess ⟨why, why⟩, .noAccess ⟨why, why⟩, .noAccess ⟨why, why⟩⟩

/-- A state in which the quadword at `a` cannot be accessed. -/
def denyAt (a : Word) (s : State) : State :=
  { s with params := { s.params with access := { s.params.access with
    regions := [⟨a.toNat / 8, 1, denied .accessControlViolation⟩] } } }

/-- A state with one other processor, at reset. -/
def withOther (s : State) : State := { s with others := [Cpu.reset] }

/-- The same with room besides, quadwords of zeros that hold no queue yet. -/
def machineWith (r1 r2 r3 : Word) (room : List Word) (longs : List (Word × Word)) : State :=
  machine r1 r2 r3 (longs ++ room.flatMap fun a => [(a, 0), (a + 4, 0)])

/-- An empty self-relative queue at 0x1000, R1 at A = 0x2000, R2 at the header, R3 at B = 0x3000. -/
def sEmpty : State := machineWith 0x2000 0x1000 0x3000 [0x2000, 0x3000] [(0x1000, 0), (0x1004, 0)]

/-- The queue [A] (the end of S1). -/
def sOne : State := machineWith 0x2000 0x1000 0x3000 [0x3000]
  [(0x1000, 0x1000), (0x1004, 0x1000), (0x2000, 0xFFFFF000), (0x2004, 0xFFFFF000)]

/-- The queue [B, A] (the end of S2). -/
def sTwo : State := machineWith 0x2000 0x1000 0x3000 [0x4000, 0x5000]
  [(0x1000, 0x2000), (0x1004, 0x1000), (0x3000, 0xFFFFF000), (0x3004, 0xFFFFE000),
    (0x2000, 0xFFFFF000), (0x2004, 0x1000)]

/-- An empty queue whose interlock is set (S16). -/
def sSet : State := machineWith 0x2000 0x1000 0x3000 [0x2000, 0x2008] [(0x1000, 1), (0x1004, 0)]

/-- A header whose backward link is not quadword aligned (F5). -/
def sBad : State := machineWith 0x2000 0x1000 0x3000 [0x2000, 0x3000] [(0x1000, 0x1000), (0x1004, 0x1004)]

/-- The absolute queue [A] at 0x1000 (the end of Q1). -/
def qOne : State := machineWith 0x2000 0x1000 0x3000 [0x3000]
  [(0x1000, 0x2000), (0x1004, 0x2000), (0x2000, 0x1000), (0x2004, 0x1000)]

/-- The absolute queue [A, B] (the end of Q2). -/
def qTwo : State := machineWith 0x2000 0x1000 0x3000 [0x4000]
  [(0x1000, 0x2000), (0x1004, 0x3000), (0x2000, 0x3000), (0x2004, 0x1000),
    (0x3000, 0x1000), (0x3004, 0x2000)]

/-! ## Well-formedness: a term each check refuses, and one it takes -/

theorem test_wf_autoinc_pc : (Instr.insque (.plain (.autoinc 15)) at2).wf = false := by decide

theorem test_wf_autoincDeferred_pc : (Instr.remque at1 (.plain (.autoincDeferred 15))).wf = false := by
  decide

theorem test_wf_immediate_length : (Instr.insqhi at1 (.plain (.immediate [1, 2, 3, 4]))).wf = false := by
  decide

theorem test_wf_bare_prefix : (Instr.remqhi (.plain (.indexPrefix 3)) at1).wf = false := by decide

theorem test_wf_accepts : (Instr.insqti (.indexed 3 (.indexPrefix 4))
    (.plain (.immediate [1, 2, 3, 4, 5, 6, 7, 8]))).wf = true := by decide

/-! ## Decoding: words written out from spec/30_encoding.md and spec/45_aux_branches.md -/

theorem test_decode_insque : decode [0x0E, 0x81, 0x62] =
    .ok (.insque (.plain (.autoinc 1)) at2, []) := by rfl

theorem test_decode_remque : decode [0x0F, 0x9F, 0x00, 0x20, 0x00, 0x00, 0x55] =
    .ok (.remque (abs 0x2000) (reg 5), []) := by rfl

theorem test_decode_insqhi : decode [0x5C, 0xCF, 0xFC, 0x1D, 0xCF, 0xF9, 0x0D] =
    .ok (.insqhi (.plain (.wordDisp 15 0x1DFC)) (.plain (.wordDisp 15 0x0DF9)), []) := by rfl

theorem test_decode_insqti : decode [0x5D, 0xE3, 0x04, 0x03, 0x02, 0x01, 0xF2, 0xFC, 0xFF, 0xFF, 0xFF] =
    .ok (.insqti (.plain (.longDisp 3 0x01020304)) (.plain (.longDispDeferred 2 0xFFFFFFFC)), []) := by
  rfl

theorem test_decode_remqhi : decode [0x5E, 0x43, 0x62, 0x50, 0xFF] =
    .ok (.remqhi (.indexed 3 (.deferred 2)) (reg 0), [0xFF]) := by rfl

theorem test_decode_remqti : decode [0x5F, 0xA5, 0x08, 0x7E] =
    .ok (.remqti (.plain (.byteDisp 5 8)) (.plain (.autodec 14)), []) := by rfl

theorem test_decode_beql : decode [0x13, 0x02] = .ok (.beql 2, []) := by rfl

theorem test_decode_bvs : decode [0x1D, 0x05] = .ok (.bvs 5, []) := by rfl

theorem test_decode_bcs : decode [0x1F, 0xF9] = .ok (.bcs 0xF9, []) := by rfl

theorem test_decode_brb : decode [0x11, 0xF6] = .ok (.brb 0xF6, []) := by rfl

/-- An opcode outside the table (0x00, HALT) and an instruction cut short. -/
theorem test_decode_refuses : decode [0x00] = .error (.opcodeNotInSpec 0x00) ∧
    decode [0x5C, 0x61] = .error .truncated := ⟨rfl, rfl⟩

/-- The remaining specifier forms: literal, byte and word displacement deferred, autoincrement deferred. -/
theorem test_decode_forms :
    decode [0x5C, 0x05, 0xB2, 0x04] =
      .ok (.insqhi (.plain (.literal 5)) (.plain (.byteDispDeferred 2 4)), []) ∧
    decode [0x0E, 0xD1, 0x00, 0x80, 0x92] =
      .ok (.insque (.plain (.wordDispDeferred 1 0x8000)) (.plain (.autoincDeferred 2)), []) ∧
    decode [0x0E, 0x8F, 0x07, 0x62] = .ok (.insque (.plain (.immediate [7])) at2, []) := ⟨rfl, rfl, rfl⟩

/-! ## Instructions: the vectors of spec/95_test_vectors.md -/

/-- S1. -/
theorem test_insqhi_empty : (nextOf (exec (.insqhi at1 at2) sEmpty)).map (fun s =>
    ([0x1000, 0x1004, 0x2000, 0x2004].map s.mem.read4, codes s, s.pc)) =
    some ([some 0x1000, some 0x1000, some 0xFFFFF000, some 0xFFFFF000],
      [false, true, false, false], 3) := by decide

/-- S2. -/
theorem test_insqhi_second : (nextOf (exec (.insqhi at3 at2) sOne)).map (fun s =>
    ([0x1000, 0x1004, 0x2000, 0x2004, 0x3000, 0x3004].map s.mem.read4, codes s)) =
    some ([0x1000, 0x1004, 0x2000, 0x2004, 0x3000, 0x3004].map sTwo.mem.read4,
      [false, false, false, false]) := by decide

/-- S10, tail insertion behind A. -/
theorem test_insqti_second : (nextOf (exec (.insqti at3 at2) sOne)).map (fun s =>
    ([0x1000, 0x1004, 0x2000, 0x2004, 0x3000, 0x3004].map s.mem.read4, codes s)) =
    some ([some 0x1000, some 0x2000, some 0x1000, some 0xFFFFF000, some 0xFFFFE000, some 0xFFFFF000],
      [false, false, false, false]) := by decide

/-- F5: a misaligned backward link, the header as before. -/
theorem test_insqti_fault : faultOf (exec (.insqti at3 at2) sBad) =
    some (.raised .reservedOperand sBad) := by decide

/-- S19: the destination is the base register of the header. -/
theorem test_remqhi_base_register : (nextOf (exec (.remqhi at2 (reg 2)) sOne)).map (fun s =>
    (s.reg 2, s.mem.read4 0x1000, s.mem.read4 0x1004, codes s)) =
    some (0x2000, some 0, some 0, [false, true, false, false]) := by decide

/-- S20: a destination in memory. -/
theorem test_remqhi_memory : (nextOf (exec (.remqhi at2 (abs 0x5000)) sTwo)).map (fun s =>
    ([0x5000, 0x2004, 0x1000, 0x1004, 0x3000].map s.mem.read4, codes s)) =
    some ([some 0x3000, some 0xFFFFF000, some 0x1000, some 0x1000, some 0xFFFFF000],
      [false, false, false, false]) := by decide

/-- S5 (from the queue [B, A]): the tail A is removed, its links kept. -/
theorem test_remqti_tail : (nextOf (exec (.remqti at2 (reg 3)) sTwo)).map (fun s =>
    ([0x3000, 0x1004, 0x1000, 0x2000, 0x2004].map s.mem.read4, s.reg 3, codes s)) =
    some ([some 0xFFFFE000, some 0x2000, some 0x2000, some 0xFFFFF000, some 0x1000], 0x2000,
      [false, false, false, false]) := by decide

/-- S8: the empty queue. -/
theorem test_remqti_empty : (nextOf (exec (.remqti at2 (reg 5)) sEmpty)).map (fun s =>
    (decide (s.mem = sEmpty.mem), s.reg 5, codes s)) =
    some (true, 0x1000, [false, true, true, false]) := by decide

/-- Q2: insertion at the tail of the absolute queue [A], through `@4(R2)`. -/
theorem test_insque_tail : (nextOf (exec (.insque at3 (.plain (.byteDispDeferred 2 4))) qOne)).map
    (fun s => ([0x1000, 0x1004, 0x2000, 0x2004, 0x3000, 0x3004].map s.mem.read4, codes s, s.pc)) =
    some ([0x1000, 0x1004, 0x2000, 0x2004, 0x3000, 0x3004].map qTwo.mem.read4,
      [true, false, false, true], 4) := by decide

/-- Q8, second instruction: the signed and the unsigned compare differ. -/
theorem test_insque_signs : (nextOf (exec (.insque (abs 0x2000) (abs 0x1000)) (machineWith 0 0 0 [0x2000]
      [(0x80000000, 0x1000), (0x80000004, 0x1000), (0x1000, 0x80000000), (0x1004, 0x80000000)]))).map
    (fun s => ([0x2000, 0x2004, 0x80000004, 0x1000].map s.mem.read4, codes s)) =
    some ([some 0x80000000, some 0x1000, some 0x2000, some 0x2000],
      [true, false, false, false]) := by decide

/-- Q7: a header of an empty queue. -/
theorem test_remque_empty : (nextOf (exec (.remque at2 (reg 5))
      (machine 0 0x1000 0 [(0x1000, 0x1000), (0x1004, 0x1000)]))).map
    (fun s => (s.mem.read4 0x1000, s.mem.read4 0x1004, s.reg 5, codes s)) =
    some (some 0x1000, some 0x1000, 0x1000, [false, true, true, false]) := by decide

/-- Q9: unaligned elements. -/
theorem test_remque_unaligned : (nextOf (exec (.remque (abs 0x2003) (reg 5)) (machineWith 0 0 0
      [0x1000, 0x1008, 0x2000, 0x2008]
      [(0x1001, 0x2003), (0x1005, 0x2003), (0x2003, 0x1001), (0x2007, 0x1001)]))).map
    (fun s => (s.mem.read4 0x1001, s.mem.read4 0x1005, s.reg 5, codes s)) =
    some (some 0x1001, some 0x1001, 0x2003, [false, true, false, false]) := by decide

/-- Part 6, codes 0 0 1 1, and `11 FE`, a branch to itself. -/
theorem test_branches : ((nextOf (exec (.beql 5) (sEmpty.setCC false false true true))).map State.pc,
      (nextOf (exec (.bvs 5) (sEmpty.setCC false false true true))).map State.pc,
      (nextOf (exec (.bcs 0x80) (sEmpty.setCC false false true true))).map State.pc,
      (nextOf (exec (.brb 0xFE) sEmpty)).map State.pc) =
    (some 2, some 7, some 0xFFFFFF82, some 0) := by decide

/-- S16 and S17: the interlock set, memory as it was. -/
theorem test_interlock_set : ((nextOf (exec (.insqti at1 at2) sSet)).map fun s =>
      (decide (s.mem = sSet.mem), codes s, s.pc),
    (nextOf (exec (.remqhi at2 (reg 4)) sSet)).map fun s =>
      (decide (s.mem = sSet.mem), codes s, s.reg 4)) =
    (some (true, [false, false, false, true], 3),
      some (true, [false, false, true, true], 0)) := by decide

/-- F4: `(header)<2:1>` not zero; F9: `addr` at the header; F3: header equal to entry. -/
theorem test_reserved_operands :
    faultOf (exec (.remqti at2 (reg 4)) (machine 0 0x1000 0 [(0x1000, 0x2002), (0x1004, 0)])) =
      some (.raised .reservedOperand (machine 0 0x1000 0 [(0x1000, 0x2002), (0x1004, 0)])) ∧
    faultOf (exec (.remqhi at2 (abs 0x1000)) sOne) = some (.raised .reservedOperand sOne) ∧
    faultOf (exec (.insqhi at2 at2) sOne) = some (.raised .reservedOperand sOne) := by decide

/-- F10: the probe of the old head's backward link fails in step B. -/
theorem test_probe_fault : faultOf (exec (.insqhi at3 at2) (denyAt 0x2000 sOne)) =
    some (.raised (.memoryManagement .accessControlViolation 0x2004) (denyAt 0x2000 sOne)) := by decide

/-- F15 and F16: register mode and a short literal as addresses. -/
theorem test_reserved_addressing :
    faultOf (exec (.insqhi (reg 1) at2) sOne) = some (.raised .reservedAddressingMode sOne) ∧
    faultOf (exec (.insqhi (.plain (.literal 5)) at2) sOne) =
      some (.raised .reservedAddressingMode sOne) := by decide

/-- X1: either outcome, whatever the free choice. -/
theorem test_unpredictable :
    faultOf (exec (.insqhi (abs 0x2004) at2) sSet) = some (.raised .reservedOperand sSet) ∨
    (nextOf (exec (.insqhi (abs 0x2004) at2) sSet)).map (fun s => (decide (s.mem = sSet.mem), codes s)) =
      some (true, [false, false, false, true]) := by
  have ha : acquire 0x1000 [.reservedOperand] (sSet.insqhiLinks 0x1000) (sSet.release.advance 7) =
      if Config.unpredChoice 0 then .error (.raise .reservedOperand)
      else .ok (none, { sSet.release.advance 7 with draws := 1 }) := rfl
  have he : exec (.insqhi (abs 0x2004) at2) sSet = afterStepA sSet (do
      match ← acquire 0x1000 [.reservedOperand] (sSet.insqhiLinks 0x1000) (sSet.release.advance 7) with
      | (none, s) => .ok (insertionFailed s)
      | (some forward, s) =>
        require (consistentHeader s 0x1000 forward) .inconsistentHeader
        hold sSet (.insqhi 0x2004) 0x1000 forward s) := rfl
  rw [he, ha]
  cases Config.unpredChoice 0
  · exact .inr (by decide)
  · exact .inl (by decide)

/-- D8: of two conditions that hold, found by checks of different phases, any one is reported. -/
theorem test_any_condition : let s := denyAt 0x2000 sOne
    ∃ x ∈ [Exception.reservedOperand, .memoryManagement .accessControlViolation 0x2004],
      exec (.insqhi at2 at2) s = .fault (.raised x s) :=
  ⟨_, choose_mem _ .reservedOperand [.memoryManagement .accessControlViolation 0x2004], rfl⟩

/-- D5: an entry that memory does not map. -/
theorem test_unmapped : faultOf (exec (.insque (abs 0x6000) at2) qOne) =
    some (.raised (.memoryManagement .translationNotValid 0x6000) qOne) := by decide

/-- D20: an entry that is already in the queue, further on than the header's neighbour. -/
theorem test_already_in_queue :
    refusalOf (exec (.insqhi at1 at2) sTwo) = some .overlap ∧
    refusalOf (exec (.insqti at3 at2) sTwo) = some .overlap ∧
    refusalOf (exec (.insque at3 at2) qTwo) = some .overlap := by decide

/-- D20: the removal of an entry that has been removed before, its links kept, and of one whose queue is
broken further on. -/
theorem test_not_in_queue :
    ((nextOf (exec (.remque at1 (reg 5)) qTwo)).bind fun s =>
      refusalOf (exec (.remque (abs 0x2000) (reg 5)) s)) = some .notInQueue ∧
    refusalOf (exec (.remque at1 (reg 5)) { qTwo with mem := qTwo.mem.write4 0x3000 0x4000 }) =
      some .notInQueue := by decide

/-- D9: another processor has read a link that step B of REMQHI only reads, the removed entry's. -/
theorem test_read_races : ((nextOf (exec (.remqhi at2 (reg 5)) (withOther sTwo))).bind fun s =>
      refusalOf (step { s with others := [{ Cpu.reset with touched := [⟨0x3000, none⟩] }] })) =
    some (.race 0x3000) := by decide

/-- P5, steps 1 and 4: step A sets the interlock, step B links the entry and releases it. -/
theorem test_two_steps : ((nextOf (exec (.insqhi at1 at2) (withOther sEmpty))).map fun s =>
      (s.mem.read4 0x1000, s.cpu.pending.isSome, codes s),
    ((nextOf (exec (.insqhi at1 at2) (withOther sEmpty))).bind fun s => nextOf (step s)).map fun s =>
      ([0x1000, 0x1004, 0x2000, 0x2004].map s.mem.read4, s.cpu.pending.isSome, codes s)) =
    (some (some 1, true, [true, true, true, true]),
      some ([some 0x1000, some 0x1000, some 0xFFFFF000, some 0xFFFFF000], false,
        [false, true, false, false])) := by decide

/-- The first instruction after reset, placed as the host places it: `11 F6` at address 0. -/
theorem test_first_step : (nextOf (step (State.reset.withFetchWord 16 0xF611))).map State.pc =
    some 0xFFFFFFF8 := by decide

/-! ## Witnesses: states and operands that meet the hypotheses of the statements -/

/-- A state with the bytes given as code at 0x200 and the program counter there. -/
def coded (bytes : List Byte) (s : State) : State :=
  { s.setPc 0x200 with
    mem := placeBytes s.mem 0x200 bytes
    params := { s.params with text := [⟨0x200, bytes.length⟩] } }

theorem witness_DecodeOfEncode : (Instr.remqti (.indexed 3 (.byteDispDeferred 15 0x80))
    (.plain (.autodec 14))).wf = true := by decide

theorem witness_DecodeIsExact : decode [0x5E, 0x43, 0x62, 0x50, 0xFF] =
    .ok (.remqhi (.indexed 3 (.deferred 2)) (reg 0), [0xFF]) := rfl

theorem witness_StepRunsTheDecodedInstruction :
    let s := coded [0x5C, 0x61, 0x62] sEmpty
    (Instr.insqhi at1 at2).wf = true ∧ s.cpu.pending = none ∧ s.params.endAt ≠ some s.pc ∧
      s.holdsCode s.pc (encode (.insqhi at1 at2)) = true := by decide

/-- A processor between its two steps, and one at END. -/
theorem witness_StepWithoutFetch :
    (∃ s p, nextOf (exec (.insqhi at1 at2) (withOther sEmpty)) = some s ∧ s.cpu.pending = some p) ∧
    (let s := { sEmpty with params := { sEmpty.params with endAt := some 0 } };
      s.cpu.pending = none ∧ s.params.endAt = some s.pc) :=
  ⟨⟨_, _, rfl, rfl⟩, by decide⟩

/-- 0x00, HALT, is outside the table. -/
theorem witness_OpcodesOutsideTheTable :
    let s := coded [0x00] sEmpty
    s.cpu.pending = none ∧ s.params.endAt ≠ some s.pc ∧
      (0x00 : Byte) ∉ ([0x0E, 0x0F, 0x11, 0x13, 0x1D, 0x1F, 0x5C, 0x5D, 0x5E, 0x5F] : List Byte) ∧
      s.holdsCode s.pc [0x00] = true := by decide

/-- BRB with its displacement byte at 0xFFFFFFFF, and one whose opcode byte is there. -/
theorem witness_ProgramCounterWrapStops :
    (let s := { sEmpty.setPc 0xFFFFFFFE with
        mem := placeBytes [] 0xFFFFFFFE [0x11]
        params := { sEmpty.params with text := [⟨0xFFFFFFFE, 1⟩] } };
      s.cpu.pending = none ∧ s.params.endAt ≠ some s.pc ∧ encode (.brb 0) = [0x11] ++ 0x00 :: [] ∧
      s.holdsCode s.pc [0x11] = true ∧ s.pc + BitVec.ofNat 32 [0x11#8].length = 0xFFFFFFFF) ∧
    (let s := sEmpty.setPc 0xFFFFFFFF;
      s.holdsCode s.pc [] = true ∧ encode (.brb 0) = [] ++ 0x11 :: [0x00] ∧
        s.pc + BitVec.ofNat 32 ([] : List Byte).length = 0xFFFFFFFF) := by decide

theorem witness_step_answers : (nextOf (step (coded [0x5C, 0x61, 0x62] sEmpty))).isSome = true ∧
    (nextOf (step (withOther (coded [0x11, 0xFE] sEmpty)))).isSome = true := by decide

theorem witness_Branches : ∀ d : BitVec 8,
    (∃ i op taken, i = Instr.brb d ∧ op = 0x11#8 ∧ taken = true) ∧
      (∃ i op taken, i = Instr.beql d ∧ op = 0x13#8 ∧ taken = sEmpty.cpu.psl.getLsbD 2) ∧
      (∃ i op taken, i = Instr.bvs d ∧ op = 0x1D#8 ∧ taken = sEmpty.cpu.psl.getLsbD 1) ∧
      (∃ i op taken, i = Instr.bcs d ∧ op = 0x1F#8 ∧ taken = sEmpty.cpu.psl.getLsbD 0) :=
  fun _ => ⟨⟨_, _, _, rfl, rfl, rfl⟩, ⟨_, _, _, rfl, rfl, rfl⟩, ⟨_, _, _, rfl, rfl, rfl⟩,
    ⟨_, _, _, rfl, rfl, rfl⟩⟩

/-- Operands that evaluate, the second on what the first leaves: `(R2)+, (R2)`; and operands that stop. -/
theorem witness_OperandsInStreamOrder :
    (∃ t, evalInsertion .quad (.plain (.autoinc 2)) at2 sEmpty = .ok (0x1000, 0x1001, t)) ∧
    (∃ t, evalRemoval .quad (.plain (.autoinc 2)) at2 sEmpty = .ok (0x1000, .mem 0x1008, t)) ∧
    evalDest at2 sEmpty = .ok (.mem 0x1000, sEmpty.advance 1) ∧
    evalDest (abs 0x1000) sEmpty = .ok (.mem 0x1000, sEmpty.advance 5) ∧
    evalInsertion .byte at1 (reg 2) sEmpty = .error (.raise .reservedAddressingMode) ∧
    evalRemoval .quad (reg 2) at1 sEmpty = .error (.raise .reservedAddressingMode) ∧
    evalInsertion .quad (.plain (.deferred 15)) at1 sEmpty = .error (.refuse .unpredictableSpecifier) ∧
    evalRemoval .byte at1 (reg 15) sEmpty = .error (.refuse .unpredictableSpecifier) ∧
    sEmpty.cpu.pending = none :=
  ⟨⟨_, rfl⟩, ⟨_, rfl⟩, rfl, rfl, rfl, rfl, rfl, rfl, rfl⟩

theorem witness_ShortLiteralFaults :
    (∃ x, evalAddress .byte at1 (sOne.advance 1) = .ok x) ∧
    (∃ x, evalAddress .byte at1 (sOne.release.advance 1) = .ok x) ∧
    (∃ x, evalAddress .quad at2 (sOne.release.advance 1) = .ok x) :=
  ⟨⟨_, rfl⟩, ⟨_, rfl⟩, ⟨_, rfl⟩⟩

/-- `(R2)[R3]` runs; `(R2)+[R2]` and an immediate base are refused. -/
theorem witness_IndexedAddress :
    (∃ base t, (3 : Reg) ≠ pcReg ∧ baseSteps (.deferred 2) ≠ some 3 ∧
      evalAddress .quad at2 (sOne.advance 1) = .ok (base, t)) ∧
    ((2 : Reg) ≠ pcReg ∧ baseSteps (.autoinc 2) = some 2) :=
  ⟨⟨_, _, by decide, by decide, rfl⟩, by decide⟩

theorem witness_general_register : (0 : Reg) ≠ pcReg ∧ (14 : Reg) ≠ pcReg := by decide

/-- The pointer of `@(R2)+` can be read in one state and not in another. -/
theorem witness_AutoincrementDeferredAddress :
    ((denyAt 0x1000 sOne).probe ((denyAt 0x1000 sOne).reg 2) 4 .read =
      some (.memoryManagement .accessControlViolation 0x1000)) ∧
    (let s := withOther sOne;
      s.raceFree none (s.reg 2) = true ∧ s.probe (s.reg 2) 4 .read = none ∧
        s.mem.read4 (s.reg 2) = some 0x1000) := by decide

/-- The pointer of `@4(R2)`, `@-4(R2)`. -/
theorem witness_DisplacementDeferredAddress :
    ((denyAt 0x1000 sOne).probe ((denyAt 0x1000 sOne).reg 2 + BitVec.signExtend 32 (4#8)) 4 .read =
      some (.memoryManagement .accessControlViolation 0x1004)) ∧
    (let s := withOther sOne;
      let p := s.reg 2 + BitVec.signExtend 32 (4#8);
      s.raceFree none p = true ∧ s.probe p 4 .read = none ∧ s.mem.read4 p = some 0x1000) := by decide

/-- The pointer of a PC-relative deferred form. -/
theorem witness_PcModesAddress :
    let s := (withOther sOne).setPc 0xFFE
    (s.raceFree none (s.pc + 2 + BitVec.signExtend 32 (0#8)) = true ∧
      s.probe (s.pc + 2 + BitVec.signExtend 32 (0#8)) 4 .read = none ∧
      s.mem.read4 (s.pc + 2 + BitVec.signExtend 32 (0#8)) = some 0x1000) ∧
    (denyAt 0x1000 s).probe (s.pc + 2 + BitVec.signExtend 32 (0#8)) 4 .read =
      some (.memoryManagement .accessControlViolation 0x1000) := by decide

theorem witness_MemoryPrimitives : 4 ∈ [1, 2, 4, 8] ∧
    ∃ bytes : Nat → Byte, ∀ i < 4, sOne.mem.readByte (0x1000#32 + BitVec.ofNat 32 i).toNat =
      some (bytes i) :=
  ⟨by decide, fun i => if i = 1 then 0x10 else 0, by decide⟩

/-- The boundary of one quadword, a write probe that is ok, and a byte that memory does not hold. -/
theorem witness_ProbeLaws : (0x1000#32).toNat / 8 = (0x1007#32).toNat / 8 ∧
    sOne.params.access.probe sOne.mem .write .user 0x1000 8 = none ∧
    sOne.mem.readByte (0x1000#32 + BitVec.ofNat 32 8).toNat = none := by decide

/-- The operands of the instructions the results below are about. -/
theorem witness_operands :
    evalInsertion .quad at1 at2 sEmpty = .ok (0x2000, 0x1000, sEmpty.advance 3) ∧
    evalInsertion .quad at3 at2 sOne = .ok (0x3000, 0x1000, sOne.advance 3) ∧
    evalRemoval .quad at2 (reg 3) sTwo = .ok (0x1000, .reg 3, sTwo.advance 3) ∧
    evalRemoval .quad at2 (abs 0x5000) sTwo = .ok (0x1000, .mem 0x5000, sTwo.advance 7) :=
  ⟨rfl, rfl, rfl, rfl⟩

/-- Whatever the state, absolute and register specifiers give any operands the statements need. -/
theorem witness_any_operands (a b : Word) (s : State) :
    (∃ t, evalInsertion .quad (abs a) (abs b) s = .ok (a, b, t)) ∧
    (∃ t, evalInsertion .byte (abs a) (abs b) s = .ok (a, b, t)) ∧
    (∃ t, evalRemoval .quad (abs a) (abs b) s = .ok (a, .mem b, t)) ∧
    (∃ t, evalRemoval .byte (abs a) (abs b) s = .ok (a, .mem b, t)) ∧
    (∃ t, evalRemoval .quad (abs a) (reg 3) s = .ok (a, .reg 3, t)) ∧
    ∃ t, evalRemoval .byte (abs a) (reg 3) s = .ok (a, .reg 3, t) :=
  ⟨⟨_, rfl⟩, ⟨_, rfl⟩, ⟨_, rfl⟩, ⟨_, rfl⟩, ⟨_, rfl⟩, ⟨_, rfl⟩⟩

theorem queue_sOne : SRQueue sOne.mem 0x1000 [0x2000] = true := by decide

theorem queue_sTwo : SRQueue sTwo.mem 0x1000 [0x3000, 0x2000] = true := by decide

theorem witness_InsqhiResult :
    sOne.cpu.pending = none ∧ sOne.others = [] ∧
    evalInsertion .quad at3 at2 sOne = .ok (0x3000, 0x1000, sOne.advance 3) ∧
    sOne.mem.read4 0x1000 = some 0x1000 ∧ interlockSet 0x1000 = false ∧
    (∀ x, ¬ InsertionCondition sOne 0x3000 0x1000 0x1000 x) ∧
    sOne.probe 0x1000 8 .write = none ∧ sOne.probe (0x1000 + 0x1000 + 4) 4 .write = none ∧
    consistentHeader sOne 0x1000 0x1000 = true ∧
    selfApart sOne.mem 0x1000 (0x1000 + 0x1000) (elementsApart 0x3000) ∧
    sOne.writable [0x3000, 0x3000 + 4, 0x1000 + 0x1000 + 4, 0x1000] = true :=
  ⟨rfl, rfl, rfl, by decide, by decide, no_insertionCondition (by decide) (by decide), by decide,
    by decide, by decide, selfApart_of_queue queue_sOne (List.all_eq_true.1 (by decide)), by decide⟩

theorem witness_InsqtiResult :
    sOne.cpu.pending = none ∧ sOne.others = [] ∧
    evalInsertion .quad at3 at2 sOne = .ok (0x3000, 0x1000, sOne.advance 3) ∧
    sOne.mem.read4 0x1000 = some 0x1000 ∧ interlockSet 0x1000 = false ∧
    (∀ x, ¬ InsertionCondition sOne 0x3000 0x1000 0x1000 x) ∧
    sOne.mem.read4 (0x1000 + 4) = some 0x1000 ∧ aligned8 0x1000 = true ∧
    ((0x1000 : Word) = 0 ↔ (0x1000 : Word) = 0) ∧
    sOne.probe 0x1000 8 .write = none ∧ sOne.probe (0x1000 + 0x1000) 4 .write = none ∧
    (0x3000 : Word) ≠ 0x1000 + 0x1000 ∧
    selfApart sOne.mem 0x1000 (0x1000 + 0x1000) (elementsApart 0x3000) ∧
    sOne.writable [0x3000, 0x3000 + 4, 0x1000 + 0x1000, 0x1000, 0x1000 + 4] = true :=
  ⟨rfl, rfl, rfl, by decide, by decide, no_insertionCondition (by decide) (by decide), by decide,
    by decide, Iff.rfl, by decide, by decide, by decide,
    selfApart_of_queue queue_sOne (List.all_eq_true.1 (by decide)), by decide⟩

/-- A destination in a register, and (below) one in memory. -/
theorem witness_RemqhiResult :
    sTwo.cpu.pending = none ∧ sTwo.others = [] ∧
    evalRemoval .quad at2 (abs 0x5000) sTwo = .ok (0x1000, .mem 0x5000, sTwo.advance 7) ∧
    sTwo.mem.read4 0x1000 = some 0x2000 ∧ interlockSet 0x2000 = false ∧
    (∀ x, ¬ RemovalCondition sTwo 0x1000 (.mem 0x5000) 0x2000 x) ∧ (0x2000 : Word) ≠ 0 ∧
    sTwo.mem.read4 (0x1000 + 0x2000) = some 0xFFFFF000 ∧ aligned8 0xFFFFF000 = true ∧
    (0xFFFFF000 : Word) ≠ 0 ∧ sTwo.probe 0x1000 8 .write = none ∧
    sTwo.probe (0x1000 + 0x2000) 4 .read = none ∧
    sTwo.probe (0x1000 + 0x2000 + 0xFFFFF000 + 4) 4 .write = none ∧
    consistentHeader sTwo 0x1000 0x2000 = true ∧ (Dest.mem 0x5000).apart 0x1000 = true ∧
    (Dest.mem 0x5000).apart (0x1000 + 0x2000 + 0xFFFFF000) = true ∧
    selfApart sTwo.mem 0x1000 (0x1000 + 0x2000) (Dest.mem 0x5000).apart ∧
    sTwo.acceptsDest (.mem 0x5000) = true ∧
    sTwo.writable [0x1000, 0x1000 + 0x2000 + 0xFFFFF000 + 4] = true :=
  ⟨rfl, rfl, rfl, by decide, by decide, no_removalCondition (by decide) (by decide), by decide,
    by decide, by decide, by decide, by decide, by decide, by decide, by decide, by decide, by decide,
    selfApart_of_queue queue_sTwo (List.all_eq_true.1 (by decide)), by decide, by decide⟩

theorem witness_RemqtiResult :
    sTwo.cpu.pending = none ∧ sTwo.others = [] ∧
    evalRemoval .quad at2 (reg 3) sTwo = .ok (0x1000, .reg 3, sTwo.advance 3) ∧
    sTwo.mem.read4 0x1000 = some 0x2000 ∧ interlockSet 0x2000 = false ∧
    (∀ x, ¬ RemovalCondition sTwo 0x1000 (.reg 3) 0x2000 x) ∧ (0x2000 : Word) ≠ 0 ∧
    sTwo.mem.read4 (0x1000 + 4) = some 0x1000 ∧ aligned8 0x1000 = true ∧ (0x1000 : Word) ≠ 0 ∧
    sTwo.mem.read4 (0x1000 + 0x1000 + 4) = some 0x1000 ∧
    sTwo.probe 0x1000 8 .write = none ∧ sTwo.probe (0x1000 + 0x1000 + 4) 4 .read = none ∧
    sTwo.probe (0x1000 + 0x1000 + 0x1000) 4 .write = none ∧ (Dest.reg 3).apart 0x1000 = true ∧
    selfApart sTwo.mem 0x1000 (0x1000 + 0x2000) (Dest.reg 3).apart ∧ sTwo.acceptsDest (.reg 3) = true ∧
    sTwo.writable [0x1000, 0x1000 + 4, 0x1000 + 0x1000 + 0x1000] = true :=
  ⟨rfl, rfl, rfl, by decide, by decide, no_removalCondition (by decide) (by decide), by decide,
    by decide, by decide, by decide, by decide, by decide, by decide, by decide, by decide,
    fun _ _ _ => rfl, by decide, by decide⟩

/-- With another processor about, and a destination in memory. -/
theorem witness_RemoveFromEmptyResult : let s := withOther sEmpty
    s.cpu.pending = none ∧
    evalRemoval .quad at2 (abs 0x3000) s = .ok (0x1000, .mem 0x3000, s.advance 7) ∧
    s.mem.read4 0x1000 = some 0 ∧ s.mem.read4 (0x1000 + 4) = some 0 ∧
    (∀ x, ¬ RemovalCondition s 0x1000 (.mem 0x3000) 0 x) ∧ s.probe 0x1000 8 .write = none ∧
    (Dest.mem 0x3000).apart 0x1000 = true ∧ s.acceptsDest (.mem 0x3000) = true ∧
    s.raceFree (some 0x1000) 0x1000 = true ∧ s.raceFreeDest (.mem 0x3000) = true ∧
    s.raceFree (some 0x1000) (0x1000 + 4) = true :=
  ⟨rfl, rfl, by decide, by decide, no_removalCondition (by decide) (by decide), by decide,
    by decide, by decide, by decide, by decide, by decide⟩

/-- The interlock set: by another processor that has taken its step A; without a condition (S16), and with
one (X1, X2). -/
theorem witness_FindsInterlockSet :
    (let s := { sSet with others := [{ Cpu.reset with touched := [⟨0x1000, some 0x1000⟩] }] };
      s.probe 0x1000 8 .write = none ∧ s.raceFree (some 0x1000) 0x1000 = true ∧
      s.cpu.pending = none ∧ (nextOf (exec (.insqhi at1 at2) s)).map codes =
        some [false, false, false, true]) ∧
    (sSet.cpu.pending = none ∧ sSet.raceFree (some 0x1000) 0x1000 = true ∧
      sSet.probe 0x1000 8 .write = none ∧ sSet.mem.read4 0x1000 = some 1 ∧ interlockSet 1 = true) ∧
    evalInsertion .quad at1 at2 sSet = .ok (0x2000, 0x1000, sSet.advance 3) ∧
    (∀ x, ¬ InsertionCondition sSet 0x2000 0x1000 1 x) ∧
    (∃ x, InsertionCondition sSet 0x2004 0x1000 1 x) ∧
    evalRemoval .quad at2 (reg 4) sSet = .ok (0x1000, .reg 4, sSet.advance 3) ∧
    (∀ x, ¬ RemovalCondition sSet 0x1000 (.reg 4) 1 x) ∧
    (∃ x, RemovalCondition sSet 0x1000 (.reg 4) 3 x) :=
  ⟨by decide, by decide, rfl, no_insertionCondition (by decide) (by decide),
    ⟨_, .inl ⟨rfl, .inl (by decide)⟩⟩, rfl, no_removalCondition (by decide) (by decide),
    ⟨_, .inl ⟨rfl, .inr (.inr (by decide))⟩⟩⟩

/-- Each condition of an insertion and of a removal, on a header whose interlock is clear. -/
theorem witness_ConditionFaults :
    (sOne.cpu.pending = none ∧ sOne.raceFree (some 0x1000) 0x1000 = true ∧
      sOne.probe 0x1000 8 .write = none ∧
      sOne.mem.read4 0x1000 = some 0x1000 ∧ interlockSet 0x1000 = false) ∧
    (∃ x, InsertionCondition sOne 0x2004 0x1000 0x1000 x) ∧
    (∃ x, InsertionCondition sOne 0x1000 0x1000 0x1000 x) ∧
    (∃ x, InsertionCondition (denyAt 0x3000 sOne) 0x3000 0x1000 0x1000 x) ∧
    (∃ x, InsertionCondition sOne 0x3000 0x1000 0x1006 x) ∧
    (∃ x, RemovalCondition sOne 0x1004 (.reg 3) 0x1000 x) ∧
    (∃ x, RemovalCondition sOne 0x1000 (.mem 0x1000) 0x1000 x) ∧
    (∃ x, RemovalCondition (denyAt 0x5000 sOne) 0x1000 (.mem 0x5000) 0x1000 x) :=
  ⟨by decide, ⟨_, .inl ⟨rfl, .inl (by decide)⟩⟩, ⟨_, .inl ⟨rfl, .inr (.inr (.inl rfl))⟩⟩,
    ⟨.memoryManagement .accessControlViolation 0x3000, .inr (by decide)⟩,
    ⟨_, .inl ⟨rfl, .inr (.inr (.inr (by decide)))⟩⟩, ⟨_, .inl ⟨rfl, .inl (by decide)⟩⟩,
    ⟨_, .inl ⟨rfl, .inr (.inl rfl)⟩⟩,
    ⟨.memoryManagement .accessControlViolation 0x5000, .inr ⟨_, rfl, by decide⟩⟩⟩

theorem witness_InaccessibleHeaderFaults :
    (denyAt 0x1000 sOne).cpu.pending = none ∧
    (denyAt 0x1000 sOne).probe 0x1000 8 .write =
      some (.memoryManagement .accessControlViolation 0x1000) ∧
    (∃ t, evalInsertion .quad at3 at2 (denyAt 0x1000 sOne) = .ok (0x3000, 0x1000, t)) ∧
    (∃ t, evalRemoval .quad at2 (reg 3) (denyAt 0x1000 sOne) = .ok (0x1000, .reg 3, t)) :=
  ⟨rfl, by decide, ⟨_, rfl⟩, ⟨_, rfl⟩⟩

/-- F5 to F8 and F10: a header's backward link (INSQTI, REMQTI), the head entry's forward link (REMQHI) and the
tail entry's backward link (REMQTI) that are not aligned, and an element that cannot be accessed. -/
theorem witness_LinkConditionFaults :
    (let s := machineWith 0x2000 0x1000 0x3000 [0x2000, 0x3000]
        [(0x1000, 0x1000), (0x1004, 0x1004), (0x2000, 0xFFFFF004)];
      s.mem.wf = true ∧ s.cpu.pending = none ∧ s.others = [] ∧ s.mem.read4 0x1000 = some 0x1000 ∧
      interlockSet 0x1000 = false ∧ s.probe 0x1000 8 .write = none ∧ s.writable [0x1000] = true ∧
      insertionConditions 0x3000 0x1000 s = [] ∧ removalConditions 0x1000 (.reg 3) s = [] ∧
      consistentHeader s 0x1000 0x1000 = true ∧ s.insqtiLinks 0x1000 = [.reservedOperand] ∧
      s.remqhiLinks 0x1000 0x1000 ≠ [] ∧ .reservedOperand ∈ s.remqtiLinks 0x1000 0x1000) ∧
    (let s := machineWith 0x2000 0x1000 0x3000 [0x2000]
        [(0x1000, 0x1000), (0x1004, 0x1000), (0x2004, 0xFFFFF002)];
      s.mem.wf = true ∧ s.mem.read4 (0x1000 + 4) = some 0x1000 ∧
      .reservedOperand ∈ s.remqtiLinks 0x1000 0x1000) ∧
    (let s := denyAt 0x2000 sOne;
      s.insqhiLinks 0x1000 0x1000 = [.memoryManagement .accessControlViolation 0x2004] ∧
      s.insqtiLinks 0x1000 = [.memoryManagement .accessControlViolation 0x2000] ∧
      s.remqhiLinks 0x1000 0x1000 = [.memoryManagement .accessControlViolation 0x2000] ∧
      s.remqtiLinks 0x1000 0x1000 = [.memoryManagement .accessControlViolation 0x2004] ∧
      insertionConditions 0x3000 0x1000 s = [] ∧ removalConditions 0x1000 (.reg 3) s = []) ∧
    (let s := denyAt 0x2000 sTwo;
      s.remqhiLinks 0x1000 0x2000 = [.memoryManagement .accessControlViolation 0x2004]) ∧
    (let s := denyAt 0x3000 sTwo;
      s.remqtiLinks 0x1000 0x2000 = [.memoryManagement .accessControlViolation 0x3000]) := by decide

/-- The links of the list are the conditions of the statements. -/
theorem witness_LinkCondition :
    (∃ x, LinkCondition (.insqti at3 at2) sBad 0x1000 0x1000 x) ∧
    (∃ x, LinkCondition (.insqhi at3 at2) (denyAt 0x2000 sOne) 0x1000 0x1000 x) ∧
    (∃ x, LinkCondition (.remqhi at2 (reg 3)) (denyAt 0x2000 sOne) 0x1000 0x1000 x) ∧
    (∃ x, LinkCondition (.remqti at2 (reg 3)) (denyAt 0x2000 sOne) 0x1000 0x1000 x) :=
  ⟨⟨.reservedOperand, mem_insqtiLinks.1 (by decide)⟩,
    ⟨.memoryManagement .accessControlViolation 0x2004, mem_insqhiLinks.1 (by decide)⟩,
    ⟨.memoryManagement .accessControlViolation 0x2000, mem_remqhiLinks.1 (by decide)⟩,
    ⟨.memoryManagement .accessControlViolation 0x2004, mem_remqtiLinks.1 (by decide)⟩⟩

/-- A header as program text, one whose links disagree, an entry that is in the queue, and a destination that
overlaps an element: the header of an empty queue, the header's backward link, an entry. -/
theorem witness_RefusedPreconditions :
    (let s := { sOne with params := { sOne.params with text := [⟨0x1003, 1⟩] } };
      s.inText 0x1000 4 = true ∧ consistentHeader s 0x1000 0x1000 = true ∧
      insertionConditions 0x3000 0x1000 s = [] ∧ removalConditions 0x1000 (.reg 3) s = [] ∧
      s.remqtiLinks 0x1000 0x1000 = [] ∧ s.probe 0x1000 8 .write = none) ∧
    (let s := machineWith 0x2000 0x1000 0x3000 [0x2000, 0x3000] [(0x1000, 0x1000), (0x1004, 0)];
      consistentHeader s 0x1000 0x1000 = false ∧ insertionConditions 0x3000 0x1000 s = [] ∧
      removalConditions 0x1000 (.reg 3) s = [] ∧ s.insqtiLinks 0x1000 = [] ∧
      s.remqtiLinks 0x1000 0x1000 = [] ∧ s.inText 0x1000 4 = false ∧
      refusalOf (exec (.insqti at3 at2) s) = some .inconsistentHeader ∧
      refusalOf (exec (.remqti at2 (reg 3)) s) = some .inconsistentHeader) ∧
    (sTwo.inText 0x1000 4 = false ∧ insertionConditions 0x2000 0x1000 sTwo = [] ∧
      sTwo.insqhiLinks 0x1000 0x2000 = [] ∧ sTwo.insqtiLinks 0x1000 = []) ∧
    (removalConditions 0x1000 (.mem 0x1004) sTwo = [] ∧ (Dest.mem 0x1004).apart 0x1000 = false ∧
      removalConditions 0x1000 (.mem 0x2004) sTwo = [] ∧ (Dest.mem 0x2004).apart 0x2000 = false ∧
      sTwo.remqhiLinks 0x1000 0x2000 = [] ∧ sTwo.remqtiLinks 0x1000 0x2000 = []) ∧
    (SRQueue sEmpty.mem 0x1000 [] = true ∧ removalConditions 0x1000 (.mem 0x1004) sEmpty = [] ∧
      refusalOf (exec (.remqti at2 (abs 0x1004)) sEmpty) = some .overlap) := by decide

theorem queue_qOne : AbsQueue qOne.mem 0x1000 [0x2000] = true := by decide

theorem witness_InsqueResult :
    qOne.others = [] ∧ evalInsertion .byte at3 at2 qOne = .ok (0x3000, 0x1000, qOne.advance 3) ∧
    qOne.mem.read4 0x1000 = some 0x2000 ∧ qOne.probe 0x3000 8 .write = none ∧
    qOne.probe 0x1000 4 .write = none ∧ qOne.probe (0x2000 + 4) 4 .write = none ∧
    elementsApart 0x3000 0x1000 = true ∧ absApart qOne.mem 0x1000 0x2000 (elementsApart 0x3000) ∧
    elementsApart 0x2000 0x1000 = true ∧
    qOne.writable [0x3000, 0x3000 + 4, 0x2000 + 4, 0x1000] = true :=
  ⟨rfl, rfl, by decide, by decide, by decide, by decide, by decide,
    absApart_of_queue queue_qOne (List.all_eq_true.1 (by decide)), by decide, by decide⟩

theorem witness_RemqueResult :
    qTwo.others = [] ∧ evalRemoval .byte at1 (reg 5) qTwo = .ok (0x2000, .reg 5, qTwo.advance 3) ∧
    qTwo.mem.read4 0x2000 = some 0x3000 ∧ qTwo.mem.read4 (0x2000 + 4) = some 0x1000 ∧
    qTwo.probe 0x2000 8 .read = none ∧ qTwo.probe 0x1000 4 .write = none ∧
    qTwo.probe (0x3000 + 4) 4 .write = none ∧ AbsQueue qTwo.mem 0x2000 [0x3000, 0x1000] = true ∧
    (∀ x ∈ ([0x2000, 0x3000, 0x1000] : List Word), (Dest.reg 5).apart x = true) ∧
    qTwo.acceptsDest (.reg 5) = true ∧ qTwo.writable [0x1000, 0x3000 + 4] = true :=
  ⟨rfl, rfl, by decide, by decide, by decide, by decide, by decide, by decide, fun _ _ => rfl, by decide,
    by decide⟩

/-- The operand probes and the probes of the neighbours, each failing in one state. -/
theorem witness_AbsoluteProbeFaults :
    (∃ x, InsqueCondition (denyAt 0x3000 qOne) 0x3000 0x1000 x) ∧
    (∃ x, InsqueCondition (denyAt 0x2000 qOne) 0x3000 0x1000 x) ∧
    (∃ x, RemqueCondition (denyAt 0x2000 qTwo) 0x2000 (.reg 5) x) ∧
    (∃ x, RemqueCondition (denyAt 0x3000 qTwo) 0x2000 (.reg 5) x) ∧
    ((denyAt 0x3000 qOne).raceFree none 0x1000 = true ∧ (denyAt 0x2000 qTwo).raceFree none 0x2000 = true ∧
      (denyAt 0x2000 qTwo).raceFree none (0x2000 + 4) = true) :=
  ⟨⟨.memoryManagement .accessControlViolation 0x3000, .inl (by decide)⟩,
    ⟨.memoryManagement .accessControlViolation 0x2004, .inr (.inr ⟨by decide, 0x2000, by decide, by decide⟩)⟩,
    ⟨.memoryManagement .accessControlViolation 0x2000, .inl (by decide)⟩,
    ⟨.memoryManagement .accessControlViolation 0x3004,
      .inr (.inr ⟨by decide, 0x3000, 0x1000, by decide, by decide, .inr (by decide)⟩)⟩, by decide⟩

/-- An entry in the queue, one that is in none, a destination that overlaps an element; no condition holds. -/
theorem witness_AbsoluteRefusals :
    (∀ x, ¬ InsqueCondition qTwo 0x3000 0x1000 x) ∧
    AbsQueue qTwo.mem 0x1000 [0x2000, 0x3000] = true ∧ elementsApart 0x3000 0x3000 = false ∧
    (∀ x, ¬ RemqueCondition qTwo 0x2000 (.mem 0x3004) x) ∧
    AbsQueue qTwo.mem 0x2000 [0x3000, 0x1000] = true ∧ (Dest.mem 0x3004).apart 0x3000 = false ∧
    (let s := { qTwo with mem := qTwo.mem.write4 0x3004 0x4000 };
      (∀ x, ¬ RemqueCondition s 0x2000 (.reg 5) x) ∧ s.mem.read4 0x2000 = some 0x3000 ∧
      s.mem.read4 (0x2000 + 4) = some 0x1000 ∧ s.mem.read4 (0x3000 + 4) ≠ some 0x2000 ∧
      refusalOf (exec (.remque at1 (reg 5)) s) = some .notInQueue) :=
  ⟨no_insqueCondition (by decide) (by decide), by decide, by decide,
    no_remqueCondition (by decide) (by decide), by decide, by decide,
    no_remqueCondition (by decide) (by decide), by decide, by decide, by decide, by decide⟩

/-- Every instruction answers a next state somewhere, so the frames say something of each. -/
theorem witness_frames :
    (nextOf (exec (.insqhi at3 at2) sOne)).isSome = true ∧
    (nextOf (exec (.insqti at3 at2) sOne)).isSome = true ∧
    (nextOf (exec (.remqhi at2 (abs 0x5000)) sTwo)).isSome = true ∧
    (nextOf (exec (.remqti at2 (reg 3)) sTwo)).isSome = true ∧
    (nextOf (exec (.insque at3 at2) qOne)).isSome = true ∧
    (nextOf (exec (.remque at1 (reg 5)) qTwo)).isSome = true := by decide

/-- What the memory frames ask of memory besides. -/
theorem witness_memory_frames :
    (sOne.mem.read4 0x1000 = some 0x1000 ∧ sOne.mem.read4 (0x1000 + 4) = some 0x1000) ∧
    (sTwo.mem.read4 0x1000 = some 0x2000 ∧ sTwo.mem.read4 (0x1000 + 0x2000) = some 0xFFFFF000) ∧
    (sTwo.mem.read4 (0x1000 + 4) = some 0x1000 ∧
      sTwo.mem.read4 (0x1000 + 0x1000 + 4) = some 0x1000) ∧
    qOne.mem.read4 0x1000 = some 0x2000 ∧ qTwo.mem.read4 0x2000 = some 0x3000 ∧
    qTwo.mem.read4 (0x2000 + 4) = some 0x1000 := by decide

theorem witness_FaultsArePrecise : sOne.mem.wf = true ∧ sOne.cpu.pending = none ∧
    faultOf (exec (.insqhi at2 at2) sOne) = some (.raised .reservedOperand sOne) := by decide

/-- Step A of INSQTI on the header of F5, with another processor about; its step B faults. -/
theorem witness_StepBFaultRestores :
    ∃ s p t, nextOf (exec (.insqti at3 at2) (withOther sBad)) = some s ∧
      s.cpu.pending = some p ∧ faultOf (stepB p s) = some (.raised .reservedOperand t) ∧
      p.mapped s.mem = true :=
  ⟨_, _, _, rfl, rfl, rfl, by decide⟩

theorem witness_StepAHoldsTheInterlock :
    (withOther sTwo).cpu.pending = none ∧ (withOther sTwo).others ≠ [] ∧
    (withOther sTwo).mem.read4 0x1000 = some 0x2000 ∧ interlockSet 0x2000 = false ∧
    (withOther sTwo).probe 0x1000 8 .write = none ∧ (withOther sTwo).writable [0x1000] = true ∧
    (withOther sTwo).raceFree (some 0x1000) 0x1000 = true ∧
    (withOther sTwo).raceFree (some 0x1000) (0x1000 + 4) = true ∧
    consistentHeader (withOther sTwo) 0x1000 0x2000 = true ∧
    insertionConditions 0x4000 0x1000 (withOther sTwo) = [] ∧
    removalConditions 0x1000 (.reg 3) (withOther sTwo) = [] ∧
    (withOther sTwo).mem.read4 (0x1000 + 4) = some 0x1000 ∧ aligned8 0x1000 = true := by decide

theorem witness_HeldInterlockExcludes : sSet.cpu.pending = none ∧ sSet.mem.read4 0x1000 = some 1 ∧
    interlockSet 1 = true ∧ (nextOf (exec (.insqhi at1 at2) sSet)).isSome = true ∧
    (nextOf (exec (.remqti at2 (reg 4)) sSet)).isSome = true := by decide

theorem witness_TwoStepsAreTheInstruction :
    ∃ u p v w, (withOther sOne).cpu.pending = none ∧ (withOther sOne).others ≠ [] ∧
      nextOf (exec (.insqti at3 at2) (withOther sOne)) = some u ∧ u.cpu.pending = some p ∧
      nextOf (stepB p u) = some v ∧
      nextOf (exec (.insqti at3 at2) { withOther sOne with others := [] }) = some w ∧
      (∀ a ∈ p.accesses u.mem, (withOther sOne).raceFree (some p.header) a = true) ∧
      ∀ d, p.dest = some d → (withOther sOne).raceFreeDest d = true :=
  ⟨_, _, _, _, rfl, by decide, rfl, rfl, rfl, rfl, fun _ _ => rfl, fun d h => by cases d <;> rfl⟩

/-- Another processor has accessed the longword at 0x1000, where the predecessor's forward link, a neighbour's
link and the header of a half done instruction are. -/
theorem witness_RacesRefused :
    let y : Touch := { addr := 0x1000, via := none }
    let at1000 (s : State) := { s with others := [{ Cpu.reset with touched := [y] }] }
    (∃ c ∈ (at1000 qOne).others, y ∈ c.touched) ∧ overlaps 0x1000 4 y.addr 4 = true ∧
      y.via ≠ some 0x1000 ∧ refusalOf (exec (.insque at3 at2) (at1000 qOne)) = some (.race 0x1000) ∧
      qTwo.mem.read4 (0x2000 + 4) = some 0x1000 ∧
      refusalOf (exec (.remque at1 (reg 5)) (at1000 qTwo)) = some (.race 0x1000) ∧
      refusalOf (exec (.remqhi at2 (reg 5)) (at1000 sTwo)) = some (.race 0x1000) ∧
      (nextOf (exec (.insqhi (abs 0x4000) at2) (withOther sTwo))).bind (fun s =>
        s.cpu.pending.map fun p => (p.accesses s.mem, refusalOf (stepB p (at1000 s)))) =
          some ([0x1000, 0x4000, 0x4004, 0x3004], some (.race 0x1000)) :=
  ⟨⟨_, .head _, .head _⟩, by decide, by decide, by decide, by decide, by decide, by decide, by decide⟩

/-- States that meet the invariants and step: nothing held, and an interlock held among two processors, the
operands of the instruction that holds it in memory. -/
theorem witness_invariants :
    (let s := coded [0x5C, 0x61, 0x62] sEmpty;
      s.Inv = true ∧ (nextOf (step s)).isSome = true) ∧
    (let s := withOther (coded [0x5C, 0x61, 0x62] sEmpty);
      s.Inv = true ∧ ((nextOf (step s)).map State.Inv) = some true ∧
        ((nextOf (step s)).map fun t => t.cpu.pending.isSome) = some true) := by decide

theorem witness_program_text : (coded [0x5C, 0x61, 0x62] sEmpty).inText 0x202 1 = true ∧
    (coded [0x5C, 0x61, 0x62] sEmpty).inText 0x203 1 = false := by decide

/-- The queue [B, A] with the entry 0x4000 to come, and the same at its head and its tail. -/
theorem witness_self_relative_queues :
    SRQueue sTwo.mem 0x1000 [0x3000, 0x2000] = true ∧ SRQueue sEmpty.mem 0x1000 [] = true ∧
    aligned8 0x4000 = true ∧ (0x4000 : Word) ∉ ([0x1000, 0x3000, 0x2000] : List Word) ∧
    (∃ t, evalInsertion .quad (abs 0x4000) at2 sTwo = .ok (0x4000, 0x1000, t)) ∧
    (∀ x ∈ ([0x1000, 0x3000, 0x2000] : List Word), (Dest.mem 0x5000).apart x = true) ∧
    sTwo.probe 0x4000 8 .write = none ∧ sTwo.probe 0x1000 8 .write = none ∧
    sTwo.probe (0x3000 + 4) 4 .write = none ∧ sTwo.probe 0x2000 4 .write = none ∧
    sTwo.acceptsDest (.mem 0x5000) = true ∧
    sTwo.writable [0x4000, 0x4000 + 4, 0x3000 + 4, 0x2000, 0x1000, 0x1000 + 4] = true :=
  ⟨by decide, by decide, by decide, by decide, ⟨_, rfl⟩,
    (List.all_eq_true (p := fun x => (Dest.mem 0x5000).apart x)).1 (by decide), by decide, by decide,
    by decide, by decide, by decide, by decide⟩

/-- What the instructions make of those queues. -/
theorem test_self_relative_queues :
    (nextOf (exec (.insqhi (abs 0x4000) at2) sTwo)).map (fun u =>
      SRQueue u.mem 0x1000 [0x4000, 0x3000, 0x2000]) = some true ∧
    (nextOf (exec (.insqti (abs 0x4000) at2) sTwo)).map (fun u =>
      SRQueue u.mem 0x1000 [0x3000, 0x2000, 0x4000]) = some true ∧
    (nextOf (exec (.remqhi at2 (abs 0x5000)) sTwo)).map (fun u =>
      SRQueue u.mem 0x1000 [0x2000]) = some true ∧
    (nextOf (exec (.remqti at2 (abs 0x5000)) sTwo)).map (fun u =>
      SRQueue u.mem 0x1000 [0x3000]) = some true := by decide

theorem witness_absolute_queues :
    AbsQueue qTwo.mem 0x1000 [0x2000, 0x3000] = true ∧
    (∀ x ∈ ([0x1000, 0x2000, 0x3000] : List Word), elementsApart 0x4000 x = true) ∧
    qTwo.mem.read4 0x2000 = some 0x3000 ∧ qTwo.mem.read4 (0x2000 + 4) = some 0x1000 ∧
    qTwo.probe 0x4000 8 .write = none ∧ qTwo.probe 0x2000 8 .write = none ∧
    qTwo.probe (0x3000 + 4) 4 .write = none ∧ qTwo.probe 0x1000 4 .write = none ∧
    qTwo.writable [0x4000, 0x4000 + 4, 0x3000 + 4, 0x2000, 0x1000] = true ∧
    (∀ x ∈ ([0x1000, 0x2000, 0x3000] : List Word), (Dest.reg 5).apart x = true) :=
  ⟨by decide, (List.all_eq_true (p := fun x => elementsApart 0x4000 x)).1 (by decide), by decide,
    by decide, by decide, by decide, by decide, by decide, by decide, fun _ _ => rfl⟩

/-- What the instructions make of that queue: an entry after A, and A removed. -/
theorem test_absolute_queues :
    (nextOf (exec (.insque (abs 0x4000) at1) qTwo)).map (fun u =>
      (AbsQueue u.mem 0x1000 (insertAfter 0x1000 0x2000 0x4000 [0x2000, 0x3000]),
        AbsQueue u.mem 0x1000 [0x2000, 0x4000, 0x3000], u.ccZ)) = some (true, true, false) ∧
    (nextOf (exec (.remque at1 (reg 5)) qTwo)).map (fun u =>
      (AbsQueue u.mem 0x1000 [0x3000], u.ccZ, u.ccV)) = some (true, false, false) := by decide

end Sys2Proof.Tests
end

section
/-! Which registers, and what of the status, the other processors and the memory's form an instruction
keeps (spec/10_state.md R20 to R24, R28; spec/60_exceptions.md R198): one frame for all parts of an
instruction, and the lemma that says what `exec` keeps. -/

namespace Sys2Proof.Machine

/-! ## The frame of an instruction's parts -/

/-- What an instruction that writes the general registers `written` leaves alone, its queue accesses made
through the header `h`. -/
structure Alters (h : Option Word) (written : List Reg) (s t : State) : Prop where
  follows : Follows h s t
  regs : ∀ n, n ≠ pcReg → n ∉ written → t.reg n = s.reg n

theorem Alters.trans {h : Option Word} {written : List Reg} {s t u : State} (x : Alters h written s t)
    (y : Alters h written t u) : Alters h written s u :=
  ⟨x.follows.trans y.follows, fun n hn hw => (y.regs n hn hw).trans (x.regs n hn hw)⟩

theorem Alters.release {h : Option Word} {written : List Reg} {s t : State} (x : Alters h written s t) :
    Alters h written s t.release :=
  x.trans ⟨follows_release .., fun _ _ _ => rfl⟩

/-- What changes no register leaves alone whichever registers may be written. -/
theorem alters_of_regs_eq {h : Option Word} {written : List Reg} {s t : State} (f : Follows h s t)
    (hr : t.cpu.regs = s.cpu.regs) : Alters h written s t :=
  ⟨f, fun _ _ _ => by simp only [State.reg, hr]⟩

theorem Evaluates.alters {l written : List Reg} {k : Nat} {s t : State} (x : Evaluates l k s t)
    (h : Option Word) (hl : l ⊆ written) : Alters h written s t :=
  ⟨x.follows h, fun n hn hw => x.regs n hn fun hm => hw (hl hm)⟩

theorem Writes.alters {h : Option Word} {d : Dest} {written : List Reg} {s t : State} (x : Writes h d s t)
    (hd : ∀ n, d = .reg n → n ∈ written) : Alters h written s t :=
  ⟨x.follows, fun n _ hw => x.regs n fun e => hw (hd n e)⟩

theorem branch_alters (h : Option Word) (written : List Reg) (taken : Bool) (d : BitVec 8) (s : State) :
    Alters h written s (branch taken d s) :=
  ⟨follows_setReg .., fun _ hn _ => setPc_reg_ne _ _ hn⟩

/-- Step B writes no register but the destination of a removal. -/
theorem completeHeld_alters {p : Pending} {written : List Reg} {s t : State}
    (e : completeHeld p s = .ok t) (hd : ∀ n, p.dest = some (.reg n) → n ∈ written) :
    Alters (some p.header) written s t := by
  obtain ⟨f, -, -, -, hr⟩ := completeHeld_ok e
  exact ⟨f, fun n _ hw => hr n (fun ho => hw (hd n (by simp [Pending.dest, ho])))
    (fun b ho => hw (hd n (by simp [Pending.dest, ho])))⟩

/-! ## Step A, and an interlocked instruction as a whole -/

/-- The frame of step A: what it alters through `header`, and that what it leaves half done goes on through the
same header and writes no register but those. -/
structure StepAFrame (header : Word) (written : List Reg) (s t : State) : Prop where
  alters : Alters (some header) written s t
  held : ∀ p, t.cpu.pending = some p → p.header = header ∧ ∀ n, p.dest = some (.reg n) → n ∈ written

theorem StepAFrame.of_not_pending {header : Word} {written : List Reg} {s t : State}
    (a : Alters (some header) written s t) (hp : t.cpu.pending = none) : StepAFrame header written s t :=
  ⟨a, fun p h => by simp [hp] at h⟩

theorem FoundSet.frame {header : Word} {written : List Reg} {s t : State} (x : FoundSet header s t)
    (hp : s.cpu.pending = none) : StepAFrame header written s t :=
  .of_not_pending (alters_of_regs_eq x.follows x.regs) (x.pending.trans hp)

theorem Holds.frame {start s t : State} {op : HeldOp} {header f : Word} {written : List Reg}
    (x : Holds start op header f s t)
    (hd : ∀ n, Pending.dest ⟨op, header, f, start.cpu.regs⟩ = some (.reg n) → n ∈ written) :
    StepAFrame header written s t := by
  refine ⟨alters_of_regs_eq x.follows x.regs, fun p hp => ?_⟩
  obtain rfl : _ = p := Option.some.inj (x.pending.symm.trans hp)
  exact ⟨rfl, hd⟩

theorem FoundEmpty.frame {header : Word} {d : Dest} {written : List Reg} {s u t : State}
    (r : Reads header s u) (x : FoundEmpty header d u t) (hp : s.cpu.pending = none)
    (hd : ∀ n, d = .reg n → n ∈ written) : StepAFrame header written s t :=
  .of_not_pending ((alters_of_regs_eq r.follows r.regs).trans (x.writes.alters hd))
    (x.writes.pending.trans (r.pending.trans hp))

theorem acquireInsqhi_frame {start s t : State} {entry header : Word} {written : List Reg}
    (hp : s.cpu.pending = none) (e : acquireInsqhi start entry header s = .ok t) :
    StepAFrame header written s t := by
  obtain x | ⟨-, f, x⟩ := acquireInsqhi_ok e
  · exact x.frame hp
  · exact x.frame fun n h => by simp [Pending.dest] at h

theorem acquireInsqti_frame {start s t : State} {entry header : Word} {written : List Reg}
    (hp : s.cpu.pending = none) (e : acquireInsqti start entry header s = .ok t) :
    StepAFrame header written s t := by
  obtain x | ⟨-, f, x⟩ := acquireInsqti_ok e
  · exact x.frame hp
  · exact x.frame fun n h => by simp [Pending.dest] at h

theorem acquireRemqhi_frame {start s t : State} {header : Word} {d : Dest} {written : List Reg}
    (hp : s.cpu.pending = none) (hd : ∀ n, d = .reg n → n ∈ written)
    (e : acquireRemqhi start header d s = .ok t) : StepAFrame header written s t := by
  obtain x | ⟨-, ⟨f, -, x⟩ | ⟨u, r, x⟩⟩ := acquireRemqhi_ok e
  · exact x.frame hp
  · exact x.frame fun n h => hd n (by simpa [Pending.dest] using h)
  · exact x.frame r hp hd

theorem acquireRemqti_frame {start s t : State} {header : Word} {d : Dest} {written : List Reg}
    (hp : s.cpu.pending = none) (hd : ∀ n, d = .reg n → n ∈ written)
    (e : acquireRemqti start header d s = .ok t) : StepAFrame header written s t := by
  obtain x | ⟨-, ⟨f, b, -, -, -, -, x⟩ | ⟨u, r, x⟩⟩ := acquireRemqti_ok e
  · exact x.frame hp
  · exact x.frame fun n h => hd n (by simpa [Pending.dest] using h)
  · exact x.frame r hp hd

/-- An interlocked instruction keeps what its operands and its step A keep: step B, when it is taken at once,
does so too. -/
theorem afterStepA_alters {written : List Reg} {s u : State} {r : Res State}
    (hk : ∀ t, r = .ok t → ∃ (l : List Reg) (k : Nat) (v : State) (header : Word),
      Evaluates l k s.release v ∧ l ⊆ written ∧ StepAFrame header written v t)
    (e : afterStepA s r = .next u) : ∃ h, Alters h written s u := by
  obtain ⟨t, ht, h⟩ := afterStepA_next e
  obtain ⟨l, k, v, header, ev, hl, a, held⟩ := hk t ht
  have rel : Alters (some header) written s s.release := ⟨follows_release .., fun _ _ _ => rfl⟩
  have stepA := rel.trans ((ev.alters _ hl).trans a)
  rcases h with ⟨-, rfl⟩ | ⟨p, w, hp, -, hw, rfl⟩
  · exact ⟨_, stepA⟩
  · obtain ⟨rfl, hd⟩ := held p hp
    exact ⟨_, (stepA.trans (completeHeld_alters hw hd)).release⟩

/-! ## Every instruction -/

/-- What every instruction that answers keeps: all that `Follows` names, and every register but the program
counter and those of `instrRegs`. -/
theorem exec_alters {i : Instr} {s u : State} (e : exec i s = .next u) :
    ∃ h, Alters h (instrRegs i) s u := by
  cases i with
  | brb d | beql d | bvs d | bcs d =>
    simp only [exec, execBrb, execBeql, execBvs, execBcs, Host.Outcome.next.injEq] at e
    exact e ▸ ⟨none, branch_alters ..⟩
  | insque a b =>
    obtain ⟨⟨x, y, t⟩, hx, e⟩ := bind_ok.1 (finish_next e)
    obtain ⟨succ, v, n, z, c, -, -, -, -, acc, rfl, -⟩ := insertAbsolute_ok e
    exact ⟨none, ((evalInsertion_ok hx).1.alters _ (List.Subset.refl _)).trans
      (alters_of_regs_eq (acc.follows.trans (follows_setCC ..)) acc.regs)⟩
  | remque a b =>
    obtain ⟨⟨x, d, t⟩, hx, e⟩ := bind_ok.1 (finish_next e)
    obtain ⟨ev, -, -, -, hd⟩ := evalRemoval_ok hx
    exact ⟨none, (ev.alters _ (List.subset_append_left ..)).trans
      ((removeAbsolute_ok e).1.alters fun n h => by simp [hd n h])⟩
  | insqhi a b =>
    refine afterStepA_alters (fun t ht => ?_) e
    obtain ⟨⟨x, y, v⟩, hx, ht⟩ := bind_ok.1 ht
    have ev := (evalInsertion_ok hx).1
    exact ⟨_, _, v, y, ev, List.Subset.refl _, acquireInsqhi_frame ev.pending ht⟩
  | insqti a b =>
    refine afterStepA_alters (fun t ht => ?_) e
    obtain ⟨⟨x, y, v⟩, hx, ht⟩ := bind_ok.1 ht
    have ev := (evalInsertion_ok hx).1
    exact ⟨_, _, v, y, ev, List.Subset.refl _, acquireInsqti_frame ev.pending ht⟩
  | remqhi a b =>
    refine afterStepA_alters (fun t ht => ?_) e
    obtain ⟨⟨x, d, v⟩, hx, ht⟩ := bind_ok.1 ht
    obtain ⟨ev, -, -, -, hd⟩ := evalRemoval_ok hx
    exact ⟨_, _, v, x, ev, List.subset_append_left .., acquireRemqhi_frame ev.pending
      (fun n h => by simp [instrRegs, hd n h]) ht⟩
  | remqti a b =>
    refine afterStepA_alters (fun t ht => ?_) e
    obtain ⟨⟨x, d, v⟩, hx, ht⟩ := bind_ok.1 ht
    obtain ⟨ev, -, -, -, hd⟩ := evalRemoval_ok hx
    exact ⟨_, _, v, x, ev, List.subset_append_left .., acquireRemqti_frame ev.pending
      (fun n h => by simp [instrRegs, hd n h]) ht⟩

/-! ## The two frame statements -/

/-- Settles O38: `exec_alters` names the registers each instruction may write. -/
theorem registerFrame : Obligations.RegisterFrame := by
  intro i s u e n hn hw
  obtain ⟨h, a⟩ := exec_alters e
  exact a.regs n hn hw

/-- Words that agree in bits 31:4 agree in each of them. -/
theorem getLsbD_eq_of_field_high {v w : Word} (h : field v 4 28 = field w 4 28) {k : Nat} (hk : 4 ≤ k) :
    v.getLsbD k = w.getLsbD k := by
  have high : ∀ x : Word, x.getLsbD k = (x.extractLsb' 4 28).getLsbD (k - 4) := fun x => by
    rw [BitVec.getLsbD_extractLsb', Nat.add_sub_cancel' hk]
    by_cases hlt : k - 4 < 28
    · simp [hlt]
    · simp [hlt, BitVec.getLsbD_of_ge x k (by omega)]
  have e : v.extractLsb' 4 28 = w.extractLsb' 4 28 := BitVec.eq_of_toNat_eq (by
    simpa [BitVec.extractLsb'_toNat, field, Nat.shiftRight_eq_div_pow] using h)
  rw [high, high, e]

/-- Settles O39: no part of an instruction writes the PSL but through its condition codes, and none writes the
parameters, the other processors or the schedule. -/
theorem statusFrame : Obligations.StatusFrame := by
  intro i s u e
  obtain ⟨h, ⟨f, -⟩⟩ := exec_alters e
  exact ⟨fun k hk => getLsbD_eq_of_field_high f.psl hk, f.params, f.others, f.turns⟩

end Sys2Proof.Machine
end

section
/-! What every step keeps of memory (spec/10_state.md R25; spec/20_memory.md R43, R47(d)), and the state a run
starts from (spec/10_state.md R29). -/

namespace Sys2Proof.Machine

/-! ## What a step can be -/

/-- Step B answers by completing what is half done. -/
theorem stepB_next {p : Pending} {s u : State} (e : stepB p s = .next u) :
    ∃ t, completeHeld p s = .ok t ∧ u = t.release := by
  unfold stepB at e
  split at e
  · cases e
    exact ⟨_, ‹_›, rfl⟩
  · rename_i stop _
    cases stop <;> simp [Stop.outcome, takeFault] at e

/-- The steps of one processor: step B of what is half done, nothing at END, or an instruction. -/
theorem stepCpu_next {s u : State} (e : stepCpu s = .next u) :
    (∃ p t, s.cpu.pending = some p ∧ completeHeld p s = .ok t ∧ u = t.release) ∨
      s.cpu.pending = none ∧ (u = s ∨ ∃ i, exec i s = .next u) := by
  unfold stepCpu at e
  split at e
  · rename_i p hp
    obtain ⟨t, ht, rfl⟩ := stepB_next e
    exact .inl ⟨p, t, hp, ht, rfl⟩
  · rename_i hp
    split at e
    · cases e
      exact .inr ⟨hp, .inl rfl⟩
    · split at e
      · rename_i stop _
        cases stop <;> simp [Stop.outcome, takeFault] at e
      · exact .inr ⟨hp, .inr ⟨_, e⟩⟩

/-- A step is a step of the processor whose turn it is, and then the turn passes. -/
theorem step_next {s u : State} (e : step s = .next u) : ∃ v, stepCpu s = .next v ∧ u = v.nextTurn := by
  unfold step onNext at e
  split at e
  · cases e
    exact ⟨_, ‹_›, rfl⟩
  · cases e
  · cases e

@[simp] theorem nextTurn_mem (s : State) : s.nextTurn.mem = s.mem := by
  unfold State.nextTurn
  split
  · rfl
  · rfl
  · split <;> rfl

/-! ## Memory -/

/-- A processor's step alters nothing but what `Follows` allows. -/
theorem stepCpu_follows {s u : State} (e : stepCpu s = .next u) : ∃ h, Follows h s u := by
  obtain ⟨p, t, -, ht, rfl⟩ | ⟨-, rfl | ⟨i, hi⟩⟩ := stepCpu_next e
  · exact ⟨_, (completeHeld_ok ht).1.trans (follows_release ..)⟩
  · exact ⟨none, .refl ..⟩
  · obtain ⟨h, a⟩ := exec_alters hi
    exact ⟨h, a.follows⟩

/-- A processor's step keeps the domain of memory where memory holds the operands of what it has half done. -/
theorem stepCpu_keeps {s u : State} (hm : ∀ p, s.cpu.pending = some p → p.mapped s.mem = true)
    (e : stepCpu s = .next u) : KeepsDomain s u := by
  obtain ⟨p, t, hp, ht, rfl⟩ | ⟨hp, rfl | ⟨i, hi⟩⟩ := stepCpu_next e
  · have d : SameDomain s.mem t.mem := completeHeld_domain (hm p hp) ht
    exact ⟨d, fun q hq => by simp at hq⟩
  · exact ⟨.refl _, hm⟩
  · exact exec_keeps hp hi

theorem operandsMapped_iff {s : State} : s.operandsMapped = true ↔
    ∀ c ∈ s.cpus, ∀ p, c.pending = some p → p.mapped s.mem = true := by
  simp [State.operandsMapped, Option.all_eq_true]

/-- Passing the turn changes neither memory nor which processors there are. -/
theorem nextTurn_operandsMapped (s : State) : s.nextTurn.operandsMapped = s.operandsMapped := by
  rw [Bool.eq_iff_iff, operandsMapped_iff, operandsMapped_iff, nextTurn_mem]
  simp only [(nextTurn_perm s).mem_iff]

/-- A processor's step keeps all operands mapped: its own as step A probed them, the others' with the domain. -/
theorem stepCpu_operandsMapped {s u : State} (hm : s.operandsMapped = true) (e : stepCpu s = .next u) :
    u.operandsMapped = true ∧ SameDomain s.mem u.mem := by
  rw [operandsMapped_iff] at hm
  have k := stepCpu_keeps (hm s.cpu (List.mem_cons_self ..)) e
  obtain ⟨h, f⟩ := stepCpu_follows e
  refine ⟨operandsMapped_iff.2 fun c hc p hp => ?_, k.domain⟩
  rcases List.mem_cons.1 hc with rfl | hc
  · exact k.mapped p hp
  · rw [k.domain.mapped]
    exact hm c (List.mem_cons_of_mem _ (f.others ▸ hc)) p hp

/-- Settles O50: stores keep the canonical form, and every store of a step goes where memory holds a value,
since step A has probed the operands and step B probes the links it follows. -/
theorem stepKeepsMemoryForm : Obligations.StepKeepsMemoryForm := by
  intro s u e
  obtain ⟨v, hv, rfl⟩ := step_next e
  rw [nextTurn_mem, nextTurn_operandsMapped]
  obtain ⟨h, f⟩ := stepCpu_follows hv
  exact ⟨f.wf, fun hm => stepCpu_operandsMapped hm hv⟩

/-! ## The state a run starts from -/

/-- Settles O52: nothing is half done and memory lists nothing. -/
theorem resetMeetsTheInvariant : Obligations.ResetMeetsTheInvariant := by
  have locks : State.reset.locksOk = true := by decide
  have mapped : State.reset.operandsMapped = true := by decide
  simp [Obligations.ResetMeetsTheInvariant, State.Inv, reset_memory_wf, locks, mapped]

/-- Settles O53, field by field of `State.reset`. -/
theorem resetState : Obligations.ResetState := by
  refine ⟨rfl, rfl, rfl, fun n => ?_, rfl, rfl, rfl, rfl, fun a => readByte_nil a⟩
  show (Vector.replicate 16 0#32)[n] = 0
  simp

end Sys2Proof.Machine
end

section
/-! The decoder on an encoding and on bytes that stop short of one, and so what a step does at the top of the
address space (spec/10_state.md R23; spec/30_encoding.md R60, R64 to R78). -/

namespace Sys2Proof

/-! ## Decoding an encoding, whole or cut short -/

/-- A part of the decoder reads the bytes `e` as `a` and leaves those after them; the bytes that stop short of
the last of `e` it calls truncated. -/
structure DecodesAs {α : Type} (f : List Byte → Except DecodeError (α × List Byte)) (e : List Byte)
    (a : α) : Prop where
  whole : ∀ rest, f (e ++ rest) = .ok (a, rest)
  cut : ∀ p b q, e = p ++ b :: q → f p = .error .truncated

theorem decodesAs_nil {α : Type} (a : α) : DecodesAs (fun rest => .ok (a, rest)) [] a :=
  ⟨fun _ => rfl, fun p b q h => by simp at h⟩

theorem DecodesAs.cons {α : Type} {f g : List Byte → Except DecodeError (α × List Byte)} {x : Byte}
    {e : List Byte} {a : α} (h : DecodesAs g e a) (h0 : f [] = .error .truncated)
    (hf : ∀ rest, f (x :: rest) = g rest) : DecodesAs f (x :: e) a := by
  refine ⟨fun rest => (hf _).trans (h.whole rest), fun p b q hp => ?_⟩
  cases p with
  | nil => exact h0
  | cons y p =>
    obtain ⟨rfl, he⟩ := List.cons.inj hp
    exact (hf p).trans (h.cut p b q he)

/-- One part of the decoder after another. -/
theorem DecodesAs.bind {α β : Type} {f : List Byte → Except DecodeError (α × List Byte)}
    {k : α × List Byte → Except DecodeError (β × List Byte)} {e e' : List Byte} {a : α} {c : β}
    (h : DecodesAs f e a) (hk : DecodesAs (fun rest => k (a, rest)) e' c) :
    DecodesAs (fun bytes => f bytes >>= k) (e ++ e') c := by
  refine ⟨fun rest => ?_, fun p b q hp => ?_⟩
  · show f (e ++ e' ++ rest) >>= k = _
    rw [List.append_assoc, h.whole]
    exact hk.whole rest
  · show f p >>= k = _
    obtain ⟨m, rfl, hm⟩ | ⟨m, rfl, hm⟩ := List.append_eq_append_iff.1 hp
    · rw [h.whole]
      exact hk.cut m b q hm
    · cases m with
      | nil =>
        have hw : f p = .ok (a, []) := by simpa using h.whole []
        rw [hw]
        exact hk.cut [] b q hm.symm
      | cons y m =>
        rw [h.cut p y m rfl]
        rfl

/-! ## Fields and specifiers -/

theorem take8_decodesAs (f : BitVec 8 → BaseSpec) (d : BitVec 8) : DecodesAs (take8 f) [d] (f d) :=
  (decodesAs_nil _).cons rfl fun _ => rfl

theorem take16_decodesAs (f : BitVec 16 → BaseSpec) (d : BitVec 16) :
    DecodesAs (take16 f) (bytes16 d) (f d) where
  whole rest := by simp [bytes16, take16, le16_bytes16]
  cut p b q h := by
    match p with
    | [] | [_] => rfl
    | _ :: _ :: _ => simp [bytes16] at h

theorem take32_decodesAs (f : BitVec 32 → BaseSpec) (d : BitVec 32) :
    DecodesAs (take32 f) (bytes32 d) (f d) where
  whole rest := by simp [bytes32, take32, le32_bytes32]
  cut p b q h := by
    match p with
    | [] | [_] | [_, _] | [_, _, _] => rfl
    | _ :: _ :: _ :: _ :: _ => simp [bytes32] at h

theorem takeData_decodesAs {dt : DataType} {data : List Byte} (h : data.length = dt.size) :
    DecodesAs (takeData dt) data (.immediate data) where
  whole rest := by simp [takeData, ← h]
  cut p b q hp := by
    have : p.length < dt.size := by simp [← h, hp]
    rw [takeData, if_neg (by omega)]

/-- A specifier byte of modes 4 to 15, then what its mode reads. -/
theorem decodesAs_mode {dt : DataType} {k : Nat} (h4 : 4 ≤ k) (hk : k < 16) (n : Reg) {e : List Byte}
    {b : BaseSpec} (h : DecodesAs (decodeMode dt k n) e b) :
    DecodesAs (decodeBase dt) (modeByte k n :: e) b :=
  h.cons rfl fun rest => decodeBase_mode dt h4 hk n rest

theorem decodeBase_decodesAs {dt : DataType} {under : Bool} {b : BaseSpec} (h : b.wf dt under = true) :
    DecodesAs (decodeBase dt) (encodeBase b) b := by
  cases b with
  | literal v =>
    refine (decodesAs_nil (BaseSpec.literal v)).cons rfl fun rest => ?_
    have hv := v.isLt
    have hb : (BitVec.ofNat 8 v.toNat).toNat = v.toNat := by
      rw [BitVec.toNat_ofNat]
      omega
    rw [decodeBase, hb, if_pos hv, BitVec.ofNat_toNat, BitVec.setWidth_eq]
  | indexPrefix x => exact decodesAs_mode (by decide) (by decide) x (decodesAs_nil _)
  | register n => exact decodesAs_mode (by decide) (by decide) n (decodesAs_nil _)
  | deferred n => exact decodesAs_mode (by decide) (by decide) n (decodesAs_nil _)
  | autodec n => exact decodesAs_mode (by decide) (by decide) n (decodesAs_nil _)
  | autoinc n =>
    have hn : n ≠ pcReg := by simpa [BaseSpec.wf] using h
    have hm : decodeMode dt 8 n = fun rest => .ok (.autoinc n, rest) := funext fun _ => if_neg hn
    exact decodesAs_mode (by decide) (by decide) n (hm ▸ decodesAs_nil _)
  | immediate data =>
    have hd : data.length = dt.size := by simpa [BaseSpec.wf] using h
    exact decodesAs_mode (k := 8) (by decide) (by decide) pcReg (takeData_decodesAs hd)
  | autoincDeferred n =>
    have hn : n ≠ pcReg := by simpa [BaseSpec.wf] using h
    have hm : decodeMode dt 9 n = fun rest => .ok (.autoincDeferred n, rest) := funext fun _ => if_neg hn
    exact decodesAs_mode (by decide) (by decide) n (hm ▸ decodesAs_nil _)
  | absolute a =>
    exact decodesAs_mode (k := 9) (by decide) (by decide) pcReg (take32_decodesAs .absolute a)
  | byteDisp n d => exact decodesAs_mode (by decide) (by decide) n (take8_decodesAs (.byteDisp n) d)
  | byteDispDeferred n d =>
    exact decodesAs_mode (by decide) (by decide) n (take8_decodesAs (.byteDispDeferred n) d)
  | wordDisp n d => exact decodesAs_mode (by decide) (by decide) n (take16_decodesAs (.wordDisp n) d)
  | wordDispDeferred n d =>
    exact decodesAs_mode (by decide) (by decide) n (take16_decodesAs (.wordDispDeferred n) d)
  | longDisp n d => exact decodesAs_mode (by decide) (by decide) n (take32_decodesAs (.longDisp n) d)
  | longDispDeferred n d =>
    exact decodesAs_mode (by decide) (by decide) n (take32_decodesAs (.longDispDeferred n) d)

theorem decodeSpecifier_decodesAs {dt : DataType} {sp : Specifier} (h : sp.wf dt = true) :
    DecodesAs (decodeSpecifier dt) (encodeSpecifier sp) sp := by
  cases sp with
  | plain b =>
    rw [← List.append_nil (encodeSpecifier _)]
    refine (decodeBase_decodesAs (b := b) h).bind ?_
    cases b with
    | indexPrefix x => simp [Specifier.wf, BaseSpec.wf] at h
    | _ => exact decodesAs_nil _
  | indexed x b =>
    have hx : DecodesAs (decodeBase dt) [modeByte 4 x] (.indexPrefix x) :=
      decodesAs_mode (by decide) (by decide) x (decodesAs_nil _)
    refine hx.bind (e' := encodeBase b) ?_
    rw [← List.append_nil (encodeBase b)]
    exact (decodeBase_decodesAs h).bind (decodesAs_nil _)

/-! ## Instructions -/

theorem decodePair_decodesAs (make : Specifier → Specifier → Instr) {first second : DataType}
    {a b : Specifier} (h : (a.wf first && b.wf second) = true) :
    DecodesAs (decodePair make first second) (encodeSpecifier a ++ encodeSpecifier b) (make a b) := by
  obtain ⟨ha, hb⟩ := Bool.and_eq_true_iff.1 h
  refine (decodeSpecifier_decodesAs ha).bind ?_
  rw [← List.append_nil (encodeSpecifier b)]
  exact (decodeSpecifier_decodesAs hb).bind (decodesAs_nil _)

theorem decodeBranch_decodesAs (make : BitVec 8 → Instr) (d : BitVec 8) :
    DecodesAs (decodeBranch make) [d] (make d) :=
  (decodesAs_nil _).cons rfl fun _ => rfl

/-- The decoder reads the encoding of a well-formed instruction; what stops short of it is truncated. -/
theorem decode_decodesAs {i : Instr} (h : i.wf = true) : DecodesAs decode (encode i) i := by
  cases i with
  | insque a b => exact (decodePair_decodesAs .insque h).cons rfl fun _ => rfl
  | remque a b => exact (decodePair_decodesAs .remque h).cons rfl fun _ => rfl
  | brb d => exact (decodeBranch_decodesAs .brb d).cons rfl fun _ => rfl
  | beql d => exact (decodeBranch_decodesAs .beql d).cons rfl fun _ => rfl
  | bvs d => exact (decodeBranch_decodesAs .bvs d).cons rfl fun _ => rfl
  | bcs d => exact (decodeBranch_decodesAs .bcs d).cons rfl fun _ => rfl
  | insqhi a b => exact (decodePair_decodesAs .insqhi h).cons rfl fun _ => rfl
  | insqti a b => exact (decodePair_decodesAs .insqti h).cons rfl fun _ => rfl
  | remqhi a b => exact (decodePair_decodesAs .remqhi h).cons rfl fun _ => rfl
  | remqti a b => exact (decodePair_decodesAs .remqti h).cons rfl fun _ => rfl

/-- Every well-formed instruction has an encoding of at least two bytes and at most `maxInstrBytes`. -/
theorem encode_length : ∀ i : Instr, Laws.EncodingLength.Statement i
  | .insque a b => Laws.EncodingLength.insque a b
  | .remque a b => Laws.EncodingLength.remque a b
  | .brb d => Laws.EncodingLength.brb d
  | .beql d => Laws.EncodingLength.beql d
  | .bvs d => Laws.EncodingLength.bvs d
  | .bcs d => Laws.EncodingLength.bcs d
  | .insqhi a b => Laws.EncodingLength.insqhi a b
  | .insqti a b => Laws.EncodingLength.insqti a b
  | .remqhi a b => Laws.EncodingLength.remqhi a b
  | .remqti a b => Laws.EncodingLength.remqti a b

namespace Machine

/-! ## The top of the address space -/

/-- Fetching goes up to the last address and not beyond. -/
theorem fetchBytes_of_wrap {s : State} {a : Word} {bytes : List Byte} {n : Nat}
    (h : s.holdsCode a bytes = true) (hn : bytes.length < n)
    (hw : a + BitVec.ofNat 32 bytes.length = 0xFFFFFFFF) :
    fetchBytes s a n = (bytes, .refuse .pcWrap) := by
  obtain ⟨m, rfl⟩ : ∃ m, n = bytes.length + (m + 1) := ⟨n - bytes.length - 1, by omega⟩
  have top : fetchBytes s 0xFFFFFFFF (m + 1) = ([], .refuse .pcWrap) := rfl
  rw [fetchBytes_of_holdsCode h, hw, top, List.append_nil]

/-- What the fetch stops for decides a fetch whose bytes are cut short. -/
theorem fetch_of_truncated {s : State} {bytes : List Byte} {stop : Stop}
    (h : fetchBytes s s.pc maxInstrBytes = (bytes, stop)) (hd : decode bytes = .error .truncated) :
    fetch s = .error stop := by
  simp only [fetch, h, hd]

theorem stepCpu_of_fetch_error {s : State} {stop : Stop} (hp : s.cpu.pending = none)
    (he : s.params.endAt ≠ some s.pc) (hf : fetch s = .error stop) : stepCpu s = stop.outcome s := by
  simp only [stepCpu, hp, if_neg he, hf]

/-- Settles O7: the bytes below 0xFFFFFFFF stop short of the encoding, which the decoder calls
truncated, so the wrap that ends the fetch is what the step answers. -/
theorem programCounterWrapStops : Obligations.ProgramCounterWrapStops := by
  intro s bytes more b i hp he hwf henc hcode hwrap
  have hlen : bytes.length < maxInstrBytes := by
    have := (encode_length i hwf).2
    rw [henc, List.length_append, List.length_cons] at this
    omega
  have hfetch : fetch s = .error (.refuse .pcWrap) :=
    fetch_of_truncated (fetchBytes_of_wrap hcode hlen hwrap) ((decode_decodesAs hwf).cut _ _ _ henc)
  rw [step, stepCpu_of_fetch_error hp he hfetch]
  rfl

end Machine

end Sys2Proof
end

section
/-! The secondary interlocks (spec/20_memory.md R47; spec/40_queue_common.md R104, R107, R109): what an
interlocked instruction does where it finds its header's interlock clear and where it finds it set, and so that
no two half done instructions ever hold one interlock. -/

namespace Sys2Proof.Machine

/-! ## The interlock bit -/

/-- A forward link with bit 0 set says that the interlock is held (R104). -/
theorem interlockSet_or_one (f : Word) : interlockSet (f ||| 1) = true := by
  simp [interlockSet, field, BitVec.toNat_or]

theorem Pending.held_iff {p : Pending} {m : Memory} : p.held m = true ↔
    aligned8 p.header = true ∧ field p.forward 0 3 = 0 ∧ m.read4 p.header = some (p.forward ||| 1) := by
  simp [Pending.held, and_assoc]

/-- The interlock of a half done instruction reads as set. -/
theorem Pending.held_set {p : Pending} {m : Memory} {f : Word} (h : p.held m = true)
    (hr : m.read4 p.header = some f) : interlockSet f = true := by
  rw [(Pending.held_iff.1 h).2.2, Option.some.injEq] at hr
  exact hr ▸ interlockSet_or_one _

/-- Whether an interlock is held depends on the header's forward link alone. -/
theorem Pending.held_congr {p : Pending} {m m' : Memory} (h : m'.read4 p.header = m.read4 p.header) :
    p.held m' = p.held m := by
  simp only [Pending.held, h]

/-! ## Step A on a clear interlock -/

/-- What is half done in `t` holds the interlock of `header`, and the access that set it is on record unless
there is no other processor. -/
structure HoldsLock (header : Word) (t : State) (p : Pending) : Prop where
  at_header : p.header = header
  held : p.held t.mem = true
  record : t.alone = true ∨ ({ addr := header, via := some header } : Touch) ∈ t.cpu.touched

/-- Accesses through a header whose interlock was clear, which leave half done only what holds it. -/
structure FoundClear (header : Word) (s t : State) : Prop where
  clear : ∃ f, s.mem.read4 header = some f ∧ interlockSet f = false
  follows : Follows (some header) s t
  own : ∀ p, t.cpu.pending = some p → HoldsLock header t p

theorem Holds.foundClear {start s t : State} {op : HeldOp} {header f : Word}
    (x : Holds start op header f s t) : FoundClear header s t := by
  refine ⟨⟨f, x.read, x.clear⟩, x.follows, fun p hp => ?_⟩
  obtain rfl : _ = p := Option.some.inj (x.pending.symm.trans hp)
  have hf : field f 0 3 = 0 := by simpa [aligned8] using aligned_of_clear x.clear x.low
  have hm : t.mem.read4 header = some (f ||| 1) := by rw [x.mem, read4_write4_same]
  exact ⟨rfl, Pending.held_iff.2 ⟨x.aligned, hf, hm⟩, x.touched.imp_left (x.follows.alone.trans ·)⟩

theorem FoundEmpty.foundClear {header : Word} {d : Dest} {s u t : State} (hp : s.cpu.pending = none)
    (r : Reads header s u) (x : FoundEmpty header d u t) : FoundClear header s t :=
  ⟨⟨0, r.mem ▸ x.read, rfl⟩, r.follows.trans x.writes.follows,
    fun p h => by simp [x.writes.pending, r.pending, hp] at h⟩

/-- Step A of each interlocked instruction finds the interlock set or clear. -/
theorem acquireInsqhi_lock {start s t : State} {entry header : Word}
    (e : acquireInsqhi start entry header s = .ok t) : FoundSet header s t ∨ FoundClear header s t :=
  (acquireInsqhi_ok e).imp_right fun ⟨_, _, x⟩ => x.foundClear

theorem acquireInsqti_lock {start s t : State} {entry header : Word}
    (e : acquireInsqti start entry header s = .ok t) : FoundSet header s t ∨ FoundClear header s t :=
  (acquireInsqti_ok e).imp_right fun ⟨_, _, x⟩ => x.foundClear

theorem acquireRemqhi_lock {start s t : State} {header : Word} {d : Dest} (hp : s.cpu.pending = none)
    (e : acquireRemqhi start header d s = .ok t) : FoundSet header s t ∨ FoundClear header s t := by
  obtain x | ⟨-, ⟨_, -, x⟩ | ⟨_, r, x⟩⟩ := acquireRemqhi_ok e
  · exact .inl x
  · exact .inr x.foundClear
  · exact .inr (x.foundClear hp r)

theorem acquireRemqti_lock {start s t : State} {header : Word} {d : Dest} (hp : s.cpu.pending = none)
    (e : acquireRemqti start header d s = .ok t) : FoundSet header s t ∨ FoundClear header s t := by
  obtain x | ⟨-, ⟨_, _, -, -, -, -, x⟩ | ⟨_, r, x⟩⟩ := acquireRemqti_ok e
  · exact .inl x
  · exact .inr x.foundClear
  · exact .inr (x.foundClear hp r)

/-! ## A held interlock excludes -/

/-- Step A that found the interlock set is all of the instruction. -/
theorem afterStepA_of_set {start s t u : State} {header f : Word} (hp : s.cpu.pending = none)
    (hr : s.mem.read4 header = some f) (hi : interlockSet f = true)
    (x : FoundSet header s t ∨ FoundClear header s t) (e : afterStepA start (.ok t) = .next u) :
    u.mem = s.mem := by
  obtain x | ⟨⟨g, hg, hc⟩, -, -⟩ := x
  · have ht : t.cpu.pending = none := x.pending.trans hp
    simp only [afterStepA, ht, Host.Outcome.next.injEq] at e
    exact e ▸ x.mem
  · rw [hr, Option.some.injEq] at hg
    simp [← hg, hi] at hc

/-- An interlocked instruction whose step A looks at a header that is held changes no memory. -/
theorem afterStepA_excluded {l : List Reg} {n : Nat} {s t u : State} {r : Res State} {header f : Word}
    (ev : Evaluates l n s t) (hp : s.cpu.pending = none) (hr : s.mem.read4 header = some f)
    (hi : interlockSet f = true) (hk : ∀ v, r = .ok v → FoundSet header t v ∨ FoundClear header t v)
    (e : afterStepA s r = .next u) : u.mem = s.mem := by
  obtain ⟨v, rfl, -⟩ := afterStepA_next e
  rw [afterStepA_of_set (ev.pending.trans hp) (ev.mem ▸ hr) hi (hk v rfl) e, ev.mem]

/-- Settles O47: with bit 0 set step A is all of the instruction, and it has changed no memory. -/
theorem heldInterlockExcludes : Obligations.HeldInterlockExcludes := by
  intro a b s t u h f hp hr hi
  refine ⟨fun e he hx => ?_, fun d hd hx => ?_⟩
  · have ev := (evalInsertion_ok he).1
    rw [exec_insqhi hp he, exec_insqti hp he] at hx
    obtain hx | hx := hx
    · exact afterStepA_excluded ev hp hr hi (fun _ => acquireInsqhi_lock) hx
    · exact afterStepA_excluded ev hp hr hi (fun _ => acquireInsqti_lock) hx
  · have ev := (evalRemoval_ok hd).1
    have ht := ev.pending.trans hp
    rw [exec_remqhi hp hd, exec_remqti hp hd] at hx
    obtain hx | hx := hx
    · exact afterStepA_excluded ev hp hr hi (fun _ => acquireRemqhi_lock ht) hx
    · exact afterStepA_excluded ev hp hr hi (fun _ => acquireRemqti_lock ht) hx

/-! ## What an instruction does to interlocks -/

/-- What an instruction that starts with nothing half done does to the interlocks: it makes its queue accesses
through a header it found clear, or leaves every interlock on record alone and nothing half done. -/
def RespectsLocks (s t : State) : Prop :=
  (Follows none s t ∧ t.cpu.pending = none) ∨ ∃ header, FoundClear header s t

/-- What changes no memory leaves every interlock alone. -/
theorem Follows.of_mem_eq {h h' : Option Word} {s t : State} (x : Follows h s t) (hm : t.mem = s.mem) :
    Follows h' s t :=
  ⟨x.params, x.others, x.turns, x.wf, x.text, x.psl, fun _ _ _ _ _ => by rw [hm], x.touched⟩

theorem Evaluates.respectsLocks {l : List Reg} {n : Nat} {s t u : State} (ev : Evaluates l n s t)
    (x : RespectsLocks t u) : RespectsLocks s u :=
  x.imp (fun y => ⟨(ev.follows none).trans y.1, y.2⟩) fun ⟨header, hc, hf, ho⟩ =>
    ⟨header, by rwa [ev.mem] at hc, (ev.follows _).trans hf, ho⟩

/-- Step A after the operands: it changes no memory where it found the interlock set. -/
theorem Evaluates.stepA_respectsLocks {l : List Reg} {n : Nat} {header : Word} {s t u : State}
    (ev : Evaluates l n s t) (hp : s.cpu.pending = none)
    (x : FoundSet header t u ∨ FoundClear header t u) : RespectsLocks s u :=
  ev.respectsLocks (x.imp (fun y => ⟨y.follows.of_mem_eq y.mem, (y.pending.trans ev.pending).trans hp⟩)
    fun y => ⟨header, y⟩)

/-- Step B taken at once goes on through the header that step A found clear. -/
theorem afterStepA_respectsLocks {s u : State} {r : Res State}
    (hk : ∀ t, r = .ok t → RespectsLocks s t) (e : afterStepA s r = .next u) : RespectsLocks s u := by
  obtain ⟨t, ht, ⟨-, rfl⟩ | ⟨p, v, hp, -, hv, rfl⟩⟩ := afterStepA_next e
  · exact hk _ ht
  · obtain ⟨-, hn⟩ | ⟨header, hc, hf, ho⟩ := hk _ ht
    · simp [hn] at hp
    · obtain ⟨rfl, -, -⟩ := ho p hp
      exact .inr ⟨_, hc, (hf.trans (completeHeld_ok hv).1).trans (follows_release ..), fun q hq => by
        simp at hq⟩

/-- What every instruction does to the interlocks. -/
theorem exec_respectsLocks {i : Instr} {s u : State} (hp : s.cpu.pending = none) (e : exec i s = .next u) :
    RespectsLocks s u := by
  have rel := release_of_none hp
  cases i with
  | brb d | beql d | bvs d | bcs d =>
    simp only [exec, execBrb, execBeql, execBvs, execBcs, Host.Outcome.next.injEq] at e
    exact e ▸ .inl ⟨follows_setReg .., hp⟩
  | insque a b =>
    obtain ⟨⟨x, y, t⟩, hx, e⟩ := bind_ok.1 (finish_next e)
    obtain ⟨succ, v, n, z, c, -, -, -, -, acc, rfl, -⟩ := insertAbsolute_ok e
    have ev := (evalInsertion_ok hx).1
    exact ev.respectsLocks
      (.inl ⟨acc.follows.trans (follows_setCC ..), (acc.pending.trans ev.pending).trans hp⟩)
  | remque a b =>
    obtain ⟨⟨x, d, t⟩, hx, e⟩ := bind_ok.1 (finish_next e)
    have ev := (evalRemoval_ok hx).1
    have w := (removeAbsolute_ok e).1
    exact ev.respectsLocks (.inl ⟨w.follows, (w.pending.trans ev.pending).trans hp⟩)
  | insqhi a b =>
    refine afterStepA_respectsLocks (fun t ht => ?_) e
    obtain ⟨⟨x, y, v⟩, hx, ht⟩ := bind_ok.1 (rel ▸ ht)
    have ev := (evalInsertion_ok hx).1
    exact ev.stepA_respectsLocks hp (acquireInsqhi_lock ht)
  | insqti a b =>
    refine afterStepA_respectsLocks (fun t ht => ?_) e
    obtain ⟨⟨x, y, v⟩, hx, ht⟩ := bind_ok.1 (rel ▸ ht)
    have ev := (evalInsertion_ok hx).1
    exact ev.stepA_respectsLocks hp (acquireInsqti_lock ht)
  | remqhi a b =>
    refine afterStepA_respectsLocks (fun t ht => ?_) e
    obtain ⟨⟨x, d, v⟩, hx, ht⟩ := bind_ok.1 (rel ▸ ht)
    have ev := (evalRemoval_ok hx).1
    exact ev.stepA_respectsLocks hp (acquireRemqhi_lock (ev.pending.trans hp) ht)
  | remqti a b =>
    refine afterStepA_respectsLocks (fun t ht => ?_) e
    obtain ⟨⟨x, d, v⟩, hx, ht⟩ := bind_ok.1 (rel ▸ ht)
    have ev := (evalRemoval_ok hx).1
    exact ev.stepA_respectsLocks hp (acquireRemqti_lock (ev.pending.trans hp) ht)

/-! ## Mutual exclusion -/

theorem Cpu.apart_iff {c d : Cpu} : c.apart d = true ↔ ∀ h, c.holds = some h → d.holds ≠ some h := by
  rcases hc : c.holds with - | x
  · simp [Cpu.apart, hc]
  · simp [Cpu.apart, hc, eq_comm (a := some x)]

theorem Cpu.apart_symm {c d : Cpu} (h : c.apart d = true) : d.apart c = true :=
  Cpu.apart_iff.2 fun x hd hc => Cpu.apart_iff.1 h x hc hd

theorem Cpu.lockOk_iff {c : Cpu} {m : Memory} {alone : Bool} : c.lockOk m alone = true ↔
    ∀ p, c.pending = some p → p.held m = true ∧
      (alone = true ∨ ({ addr := p.header, via := some p.header } : Touch) ∈ c.touched) := by
  rcases hc : c.pending with - | p <;> simp [Cpu.lockOk, hc]

/-- Mutual exclusion, the processor that moves and the others apart. -/
theorem locksOk_iff {s : State} : s.locksOk = true ↔
    s.cpu.lockOk s.mem s.alone = true ∧ (∀ c ∈ s.others, c.lockOk s.mem s.alone = true) ∧
      (∀ c ∈ s.others, s.cpu.apart c = true) ∧ s.others.Pairwise fun c d => c.apart d = true := by
  simp only [State.locksOk, State.cpus, List.all_cons, Bool.and_eq_true, List.all_eq_true,
    decide_eq_true_eq, List.pairwise_cons, and_assoc]

/-- Whether there are other processors is told by how many there are. -/
theorem alone_iff_length {s : State} : s.alone = true ↔ s.cpus.length = 1 := by
  simp [State.alone, State.cpus]

/-- Passing the turn changes no interlock and not who holds it. -/
theorem nextTurn_locksOk (s : State) : s.nextTurn.locksOk = s.locksOk := by
  have hp := nextTurn_perm s
  have ha : s.nextTurn.alone = s.alone := by
    rw [Bool.eq_iff_iff, alone_iff_length, alone_iff_length, hp.length_eq]
  rw [State.locksOk, State.locksOk, nextTurn_mem, ha, Bool.eq_iff_iff]
  simp only [Bool.and_eq_true, List.all_eq_true, decide_eq_true_eq, hp.mem_iff,
    hp.pairwise_iff Cpu.apart_symm]

/-- Accesses through a header that no other processor holds leave the interlocks the others hold. -/
theorem Follows.others_lockOk {h : Option Word} {s t : State} (f : Follows h s t)
    (hs : ∀ c ∈ s.others, c.lockOk s.mem s.alone = true)
    (hn : ∀ c ∈ s.others, ∀ H, h = some H → c.holds ≠ some H) :
    ∀ c ∈ t.others, c.lockOk t.mem t.alone = true := by
  intro c hc
  rw [f.others] at hc
  rw [f.alone]
  refine Cpu.lockOk_iff.2 fun p hp => ?_
  obtain ⟨held, record⟩ := Cpu.lockOk_iff.1 (hs c hc) p hp
  refine ⟨?_, record⟩
  have touch := record.resolve_left fun ha => by
    simp only [State.alone, List.isEmpty_iff] at ha
    simp [ha] at hc
  have hne : h ≠ some p.header := fun e => hn c hc _ e (by simp [Cpu.holds, hp])
  rwa [Pending.held_congr (f.locks c hc _ hne touch)]

/-- A step through a header that no other processor holds, which leaves half done only what holds it, keeps
mutual exclusion. -/
theorem Follows.locksOk {h : Option Word} {s t : State} (f : Follows h s t) (hs : s.locksOk = true)
    (hn : ∀ c ∈ s.others, ∀ H, h = some H → c.holds ≠ some H)
    (own : ∀ p, t.cpu.pending = some p → h = some p.header ∧ HoldsLock p.header t p) :
    t.locksOk = true := by
  obtain ⟨-, others, -, apart⟩ := locksOk_iff.1 hs
  refine locksOk_iff.2 ⟨?_, f.others_lockOk others hn, fun c hc => ?_, f.others ▸ apart⟩
  · exact Cpu.lockOk_iff.2 fun p hp => ⟨(own p hp).2.held, (own p hp).2.record⟩
  · refine Cpu.apart_iff.2 fun H hH => ?_
    obtain ⟨p, hp, rfl⟩ := Option.map_eq_some_iff.1 hH
    exact hn c (f.others ▸ hc) _ (own p hp).1

/-- No processor holds a header whose interlock is clear. -/
theorem not_holds_of_clear {s : State} {header f : Word} (hs : s.locksOk = true)
    (hr : s.mem.read4 header = some f) (hi : interlockSet f = false) :
    ∀ c ∈ s.others, c.holds ≠ some header := by
  intro c hc hh
  obtain ⟨p, hp, rfl⟩ := Option.map_eq_some_iff.1 hh
  have held := (Cpu.lockOk_iff.1 ((locksOk_iff.1 hs).2.1 c hc) p hp).1
  simp [Pending.held_set held hr] at hi

theorem RespectsLocks.locksOk {s t : State} (x : RespectsLocks s t) (hs : s.locksOk = true) :
    t.locksOk = true := by
  obtain ⟨f, hp⟩ | ⟨header, ⟨g, hr, hi⟩, f, own⟩ := x
  · exact f.locksOk hs (fun _ _ _ h => by simp at h) fun p h => by simp [hp] at h
  · refine f.locksOk hs (fun c hc H hH => ?_) fun p hp => ?_
    · exact Option.some.inj hH ▸ not_holds_of_clear hs hr hi c hc
    · have o := own p hp
      exact ⟨by rw [o.at_header], o.at_header ▸ o⟩

/-- Step B works through the header its processor holds, which no other processor does. -/
theorem completeHeld_locksOk {p : Pending} {s t : State} (hs : s.locksOk = true)
    (hp : s.cpu.pending = some p) (e : completeHeld p s = .ok t) : t.release.locksOk = true := by
  have f := (completeHeld_ok e).1.trans (follows_release _ t)
  refine f.locksOk hs (fun c hc H hH => ?_) fun q hq => by simp at hq
  have apart := (locksOk_iff.1 hs).2.2.1 c hc
  exact Cpu.apart_iff.1 apart H (by simpa [Cpu.holds, hp] using hH)

theorem stepCpu_locksOk {s u : State} (hs : s.locksOk = true) (e : stepCpu s = .next u) :
    u.locksOk = true := by
  obtain ⟨p, t, hp, ht, rfl⟩ | ⟨hp, rfl | ⟨i, hi⟩⟩ := stepCpu_next e
  · exact completeHeld_locksOk hs hp ht
  · exact hs
  · exact (exec_respectsLocks hp hi).locksOk hs

/-- Settles O51: a step works through a header its processor holds or found clear, so through none that another
holds, and the accesses on record keep it off every other header that is held. -/
theorem stepKeepsMutualExclusion : Obligations.StepKeepsMutualExclusion := by
  intro s u hs e
  obtain ⟨v, hv, rfl⟩ := step_next e
  rw [nextTurn_locksOk]
  exact stepCpu_locksOk hs hv

end Sys2Proof.Machine
end

section
/-! The memory primitives at every width and the laws of `Probe` (spec/20_memory.md R43, R46, R47(d)), each law
a fact about single bytes. -/

namespace Sys2Proof.Machine

/-! ## Addresses one after another -/

theorem add_one_add_ofNat (a : Word) (i : Nat) : a + 1 + BitVec.ofNat 32 i = a + BitVec.ofNat 32 (i + 1) := by
  rw [Nat.add_comm i, BitVec.ofNat_add, BitVec.add_assoc]
  rfl

/-- What holds of the bytes from `a` on holds of the first and of those after it. -/
theorem forall_bytes_succ {P : Word → Prop} {a : Word} {n : Nat} :
    (∀ i < n + 1, P (a + BitVec.ofNat 32 i)) ↔ P a ∧ ∀ i < n, P (a + 1 + BitVec.ofNat 32 i) := by
  have first : a + BitVec.ofNat 32 0 = a := BitVec.add_zero a
  simp only [Nat.forall_lt_succ_left, first, add_one_add_ofNat]

/-! ## Reading and writing -/

/-- The number little-endian bytes stand for, the first byte apart from the rest. -/
theorem littleEndian_succ (bytes : Nat → Byte) (n : Nat) :
    ((List.range (n + 1)).map fun i => (bytes i).toNat * 2 ^ (8 * i)).sum =
      (bytes 0).toNat + 256 * ((List.range n).map fun i => (bytes (i + 1)).toNat * 2 ^ (8 * i)).sum := by
  have shift : ∀ i, (bytes (i + 1)).toNat * 2 ^ (8 * (i + 1)) = 256 * ((bytes (i + 1)).toNat * 2 ^ (8 * i)) :=
    fun i => by rw [Nat.mul_succ, Nat.pow_add]; ring
  simp [List.range_succ_eq_map, Function.comp_def, shift, List.sum_map_mul_left]

/-- `MemRead` gives the little-endian value of the bytes memory holds (R43). -/
theorem read_of_bytes {m : Memory} {a : Word} {n : Nat} {bytes : Nat → Byte}
    (h : ∀ i < n, m.readByte (a + BitVec.ofNat 32 i).toNat = some (bytes i)) :
    m.read a n = some (((List.range n).map fun i => (bytes i).toNat * 2 ^ (8 * i)).sum) := by
  induction n generalizing a bytes with
  | zero => rfl
  | succ n ih =>
    have first : m.readByte a.toNat = some (bytes 0) := by simpa using h 0 (Nat.succ_pos n)
    have rest := ih (a := a + 1) (bytes := fun i => bytes (i + 1)) fun i hi => by
      rw [add_one_add_ofNat]
      exact h (i + 1) (Nat.succ_lt_succ hi)
    rw [littleEndian_succ, Memory.read, first, rest]
    rfl

/-- `MemWrite` of any number of bytes that the address space has (R43). -/
theorem readByte_write (m : Memory) (a : Word) {n : Nat} (hn : n ≤ 2 ^ 32) (v : Nat) (b : Word) :
    (m.write a n v).readByte b.toNat =
      if (b - a).toNat < n then some (BitVec.ofNat 8 (v / 2 ^ (8 * (b - a).toNat)))
      else m.readByte b.toNat := by
  induction n generalizing m a v with
  | zero => rfl
  | succ n ih =>
    rw [Memory.write, ih _ _ (by omega), readByte_writeByte]
    by_cases hb : b = a
    · subst hb
      have past : ¬ (b - (b + 1)).toNat < n := by bv_omega
      rw [if_neg past, if_pos rfl, if_pos (by simp)]
      simp
    · have ne : ¬ b.toNat = a.toNat := by bv_omega
      have after : (b - a).toNat = (b - (a + 1)).toNat + 1 := by bv_omega
      rw [if_neg ne, after, Nat.mul_succ, Nat.add_comm (8 * _), Nat.pow_add, Nat.div_div_eq_div_mul]
      simp only [Nat.add_lt_add_iff_right, Nat.reducePow]

/-- Settles O20: `read_of_bytes` and `readByte_write`, which hold at every width. -/
theorem memoryPrimitives : Obligations.MemoryPrimitives := by
  intro m a n hn
  have width : ∀ k ∈ [1, 2, 4, 8], k ≤ 2 ^ 32 := by decide
  exact ⟨fun _ => read_of_bytes, readByte_write m a (width n hn)⟩

/-! ## Probe -/

/-- `Probe` succeeds where no byte of the range is denied (R46). -/
theorem probe_eq_none_iff {x : AccessMap} {m : Memory} {k : AccessKind} {mode : AccessMode} {a : Word}
    {n : Nat} : x.probe m k mode a n = none ↔ ∀ i < n, x.denial m k mode (a + BitVec.ofNat 32 i) = none := by
  induction n generalizing a with
  | zero => simp [AccessMap.probe]
  | succ n ih =>
    rw [forall_bytes_succ (P := fun b => x.denial m k mode b = none), ← ih, AccessMap.probe]
    split <;> simp_all

/-- A byte can be accessed where the rights allow it and memory maps its quadword (R46, R47(d)). -/
theorem denial_eq_none_iff {x : AccessMap} {m : Memory} {k : AccessKind} {mode : AccessMode} {a : Word} :
    x.denial m k mode a = none ↔ ((x.rightsAt a).of mode).denies k = none ∧ m.maps a = true := by
  unfold AccessMap.denial
  split
  · simp_all
  · split <;> simp_all

/-- No rights allow a write and deny the read (R46). -/
theorem Access.denies_read_of_write {r : Access} (h : r.denies .write = none) : r.denies .read = none := by
  cases r with
  | readWrite => rfl
  | readOnly why => rfl
  | noAccess why => simp [Access.denies] at h

/-- The rights and the mapping are those of a byte's aligned quadword (R46). -/
theorem denial_congr {x : AccessMap} {m : Memory} {k : AccessKind} {mode : AccessMode} {a b : Word}
    (h : a.toNat / 8 = b.toNat / 8) : x.denial m k mode a = x.denial m k mode b := by
  have rights : x.rightsAt a = x.rightsAt b := by simp only [AccessMap.rightsAt, Region.covers, h]
  have maps : m.maps a = m.maps b := by simp only [Memory.maps, h]
  simp only [AccessMap.denial, rights, maps]

/-- A probe of one byte. -/
theorem probe_one_eq_none_iff {x : AccessMap} {m : Memory} {k : AccessKind} {mode : AccessMode} {a : Word} :
    x.probe m k mode a 1 = none ↔ x.denial m k mode a = none := by
  simp [probe_eq_none_iff]

/-- Settles O21: each law is one of `denial`, which `probe_eq_none_iff` asks of every byte. -/
theorem probeLaws : Obligations.ProbeLaws := by
  intro x m mode
  refine ⟨fun k a n => ?_, fun a n h => ?_, fun k a b h => ?_, fun k a n i hi hb h => ?_⟩
  · rw [probe_eq_none_iff]
    simp only [probe_one_eq_none_iff]
  · refine probe_eq_none_iff.2 fun i hi => ?_
    obtain ⟨rights, maps⟩ := denial_eq_none_iff.1 (probe_eq_none_iff.1 h i hi)
    exact denial_eq_none_iff.2 ⟨Access.denies_read_of_write rights, maps⟩
  · rw [probe_one_eq_none_iff, probe_one_eq_none_iff, denial_congr h]
  · have held := isSome_of_probe h i hi
    rw [hb] at held
    exact Bool.false_ne_true held

end Sys2Proof.Machine
end

section
/-! No instruction goes on over a race with another processor (spec/20_memory.md R47; spec/92_eei_decisions.md D9):
every longword an instruction that answers has used raced with nothing on record. -/

namespace Sys2Proof.Machine

theorem Evaluates.raceFree_of {l : List Reg} {n : Nat} {s t : State} (x : Evaluates l n s t)
    {via : Option Word} {a : Word} (h : t.raceFree via a = true) : s.raceFree via a = true :=
  x.raceFree via a ▸ h

/-! ## The absolute instructions -/

/-- Every longword INSQUE uses when it answers raced with nothing. -/
theorem insertAbsolute_raceFree {entry pred : Word} {s t : State} (e : insertAbsolute entry pred s = .ok t) :
    (∀ a ∈ [entry, entry + 4, pred], s.raceFree none a = true) ∧
      ∀ succ, s.mem.read4 pred = some succ → s.raceFree none (succ + 4) = true := by
  simp only [insertAbsolute, bind_ok] at e
  obtain ⟨-, -, ⟨q, u0⟩, h0, -, -, -, -, -, -, u1, h1, u2, h2, u3, h3, -⟩ := e
  have a0 := accesses_load (h := none) h0
  have a1 := a0.trans (accesses_store (.inl rfl) h1)
  have a2 := a1.trans (accesses_store (.inl rfl) h2)
  refine ⟨?_, fun succ hr => ?_⟩
  · simp only [List.forall_mem_cons, List.not_mem_nil, false_imp_iff, implies_true, and_true]
    exact ⟨a0.raceFree (raceFree_of_store h1), a1.raceFree (raceFree_of_store h2), raceFree_of_load h0⟩
  · obtain rfl : q = succ := Option.some.inj ((load_ok h0).1.symm.trans hr)
    exact a2.raceFree (raceFree_of_store h3)

/-- Every longword REMQUE uses when it answers raced with nothing. -/
theorem removeAbsolute_raceFree {entry : Word} {d : Dest} {s t : State}
    (e : removeAbsolute entry d s = .ok t) :
    (∀ a ∈ [entry, entry + 4], s.raceFree none a = true) ∧
      (∀ b, s.mem.read4 (entry + 4) = some b → s.raceFree none b = true) ∧
      (∀ f, s.mem.read4 entry = some f → s.raceFree none (f + 4) = true) ∧
      ∀ a, d = .mem a → s.raceFree none a = true := by
  simp only [removeAbsolute, bind_ok] at e
  obtain ⟨-, -, ⟨f, u0⟩, h0, ⟨b, u1⟩, h1, -, -, -, -, -, -, u2, h2, u3, h3, u4, h4, -⟩ := e
  have a0 := accesses_load (h := none) h0
  have a1 := a0.trans (accesses_load h1)
  have a2 := a1.trans (accesses_store (.inl rfl) h2)
  have a3 := a2.trans (accesses_store (.inl rfl) h3)
  have hb := (load_ok h1).1
  rw [load_mem h0] at hb
  refine ⟨?_, fun b' hr => ?_, fun f' hr => ?_, fun a hd => ?_⟩
  · simp only [List.forall_mem_cons, List.not_mem_nil, false_imp_iff, implies_true, and_true]
    exact ⟨raceFree_of_load h0, a0.raceFree (raceFree_of_load h1)⟩
  · obtain rfl : b = b' := Option.some.inj (hb.symm.trans hr)
    exact a1.raceFree (raceFree_of_store h2)
  · obtain rfl : f = f' := Option.some.inj ((load_ok h0).1.symm.trans hr)
    exact a2.raceFree (raceFree_of_store h3)
  · subst hd
    exact a3.raceFree (raceFree_of_store h4)

/-! ## The header of an interlocked instruction -/

/-- Phase 2 reads the header whatever it then finds. -/
theorem acquire_ok_raceFree {header : Word} {early : List Exception} {links : Word → List Exception}
    {s : State} {r : Option Word × State} (e : acquire header early links s = .ok r) :
    s.raceFree (some header) header = true := by
  unfold acquire at e
  split at e
  · cases e
  · obtain ⟨x, hx, -⟩ := bind_ok.1 e
    exact raceFree_of_load hx

/-- An interlocked instruction that answers has read its header in phase 2. -/
theorem afterStepA_raceFree {s t u : State} {header : Word} {early : List Exception}
    {links : Word → List Exception} {k : Option Word × State → Res State}
    (e : afterStepA s (acquire header early links t >>= k) = .next u) :
    t.raceFree (some header) header = true := by
  obtain ⟨v, hv, -⟩ := afterStepA_next e
  obtain ⟨r, hr, -⟩ := bind_ok.1 hv
  exact acquire_ok_raceFree hr

/-! ## The statement -/

/-- Settles O49: an access on record that overlaps a longword an instruction has used would race with it. -/
theorem racesRefused : Obligations.RacesRefused := by
  intro a b s t x c y hc hy ho stops
  have ordinary : s.raceFree none x ≠ true := not_raceFree hc hy ho (.inr rfl)
  have through : ∀ h, y.via ≠ some h → s.raceFree (some h) x ≠ true := fun h hv =>
    not_raceFree hc hy ho (.inl hv)
  refine ⟨fun e p he hx u hu => ?_, fun e d he hx u hu => ?_, fun e he hp hv => ?_, fun d hd hp hv => ?_,
    fun p hx u hu => ?_⟩
  · have ev := (evalInsertion_ok he).1
    rw [exec_insque he] at hu
    obtain ⟨links, neighbour⟩ := insertAbsolute_raceFree (finish_next hu)
    refine ordinary (ev.raceFree_of ?_)
    obtain hx | ⟨q, hq, rfl⟩ := hx
    · exact links x hx
    · exact neighbour q (ev.mem ▸ hq)
  · have ev := (evalRemoval_ok he).1
    rw [exec_remque he] at hu
    obtain ⟨links, before, after, addr⟩ := removeAbsolute_raceFree (finish_next hu)
    refine ordinary (ev.raceFree_of ?_)
    obtain hx | hx | ⟨f, hf, rfl⟩ | hx := hx
    · exact links x hx
    · exact before x (ev.mem ▸ hx)
    · exact after f (ev.mem ▸ hf)
    · exact addr x hx
  · have ev := (evalInsertion_ok he).1
    refine ⟨fun u hu => ?_, fun u hu => ?_⟩
    · rw [exec_insqhi hp he] at hu
      exact through x hv (ev.raceFree_of (afterStepA_raceFree hu))
    · rw [exec_insqti hp he] at hu
      exact through x hv (ev.raceFree_of (afterStepA_raceFree hu))
  · have ev := (evalRemoval_ok hd).1
    refine ⟨fun u hu => ?_, fun u hu => ?_⟩
    · rw [exec_remqhi hp hd] at hu
      exact through x hv (ev.raceFree_of (afterStepA_raceFree hu))
    · rw [exec_remqti hp hd] at hu
      exact through x hv (ev.raceFree_of (afterStepA_raceFree hu))
  · obtain ⟨v, hv, -⟩ := stepB_next hu
    obtain ⟨queue, addr⟩ := completeHeld_raceFree hv
    obtain ⟨hx, hn⟩ | hx := hx
    · exact through _ hn (queue x hx)
    · exact ordinary (addr x hx)

end Sys2Proof.Machine
end

section
/-! The program text: no step changes it, and a step at an encoding runs the instruction it encodes
(spec/20_memory.md R42, R51; spec/10_state.md R28; spec/30_encoding.md R60). -/

namespace Sys2Proof.Machine

@[simp] theorem nextTurn_params (s : State) : s.nextTurn.params = s.params := by
  unfold State.nextTurn
  split
  · rfl
  · rfl
  · split <;> rfl

/-- Settles O54: every store of a step is off the program text, and no part of a step writes the parameters. -/
theorem stepKeepsProgramText : Obligations.StepKeepsProgramText := by
  intro s u e
  obtain ⟨v, hv, rfl⟩ := step_next e
  obtain ⟨h, f⟩ := stepCpu_follows hv
  rw [nextTurn_params, nextTurn_mem]
  exact ⟨f.params, f.text⟩

/-- The encoding of a well-formed instruction that stands at the program counter is what is fetched. -/
theorem fetch_of_holdsCode {s : State} {i : Instr} (hwf : i.wf = true)
    (hcode : s.holdsCode s.pc (encode i) = true) : fetch s = .ok i := by
  obtain ⟨n, hn⟩ := Nat.exists_eq_add_of_le (encode_length i hwf).2
  simp only [fetch, hn, fetchBytes_of_holdsCode hcode, (decode_decodesAs hwf).whole]

theorem stepCpu_of_fetch_ok {s : State} {i : Instr} (hp : s.cpu.pending = none)
    (he : s.params.endAt ≠ some s.pc) (hf : fetch s = .ok i) : stepCpu s = exec i s := by
  simp only [stepCpu, hp, if_neg he, hf]

/-- Settles O4: the fetch reads the encoding whole and the decoder gives the instruction back. -/
theorem stepRunsTheDecodedInstruction : Obligations.StepRunsTheDecodedInstruction := by
  intro s i hwf hp he hcode
  rw [step, stepCpu_of_fetch_ok hp he (fetch_of_holdsCode hwf hcode)]

end Sys2Proof.Machine
end

section
/-! The decoder against the encoder in both directions (spec/30_encoding.md R60, R64 to R79): what it accepts
is the encoding of what it answers, and what it rejects is cut short or has no opcode of the table. -/

namespace Sys2Proof

/-- Settles O1: `decode_decodesAs`, which joins what each part of the decoder reads of an encoding. -/
theorem decodeOfEncode : Obligations.DecodeOfEncode :=
  fun _ rest h => (decode_decodesAs h).whole rest

/-! ## What decodes is an encoding -/

/-- A mode that is decoded stands as its specifier byte and what the encoder puts after it. -/
theorem decodeMode_exact {dt : DataType} {k : Nat} {n : Reg} {bytes rest : List Byte} {b : BaseSpec}
    (h4 : 4 ≤ k) (hk : k < 16) (h : decodeMode dt k n bytes = .ok (b, rest)) :
    b.wf dt true = true ∧ modeByte k n :: bytes = encodeBase b ++ rest := by
  unfold decodeMode at h
  split at h
  case h_1 | h_2 | h_3 | h_4 => cases h; exact ⟨rfl, rfl⟩
  case h_5 =>
    split at h
    · subst n
      obtain ⟨data, rfl, hd, rfl⟩ := takeData_ok h
      exact ⟨beq_iff_eq.2 hd, rfl⟩
    · cases h
      exact ⟨bne_iff_ne.2 ‹_›, rfl⟩
  case h_6 =>
    split at h
    · subst n
      obtain ⟨d, rfl, rfl⟩ := take32_ok h
      exact ⟨rfl, rfl⟩
    · cases h
      exact ⟨bne_iff_ne.2 ‹_›, rfl⟩
  case h_7 | h_8 =>
    obtain ⟨d, rfl, rfl⟩ := take8_ok h
    exact ⟨rfl, rfl⟩
  case h_9 | h_10 =>
    obtain ⟨d, rfl, rfl⟩ := take16_ok h
    exact ⟨rfl, rfl⟩
  case h_11 =>
    obtain ⟨d, rfl, rfl⟩ := take32_ok h
    exact ⟨rfl, rfl⟩
  case h_12 =>
    simp only [imp_false] at *
    obtain rfl : k = 15 := by omega
    obtain ⟨d, rfl, rfl⟩ := take32_ok h
    exact ⟨rfl, rfl⟩

theorem decodeBase_exact {dt : DataType} {bytes rest : List Byte} {b : BaseSpec}
    (h : decodeBase dt bytes = .ok (b, rest)) :
    b.wf dt true = true ∧ bytes = encodeBase b ++ rest := by
  cases bytes with
  | nil => cases h
  | cons x bytes =>
    rw [decodeBase] at h
    split at h
    · rename_i hx
      cases h
      have hb : BitVec.ofNat 8 (BitVec.ofNat 6 x.toNat).toNat = x := by
        rw [BitVec.toNat_ofNat, Nat.mod_eq_of_lt hx, BitVec.ofNat_toNat, BitVec.setWidth_eq]
      exact ⟨rfl, by rw [encodeBase, hb]; rfl⟩
    · have hx := x.isLt
      rw [← modeByte_regOf (b := x) rfl]
      exact decodeMode_exact (by omega) (by omega) h

theorem decodeSpecifier_exact {dt : DataType} {bytes rest : List Byte} {sp : Specifier}
    (h : decodeSpecifier dt bytes = .ok (sp, rest)) :
    sp.wf dt = true ∧ bytes = encodeSpecifier sp ++ rest := by
  obtain ⟨⟨b, tail⟩, hb, hsp⟩ := except_bind_ok.1 h
  obtain ⟨hwf, hbytes⟩ := decodeBase_exact hb
  cases b with
  | indexPrefix x =>
    obtain ⟨⟨base, after⟩, hbase, hsp⟩ := except_bind_ok.1 hsp
    obtain ⟨hwf, htail⟩ := decodeBase_exact hbase
    cases hsp
    exact ⟨hwf, by rw [hbytes, htail]; rfl⟩
  | _ => cases hsp; exact ⟨hwf, hbytes⟩

/-- The bytes after an opcode whose instruction has two operands. -/
theorem decodePair_exact {make : Specifier → Specifier → Instr} {first second : DataType} {op code : Byte}
    {bytes rest : List Byte} {i : Instr} (hop : op.toNat = code.toNat)
    (hwf : ∀ a b, (make a b).wf = (a.wf first && b.wf second))
    (henc : ∀ a b, encode (make a b) = code :: (encodeSpecifier a ++ encodeSpecifier b))
    (h : decodePair make first second bytes = .ok (i, rest)) :
    i.wf = true ∧ op :: bytes = encode i ++ rest := by
  obtain ⟨⟨a, tail⟩, ha, h⟩ := except_bind_ok.1 h
  obtain ⟨⟨b, after⟩, hb, h⟩ := except_bind_ok.1 h
  cases h
  obtain ⟨wa, rfl⟩ := decodeSpecifier_exact ha
  obtain ⟨wb, rfl⟩ := decodeSpecifier_exact hb
  rw [hwf, wa, wb, henc, BitVec.eq_of_toNat_eq hop, List.cons_append, List.append_assoc]
  exact ⟨rfl, rfl⟩

/-- The byte after the opcode of a branch. -/
theorem decodeBranch_exact {make : BitVec 8 → Instr} {op code : Byte} {bytes rest : List Byte} {i : Instr}
    (hop : op.toNat = code.toNat) (hwf : ∀ d, (make d).wf = true) (henc : ∀ d, encode (make d) = [code, d])
    (h : decodeBranch make bytes = .ok (i, rest)) : i.wf = true ∧ op :: bytes = encode i ++ rest := by
  cases bytes with
  | nil => cases h
  | cons d bytes =>
    cases h
    rw [hwf, henc, BitVec.eq_of_toNat_eq hop]
    exact ⟨rfl, rfl⟩

/-- Settles O2, opcode by opcode: the bytes after each are the operands or the displacement it answers. -/
theorem decodeIsExact : Obligations.DecodeIsExact := by
  intro bytes rest i h
  unfold decode at h
  split at h
  · cases h
  · split at h
    case h_1 hop => exact decodePair_exact (code := 0x0E) hop (fun _ _ => rfl) (fun _ _ => rfl) h
    case h_2 hop => exact decodePair_exact (code := 0x0F) hop (fun _ _ => rfl) (fun _ _ => rfl) h
    case h_3 hop => exact decodeBranch_exact (code := 0x11) hop (fun _ => rfl) (fun _ => rfl) h
    case h_4 hop => exact decodeBranch_exact (code := 0x13) hop (fun _ => rfl) (fun _ => rfl) h
    case h_5 hop => exact decodeBranch_exact (code := 0x1D) hop (fun _ => rfl) (fun _ => rfl) h
    case h_6 hop => exact decodeBranch_exact (code := 0x1F) hop (fun _ => rfl) (fun _ => rfl) h
    case h_7 hop => exact decodePair_exact (code := 0x5C) hop (fun _ _ => rfl) (fun _ _ => rfl) h
    case h_8 hop => exact decodePair_exact (code := 0x5D) hop (fun _ _ => rfl) (fun _ _ => rfl) h
    case h_9 hop => exact decodePair_exact (code := 0x5E) hop (fun _ _ => rfl) (fun _ _ => rfl) h
    case h_10 hop => exact decodePair_exact (code := 0x5F) hop (fun _ _ => rfl) (fun _ _ => rfl) h
    case h_11 => cases h

/-! ## What does not decode -/

theorem except_bind_error {ε α β : Type} {x : Except ε α} {f : α → Except ε β} {e : ε} :
    (x >>= f) = .error e ↔ x = .error e ∨ ∃ a, x = .ok a ∧ f a = .error e := by
  cases x <;> simp [bind, Except.bind]

/-- A part of the decoder fails only where the bytes end too soon. -/
def OnlyTruncates {α : Type} (f : List Byte → Except DecodeError α) : Prop :=
  ∀ bytes e, f bytes = .error e → e = .truncated

theorem onlyTruncates_ok {α : Type} (g : List Byte → α) : OnlyTruncates fun bytes => .ok (g bytes) :=
  fun _ _ h => by cases h

theorem OnlyTruncates.bind {α β : Type} {f : List Byte → Except DecodeError (α × List Byte)}
    {k : α × List Byte → Except DecodeError β} (hf : OnlyTruncates f)
    (hk : ∀ a, OnlyTruncates fun rest => k (a, rest)) : OnlyTruncates fun bytes => f bytes >>= k := by
  intro bytes e h
  obtain h | ⟨⟨a, rest⟩, -, h⟩ := except_bind_error.1 h
  · exact hf bytes e h
  · exact hk a rest e h

theorem take8_onlyTruncates (f : BitVec 8 → BaseSpec) : OnlyTruncates (take8 f) := by
  intro bytes e h
  unfold take8 at h
  split at h <;> cases h
  rfl

theorem take16_onlyTruncates (f : BitVec 16 → BaseSpec) : OnlyTruncates (take16 f) := by
  intro bytes e h
  unfold take16 at h
  split at h <;> cases h
  rfl

theorem take32_onlyTruncates (f : BitVec 32 → BaseSpec) : OnlyTruncates (take32 f) := by
  intro bytes e h
  unfold take32 at h
  split at h <;> cases h
  rfl

theorem takeData_onlyTruncates (dt : DataType) : OnlyTruncates (takeData dt) := by
  intro bytes e h
  unfold takeData at h
  split at h <;> cases h
  rfl

theorem decodeMode_onlyTruncates (dt : DataType) (k : Nat) (n : Reg) :
    OnlyTruncates (decodeMode dt k n) := by
  intro bytes e h
  unfold decodeMode at h
  split at h
  case h_1 | h_2 | h_3 | h_4 => cases h
  case h_5 =>
    split at h
    · exact takeData_onlyTruncates _ _ _ h
    · cases h
  case h_6 =>
    split at h
    · exact take32_onlyTruncates _ _ _ h
    · cases h
  case h_7 | h_8 => exact take8_onlyTruncates _ _ _ h
  case h_9 | h_10 => exact take16_onlyTruncates _ _ _ h
  case h_11 | h_12 => exact take32_onlyTruncates _ _ _ h

theorem decodeBase_onlyTruncates (dt : DataType) : OnlyTruncates (decodeBase dt) := by
  intro bytes e h
  unfold decodeBase at h
  split at h
  · cases h
    rfl
  · split at h
    · cases h
    · exact decodeMode_onlyTruncates _ _ _ _ _ h

theorem decodeSpecifier_onlyTruncates (dt : DataType) : OnlyTruncates (decodeSpecifier dt) := by
  refine (decodeBase_onlyTruncates dt).bind fun b => ?_
  cases b with
  | indexPrefix x => exact (decodeBase_onlyTruncates dt).bind fun base => onlyTruncates_ok _
  | _ => exact onlyTruncates_ok _

theorem decodePair_onlyTruncates (make : Specifier → Specifier → Instr) (first second : DataType) :
    OnlyTruncates (decodePair make first second) :=
  (decodeSpecifier_onlyTruncates first).bind fun _ =>
    (decodeSpecifier_onlyTruncates second).bind fun _ => onlyTruncates_ok _

theorem decodeBranch_onlyTruncates (make : BitVec 8 → Instr) : OnlyTruncates (decodeBranch make) := by
  intro bytes e h
  unfold decodeBranch at h
  split at h <;> cases h
  rfl

/-- The opcode bytes of the table (R60, R62, R63, R82). -/
def tableOpcodes : List Byte := [0x0E, 0x0F, 0x11, 0x13, 0x1D, 0x1F, 0x5C, 0x5D, 0x5E, 0x5F]

/-- An opcode byte of the table is never the reason for a rejection. -/
theorem decode_onlyTruncates {op : Byte} (h : op ∈ tableOpcodes) :
    OnlyTruncates fun rest => decode (op :: rest) := by
  simp only [tableOpcodes, List.mem_cons, List.not_mem_nil, or_false] at h
  obtain rfl | rfl | rfl | rfl | rfl | rfl | rfl | rfl | rfl | rfl := h
  · exact decodePair_onlyTruncates .insque _ _
  · exact decodePair_onlyTruncates .remque _ _
  · exact decodeBranch_onlyTruncates .brb
  · exact decodeBranch_onlyTruncates .beql
  · exact decodeBranch_onlyTruncates .bvs
  · exact decodeBranch_onlyTruncates .bcs
  · exact decodePair_onlyTruncates .insqhi _ _
  · exact decodePair_onlyTruncates .insqti _ _
  · exact decodePair_onlyTruncates .remqhi _ _
  · exact decodePair_onlyTruncates .remqti _ _

theorem decode_of_not_mem {op : Byte} (h : op ∉ tableOpcodes) (rest : List Byte) :
    decode (op :: rest) = .error (.opcodeNotInSpec op) := by
  rw [decode]
  split
  case h_11 => rfl
  all_goals
    rename_i hop
    exact absurd (by simp [tableOpcodes, ← BitVec.toNat_inj, hop]) h

/-- The decoder rejects by name exactly the opcode bytes outside the table (R79, D14). -/
theorem decode_opcodeNotInSpec_iff {op : Byte} {rest : List Byte} :
    decode (op :: rest) = .error (.opcodeNotInSpec op) ↔ op ∉ tableOpcodes := by
  refine ⟨fun h hop => ?_, fun h => decode_of_not_mem h rest⟩
  cases decode_onlyTruncates hop rest _ h

namespace Machine

/-- The fetch passes on the decoder's rejection of the byte at the program counter. -/
theorem fetch_of_not_mem {s : State} {op : Byte} (h : op ∉ tableOpcodes)
    (hcode : s.holdsCode s.pc [op] = true) : fetch s = .error (.refuse (.opcodeNotInSpec op)) := by
  have hbytes := fetchBytes_of_holdsCode (n := 16) hcode
  simp only [fetch, maxInstrBytes, show 17 = [op].length + 16 from rfl, hbytes, List.cons_append,
    decode_of_not_mem h]

/-- Settles O6: `decode_opcodeNotInSpec_iff`, and what it makes of a fetch. -/
theorem opcodesOutsideTheTable : Obligations.OpcodesOutsideTheTable := by
  intro op rest
  refine ⟨decode_opcodeNotInSpec_iff.symm, fun s hp he hop hcode => ?_⟩
  rw [step, stepCpu_of_fetch_error hp he (fetch_of_not_mem hop hcode)]
  rfl

end Machine

end Sys2Proof
end

section
/-! The address each form of an operand specifier gives, and what an evaluation that stops does to the
instruction (spec/30_encoding.md R61, R64 to R77). -/

namespace Sys2Proof.Machine

/-! ## Bytes of a specifier -/

theorem modeByte_cons (k : Nat) (n : Reg) (e : List Byte) :
    modeByte k n :: e = specifierByte (BitVec.ofNat 4 k) n :: e :=
  congrArg (· :: e) (modeByte_eq k n)

theorem modeByte_bytes16 (k : Nat) (n : Reg) (d0 d1 : Byte) :
    modeByte k n :: bytes16 (d1 ++ d0) = [specifierByte (BitVec.ofNat 4 k) n, d0, d1] := by
  rw [modeByte_cons]
  exact congrArg _ (bytes16_le16 d0 d1)

theorem modeByte_bytes32 (k : Nat) (n : Reg) (d0 d1 d2 d3 : Byte) :
    modeByte k n :: bytes32 (d3 ++ d2 ++ d1 ++ d0) =
      [specifierByte (BitVec.ofNat 4 k) n, d0, d1, d2, d3] := by
  rw [modeByte_cons]
  exact congrArg _ (bytes32_le32 d0 d1 d2 d3)

/-- A short literal's byte is its value under two zero bits (R65). -/
theorem encodeBase_literal (v : BitVec 6) : encodeBase (.literal v) = [0#2 ++ v] := by
  have value : BitVec.ofNat 8 v.toNat = 0#2 ++ v := BitVec.eq_of_toNat_eq (by
    have := v.isLt
    simp only [BitVec.toNat_ofNat, BitVec.toNat_append, Nat.zero_mod, Nat.zero_shiftLeft, Nat.zero_or]
    omega)
  rw [encodeBase, value]

/-! ## The forms on a general register -/

theorem notPc_of_ne {n : Reg} (h : n ≠ pcReg) : notPc n = .ok () := notPc_ok.2 h

section
variable (dt : DataType) {n : Reg} (s : State) (h : n ≠ pcReg)
include h

theorem evalAddress_register :
    evalAddress dt (.plain (.register n)) s = .error (.raise .reservedAddressingMode) := by
  simp only [evalAddress, baseAddress, notPc_of_ne h, ok_bind]

theorem evalDest_register : evalDest (.plain (.register n)) s = .ok (.reg n, s.advance 1) := by
  simp only [evalDest, notPc_of_ne h, ok_bind]

theorem evalAddress_deferred : evalAddress dt (.plain (.deferred n)) s = .ok (s.reg n, s.advance 1) := by
  simp only [evalAddress, baseAddress, baseLength, notPc_of_ne h, ok_bind, advance_reg_ne s 1 h]

theorem evalAddress_autodec : evalAddress dt (.plain (.autodec n)) s =
    .ok (s.reg n - BitVec.ofNat 32 dt.size,
      (s.advance 1).setReg n (s.reg n - BitVec.ofNat 32 dt.size)) := by
  simp only [evalAddress, baseAddress, baseLength, notPc_of_ne h, ok_bind, advance_reg_ne s 1 h]

theorem evalAddress_autoinc : evalAddress dt (.plain (.autoinc n)) s =
    .ok (s.reg n, (s.advance 1).setReg n (s.reg n + BitVec.ofNat 32 dt.size)) := by
  simp only [evalAddress, baseAddress, baseLength, notPc_of_ne h, ok_bind, advance_reg_ne s 1 h]

theorem evalAddress_autoincDeferred : evalAddress dt (.plain (.autoincDeferred n)) s =
    (s.advance 1).pointer (s.reg n) >>= fun (a, t) => .ok (a, t.setReg n (t.reg n + 4)) := by
  simp only [evalAddress, baseAddress, baseLength, notPc_of_ne h, ok_bind, advance_reg_ne s 1 h]

/-- The registers after a specifier of one byte that steps register `n`. -/
theorem regs_of_step (v : Word) {u : State} (hu : u.cpu.regs = (s.advance 1).cpu.regs) :
    (u.setReg n v).reg n = v ∧ (u.setReg n v).pc = s.pc + 1 ∧
      ∀ k, k ≠ n → k ≠ pcReg → (u.setReg n v).reg k = s.reg k := by
  have read : ∀ k, u.reg k = (s.advance 1).reg k := fun k => by simp only [State.reg, hu]
  refine ⟨setReg_reg_same .., ?_, fun k hn hk => ?_⟩
  · rw [setReg_pc_ne _ _ h]
    exact (read pcReg).trans (advance_pc s 1)
  · rw [setReg_reg_ne _ _ hn, read, advance_reg_ne _ _ hk]

end

/-- Settles O13: register 15 is stopped by the same check that lets every other register through. -/
theorem registerMode : Obligations.RegisterMode := fun dt n s =>
  ⟨modeByte_cons 5 n [], fun h => ⟨evalAddress_register dt s h, evalDest_register s h, fun _ => rfl⟩, rfl, rfl⟩

/-- Settles O14, form by form. -/
theorem registerAddresses : Obligations.RegisterAddresses := by
  intro dt n s h size
  refine ⟨modeByte_cons 6 n [], modeByte_cons 7 n [], modeByte_cons 8 n [], evalAddress_deferred dt s h, ?_⟩
  rintro b a after (⟨rfl, rfl, rfl⟩ | ⟨rfl, rfl, rfl⟩)
  · obtain ⟨stepped, pc, regs⟩ := regs_of_step s h (s.reg n - size) (u := s.advance 1) rfl
    exact ⟨_, evalAddress_autodec dt s h, stepped, pc, regs, rfl⟩
  · obtain ⟨stepped, pc, regs⟩ := regs_of_step s h (s.reg n + size) (u := s.advance 1) rfl
    exact ⟨_, evalAddress_autoinc dt s h, stepped, pc, regs, rfl⟩

/-! ## The forms that read a pointer -/

/-- A pointer is read in the state its specifier leaves: the read probe decides, and only the record of accesses
changes (R72, R75; log 14). -/
theorem pointer_advance (s : State) (p : Word) (k : Nat) :
    (∀ x, s.probe p 4 .read = some x → (s.advance k).pointer p = .error (.raise x)) ∧
    (∀ v, s.raceFree none p = true → s.probe p 4 .read = none → s.mem.read4 p = some v →
      ∃ t, (s.advance k).pointer p = .ok (v, t) ∧ t.cpu.regs = (s.advance k).cpu.regs ∧
        t = { s with cpu := { s.cpu with regs := t.cpu.regs, touched := t.cpu.touched } }) := by
  refine ⟨fun x hx => pointer_raises hx, fun v hr hp hm => ?_⟩
  obtain ⟨t, ht, ho⟩ := pointer_raceFree (s := s.advance k) hr hp hm
  have regs : t.cpu.regs = (s.advance k).cpu.regs := by rw [ho]
  exact ⟨t, ht, regs, by rw [regs]; exact ho⟩

/-- Settles O15: the pointer is read in the state after the specifier byte, and then the register steps. -/
theorem autoincrementDeferredAddress : Obligations.AutoincrementDeferredAddress := by
  intro dt n s h
  obtain ⟨fails, reads⟩ := pointer_advance s (s.reg n) 1
  rw [evalAddress_autoincDeferred dt s h]
  refine ⟨modeByte_cons 9 n [], fun x hx => by rw [fails x hx, error_bind], fun v hr hp hm => ?_⟩
  obtain ⟨t, ht, hregs, ho⟩ := reads v hr hp hm
  have hn : t.reg n = s.reg n := by
    rw [← advance_reg_ne s 1 h]
    simp only [State.reg, hregs]
  obtain ⟨stepped, pc, regs⟩ := regs_of_step s h (s.reg n + 4) hregs
  refine ⟨t.setReg n (s.reg n + 4), ?_, stepped, pc, regs, ?_⟩
  · simp only [ht, ok_bind, hn]
  · rw [ho]
    rfl

/-! ## Displacements

The register is read after the displacement field, which matters for the program counter alone (R74 to R76). -/

section
variable {dt : DataType} {n : Reg} {s : State} {base : Word}

theorem evalAddress_byteDisp (h : (s.advance 2).reg n = base) (d : BitVec 8) :
    evalAddress dt (.plain (.byteDisp n d)) s = .ok (base + d.signExtend 32, s.advance 2) := h ▸ rfl

theorem evalAddress_wordDisp (h : (s.advance 3).reg n = base) (d : BitVec 16) :
    evalAddress dt (.plain (.wordDisp n d)) s = .ok (base + d.signExtend 32, s.advance 3) := h ▸ rfl

theorem evalAddress_longDisp (h : (s.advance 5).reg n = base) (d : BitVec 32) :
    evalAddress dt (.plain (.longDisp n d)) s = .ok (base + d, s.advance 5) := h ▸ rfl

theorem evalAddress_byteDispDeferred (h : (s.advance 2).reg n = base) (d : BitVec 8) :
    evalAddress dt (.plain (.byteDispDeferred n d)) s = (s.advance 2).pointer (base + d.signExtend 32) :=
  h ▸ rfl

theorem evalAddress_wordDispDeferred (h : (s.advance 3).reg n = base) (d : BitVec 16) :
    evalAddress dt (.plain (.wordDispDeferred n d)) s = (s.advance 3).pointer (base + d.signExtend 32) :=
  h ▸ rfl

theorem evalAddress_longDispDeferred (h : (s.advance 5).reg n = base) (d : BitVec 32) :
    evalAddress dt (.plain (.longDispDeferred n d)) s = (s.advance 5).pointer (base + d) := h ▸ rfl

end

/-- Settles O16: a general register reads the same after the specifier's bytes. -/
theorem displacementAddress : Obligations.DisplacementAddress := fun _ n s h =>
  ⟨fun d => modeByte_cons 10 n [d], modeByte_bytes16 12 n, modeByte_bytes32 14 n,
    evalAddress_byteDisp (advance_reg_ne s 2 h), evalAddress_wordDisp (advance_reg_ne s 3 h),
    evalAddress_longDisp (advance_reg_ne s 5 h)⟩

/-- Settles O17: each form reads its pointer in the state after the displacement field. -/
theorem displacementDeferredAddress : Obligations.DisplacementDeferredAddress := by
  intro dt n s h
  refine ⟨fun d => modeByte_cons 11 n [d], modeByte_bytes16 13 n, modeByte_bytes32 15 n, ?_⟩
  rintro b p length (⟨d, rfl, rfl, rfl⟩ | ⟨d, rfl, rfl, rfl⟩ | ⟨d, rfl, rfl, rfl⟩)
  · rw [evalAddress_byteDispDeferred (advance_reg_ne s 2 h)]
    exact pointer_advance ..
  · rw [evalAddress_wordDispDeferred (advance_reg_ne s 3 h)]
    exact pointer_advance ..
  · rw [evalAddress_longDispDeferred (advance_reg_ne s 5 h)]
    exact pointer_advance ..

/-- Settles O18: the program counter is read after the displacement field. -/
theorem pcModesAddress : Obligations.PcModesAddress := by
  intro dt s
  refine ⟨modeByte_bytes32 9 pcReg, fun _ => rfl,
    fun d => ⟨modeByte_cons 10 pcReg [d], modeByte_cons 11 pcReg [d]⟩,
    fun d0 d1 => ⟨modeByte_bytes16 12 pcReg d0 d1, modeByte_bytes16 13 pcReg d0 d1⟩,
    fun d0 d1 d2 d3 => ⟨modeByte_bytes32 14 pcReg d0 d1 d2 d3, modeByte_bytes32 15 pcReg d0 d1 d2 d3⟩,
    evalAddress_byteDisp (advance_pc s 2), evalAddress_wordDisp (advance_pc s 3),
    evalAddress_longDisp (advance_pc s 5), ?_⟩
  rintro b p length (⟨d, rfl, rfl, rfl⟩ | ⟨d, rfl, rfl, rfl⟩ | ⟨d, rfl, rfl, rfl⟩)
  · rw [evalAddress_byteDispDeferred (advance_pc s 2)]
    exact pointer_advance ..
  · rw [evalAddress_wordDispDeferred (advance_pc s 3)]
    exact pointer_advance ..
  · rw [evalAddress_longDispDeferred (advance_pc s 5)]
    exact pointer_advance ..

/-- Settles O19: each of these forms is refused before anything is read. -/
theorem refusedSpecifiers : Obligations.RefusedSpecifiers := fun _ _ _ => ⟨rfl, rfl, rfl, rfl⟩

/-! ## Index mode -/

/-- A base that has an address and does not step the index register may be indexed (R66). -/
theorem indexable_ok {x : Reg} {b : BaseSpec}
    (hb : ¬ ((∃ v, b = .literal v) ∨ (∃ n, b = .register n) ∨ ∃ y, b = .indexPrefix y))
    (hi : ∀ data, b ≠ .immediate data) (hx : baseSteps b ≠ some x) : indexable x b = .ok () := by
  unfold indexable
  split
  · exact absurd (.inl ⟨_, rfl⟩) hb
  · exact absurd (.inr (.inr ⟨_, rfl⟩)) hb
  · exact absurd (.inr (.inl ⟨_, rfl⟩)) hb
  · exact absurd rfl (hi _)
  · exact require_ok.2 (bne_iff_ne.2 hx)

/-- A base that steps the index register may not (R66). -/
theorem indexable_of_steps {x : Reg} {b : BaseSpec} (h : baseSteps b = some x) :
    indexable x b = .error (.refuse .unpredictableSpecifier) := by
  cases b with
  | autodec n | autoinc n | autoincDeferred n =>
    exact require_error.2 ⟨bne_eq_false_iff_eq.2 h, rfl⟩
  | _ => cases h

/-- Index mode on a general register: the base is evaluated after the index byte, and its answer scaled (R66). -/
theorem evalAddress_indexed (dt : DataType) {x : Reg} (b : BaseSpec) (s : State) (h : x ≠ pcReg) :
    evalAddress dt (.indexed x b) s = indexable x b >>= fun _ =>
      evalAddress dt (.plain b) (s.advance 1) >>= fun (base, t) =>
        .ok (base + t.reg x * BitVec.ofNat 32 dt.size, t) := by
  have general : unlessRaise (x != pcReg) .reservedAddressingMode = .ok () :=
    unlessRaise_ok.2 (bne_iff_ne.2 h)
  simp only [evalAddress, general, ok_bind]

/-- Settles O12: a PC index faults, else what `indexable` answers of the base decides, and a base that is evaluated
leaves the index register alone. -/
theorem indexedAddress : Obligations.IndexedAddress := by
  intro dt x b s addressless
  refine ⟨modeByte_cons 4 x _, fun hf => ?_, fun hx hr => ?_, fun hx hb hi hs base t hbase => ?_⟩
  · by_cases hx : x = pcReg
    · subst hx
      rfl
    · rw [evalAddress_indexed dt b s hx]
      obtain ⟨v, rfl⟩ | ⟨n, rfl⟩ | ⟨y, rfl⟩ := hf.resolve_left hx <;> rfl
  · rw [evalAddress_indexed dt b s hx]
    obtain ⟨data, rfl⟩ | hr := hr
    · rfl
    · rw [indexable_of_steps hr, error_bind]
  · have kept : t.reg x = s.reg x := by
      rw [(evalAddress_ok hbase).1.regs x hx (by simpa [specifierSteps] using hs), advance_reg_ne s 1 hx]
    simp only [evalAddress_indexed dt b s hx, indexable_ok hb hi hs, ok_bind, hbase, kept]

/-! ## Operands in stream order (R77) -/

theorem evalInsertion_ok_iff {dt : DataType} {a b : Specifier} {s t : State} {e h : Word} :
    evalInsertion dt a b s = .ok (e, h, t) ↔
      ∃ u, evalAddress .byte a (s.advance 1) = .ok (e, u) ∧ evalAddress dt b u = .ok (h, t) := by
  simp [evalInsertion, bind_ok]

theorem evalInsertion_error_iff {dt : DataType} {a b : Specifier} {s : State} {stop : Stop} :
    evalInsertion dt a b s = .error stop ↔ evalAddress .byte a (s.advance 1) = .error stop ∨
      ∃ e u, evalAddress .byte a (s.advance 1) = .ok (e, u) ∧ evalAddress dt b u = .error stop := by
  simp [evalInsertion, bind_error]

theorem evalRemoval_ok_iff {dt : DataType} {a b : Specifier} {s t : State} {h : Word} {d : Dest} :
    evalRemoval dt a b s = .ok (h, d, t) ↔
      ∃ u, evalAddress dt a (s.advance 1) = .ok (h, u) ∧ evalDest b u = .ok (d, t) := by
  simp [evalRemoval, bind_ok]

theorem evalRemoval_error_iff {dt : DataType} {a b : Specifier} {s : State} {stop : Stop} :
    evalRemoval dt a b s = .error stop ↔ evalAddress dt a (s.advance 1) = .error stop ∨
      ∃ h u, evalAddress dt a (s.advance 1) = .ok (h, u) ∧ evalDest b u = .error stop := by
  simp [evalRemoval, bind_error]

/-- A destination that is neither a register nor an immediate is memory at a longword's address (R61). -/
theorem evalDest_memory {b : Specifier} (hr : ∀ n, b ≠ .plain (.register n))
    (hi : ∀ data, b ≠ .plain (.immediate data)) (s : State) :
    evalDest b s = evalAddress .long b s >>= fun (x, t) => .ok (.mem x, t) := by
  unfold evalDest
  split
  · exact absurd rfl (hr _)
  · exact absurd rfl (hi _)
  · rfl

/-! ## An instruction whose operands stop -/

section
variable {a b : Specifier} {s : State} {stop : Stop}

theorem exec_insque_stops (h : evalInsertion .byte a b s = .error stop) :
    exec (.insque a b) s = stop.outcome s := by
  simp only [exec, execInsque, h, error_bind, finish]

theorem exec_remque_stops (h : evalRemoval .byte a b s = .error stop) :
    exec (.remque a b) s = stop.outcome s := by
  simp only [exec, execRemque, h, error_bind, finish]

theorem exec_insqhi_stops (h : evalInsertion .quad a b s.release = .error stop) :
    exec (.insqhi a b) s = stop.outcome s := by
  simp only [exec, execInsqhi, h, error_bind, afterStepA]

theorem exec_insqti_stops (h : evalInsertion .quad a b s.release = .error stop) :
    exec (.insqti a b) s = stop.outcome s := by
  simp only [exec, execInsqti, h, error_bind, afterStepA]

theorem exec_remqhi_stops (h : evalRemoval .quad a b s.release = .error stop) :
    exec (.remqhi a b) s = stop.outcome s := by
  simp only [exec, execRemqhi, h, error_bind, afterStepA]

theorem exec_remqti_stops (h : evalRemoval .quad a b s.release = .error stop) :
    exec (.remqti a b) s = stop.outcome s := by
  simp only [exec, execRemqti, h, error_bind, afterStepA]

/-- What the operands of an insertion stop with decides it, with the state before it. -/
theorem exec_insertion_stops {i : Instr} {dt : DataType}
    (hi : i = .insque a b ∧ dt = .byte ∨ s.cpu.pending = none ∧ dt = .quad ∧
      (i = .insqhi a b ∨ i = .insqti a b))
    (h : evalInsertion dt a b s = .error stop) : exec i s = stop.outcome s := by
  obtain ⟨rfl, rfl⟩ | ⟨hp, rfl, rfl | rfl⟩ := hi
  · exact exec_insque_stops h
  · exact exec_insqhi_stops ((release_of_none hp).symm ▸ h)
  · exact exec_insqti_stops ((release_of_none hp).symm ▸ h)

/-- What the operands of a removal stop with decides it, with the state before it. -/
theorem exec_removal_stops {i : Instr} {dt : DataType}
    (hi : i = .remque a b ∧ dt = .byte ∨ s.cpu.pending = none ∧ dt = .quad ∧
      (i = .remqhi a b ∨ i = .remqti a b))
    (h : evalRemoval dt a b s = .error stop) : exec i s = stop.outcome s := by
  obtain ⟨rfl, rfl⟩ | ⟨hp, rfl, rfl | rfl⟩ := hi
  · exact exec_remque_stops h
  · exact exec_remqhi_stops ((release_of_none hp).symm ▸ h)
  · exact exec_remqti_stops ((release_of_none hp).symm ▸ h)

end

/-- Settles O10: the operands' equations, and what a stop does to each instruction. -/
theorem operandsInStreamOrder : Obligations.OperandsInStreamOrder := by
  refine ⟨rfl, rfl, rfl, fun dt a b s => ⟨fun _ _ _ => evalInsertion_ok_iff,
    fun _ => evalInsertion_error_iff, fun _ _ _ => evalRemoval_ok_iff, fun _ => evalRemoval_error_iff,
    fun hr hi => ⟨fun d t => ?_, fun stop => ?_⟩,
    fun i => ⟨fun hi => ⟨fun _ => exec_insertion_stops hi, fun _ => exec_insertion_stops hi⟩,
      fun hi => ⟨fun _ => exec_removal_stops hi, fun _ => exec_removal_stops hi⟩⟩⟩⟩
  · rw [evalDest_memory hr hi, bind_ok]
    simp [and_comm, eq_comm]
  · rw [evalDest_memory hr hi, bind_error]
    simp

/-! ## Short literals -/

theorem evalInsertion_literal_first (dt : DataType) (v : BitVec 6) (b : Specifier) (s : State) :
    evalInsertion dt (.plain (.literal v)) b s = .error (.raise .reservedAddressingMode) := rfl

theorem evalRemoval_literal_first (dt : DataType) (v : BitVec 6) (b : Specifier) (s : State) :
    evalRemoval dt (.plain (.literal v)) b s = .error (.raise .reservedAddressingMode) := rfl

theorem evalInsertion_literal_second {dt : DataType} {a : Specifier} {s : State} {x : Word × State}
    (v : BitVec 6) (h : evalAddress .byte a (s.advance 1) = .ok x) :
    evalInsertion dt a (.plain (.literal v)) s = .error (.raise .reservedAddressingMode) :=
  evalInsertion_error_iff.2 (.inr ⟨_, _, h, rfl⟩)

theorem evalRemoval_literal_second {dt : DataType} {a : Specifier} {s : State} {x : Word × State}
    (v : BitVec 6) (h : evalAddress dt a (s.advance 1) = .ok x) :
    evalRemoval dt a (.plain (.literal v)) s = .error (.raise .reservedAddressingMode) :=
  evalRemoval_error_iff.2 (.inr ⟨_, _, h, rfl⟩)

/-- Settles O11: a short literal stops the operands in either place. -/
theorem shortLiteralFaults : Obligations.ShortLiteralFaults := by
  intro v other s fault
  have insertion := fun dt => evalInsertion_literal_first dt v other
  have removal := fun dt => evalRemoval_literal_first dt v other
  refine ⟨encodeBase_literal v, ⟨exec_insque_stops (insertion ..), exec_remque_stops (removal ..),
    exec_insqhi_stops (insertion ..), exec_insqti_stops (insertion ..), exec_remqhi_stops (removal ..),
    exec_remqti_stops (removal ..)⟩, fun x hx => ?_, fun x hx => ?_, fun x hx => ?_⟩
  · exact ⟨exec_insque_stops (evalInsertion_literal_second v hx),
      exec_remque_stops (evalRemoval_literal_second v hx)⟩
  · exact ⟨exec_insqhi_stops (evalInsertion_literal_second v hx),
      exec_insqti_stops (evalInsertion_literal_second v hx)⟩
  · exact ⟨exec_remqhi_stops (evalRemoval_literal_second v hx),
      exec_remqti_stops (evalRemoval_literal_second v hx)⟩

end Sys2Proof.Machine
end

section
/-! The rest of a step's outcomes (spec/40_queue_common.md R106, R109, R112; spec/60_exceptions.md R189;
spec/70_reset_and_hazards.md R219): the steps that fetch nothing, what a fault of step B leaves, and where a queue
instruction leaves the program counter. -/

namespace Sys2Proof.Machine

/-! ## Steps that fetch nothing -/

theorem stepCpu_of_pending {s : State} {p : Pending} (h : s.cpu.pending = some p) : stepCpu s = stepB p s := by
  simp only [stepCpu, h]

theorem stepCpu_at_end {s : State} (hp : s.cpu.pending = none) (he : s.params.endAt = some s.pc) :
    stepCpu s = .next s := by
  simp only [stepCpu, hp, if_pos he]

/-- Settles O5: what is half done is looked at first, then whether the program counter is END. -/
theorem stepWithoutFetch : Obligations.StepWithoutFetch := by
  refine fun s => ⟨fun p hp => ?_, fun hp he => ?_⟩
  · rw [step, stepCpu_of_pending hp]
  · rw [step, stepCpu_at_end hp he, onNext]

/-! ## A fault of step B -/

/-- Step B faults with an exception, which leaves it undone, or over memory that holds no value. -/
theorem stepB_fault {p : Pending} {s : State} {r : Fault} (e : stepB p s = .fault r) :
    (∃ x, r = .raised x (undoHeld p s)) ∨ ∃ a, completeHeld p s = .error (.noValue a) ∧ r = .noValue a := by
  unfold stepB at e
  split at e
  · cases e
  · rename_i stop hs
    cases stop with
    | raise x =>
      cases e
      exact .inl ⟨x, rfl⟩
    | noValue a =>
      cases e
      exact .inr ⟨a, hs, rfl⟩
    | refuse _ => cases e

/-- Settles O45: `undoHeld` writes the header's forward link and no other longword, and where the operands are in
memory step B reads no gap. -/
theorem stepBFaultRestores : Obligations.StepBFaultRestores := by
  intro p s r e
  obtain ⟨x, rfl⟩ | ⟨a, ha, rfl⟩ := stepB_fault e
  · refine ⟨fun _ => ⟨x, _, rfl⟩, fun y t h => ?_⟩
    cases h
    have frame : sameOutside s.mem (undoHeld p s).mem [(p.header, 4)] :=
      sameOutside_write4_base (n := 4) (sameOutside_refl _ _) (by simp) (by decide) (by decide)
    exact ⟨read4_write4_same .., frame, rfl, rfl, rfl⟩
  · exact ⟨fun hm => absurd ha (noGap_completeHeld hm a), fun y t h => by cases h⟩

/-! ## The program counter -/

/-- What an instruction's parts after its operands keep of the program counter: what they leave half done does not
write it either. -/
structure KeepsPc (s t : State) : Prop where
  pc : t.pc = s.pc
  held : ∀ p, t.cpu.pending = some p → p.dest ≠ some (.reg pcReg)

theorem KeepsPc.of_not_pending {s t : State} (h : t.pc = s.pc) (hp : t.cpu.pending = none) : KeepsPc s t :=
  ⟨h, fun p e => by simp [hp] at e⟩

theorem pc_of_regs {s t : State} (h : t.cpu.regs = s.cpu.regs) : t.pc = s.pc := by
  simp only [State.pc, State.reg, h]

theorem FoundSet.keepsPc {header : Word} {s t : State} (x : FoundSet header s t) (hp : s.cpu.pending = none) :
    KeepsPc s t :=
  .of_not_pending (pc_of_regs x.regs) (x.pending.trans hp)

theorem Holds.keepsPc {start s t : State} {op : HeldOp} {header f : Word} (x : Holds start op header f s t)
    (hd : Pending.dest ⟨op, header, f, start.cpu.regs⟩ ≠ some (.reg pcReg)) : KeepsPc s t :=
  ⟨pc_of_regs x.regs, fun p hp => by
    obtain rfl : _ = p := Option.some.inj (x.pending.symm.trans hp)
    exact hd⟩

theorem FoundEmpty.keepsPc {header : Word} {d : Dest} {s u t : State} (r : Reads header s u)
    (x : FoundEmpty header d u t) (hp : s.cpu.pending = none) (hd : d ≠ .reg pcReg) : KeepsPc s t :=
  .of_not_pending ((x.writes.regs pcReg hd).trans (pc_of_regs r.regs))
    (x.writes.pending.trans (r.pending.trans hp))

theorem completeHeld_pc {p : Pending} {s t : State} (hd : p.dest ≠ some (.reg pcReg))
    (e : completeHeld p s = .ok t) : t.pc = s.pc := by
  obtain ⟨-, -, -, -, hr⟩ := completeHeld_ok e
  exact hr pcReg (fun h => hd (by simp [Pending.dest, h])) fun b h => hd (by simp [Pending.dest, h])

/-- An interlocked instruction leaves the program counter where its operands leave it: step B, when it is taken at
once, does not write it. -/
theorem afterStepA_pc {s u : State} {r : Res State} {a : Word}
    (hk : ∀ t, r = .ok t → ∃ v : State, v.pc = a ∧ KeepsPc v t) (e : afterStepA s r = .next u) : u.pc = a := by
  obtain ⟨t, ht, h⟩ := afterStepA_next e
  obtain ⟨v, rfl, k⟩ := hk t ht
  obtain ⟨-, rfl⟩ | ⟨p, w, hp, -, hw, rfl⟩ := h
  · exact k.pc
  · exact (completeHeld_pc (k.held p hp) hw).trans k.pc

theorem acquireInsqhi_keepsPc {start s t : State} {entry header : Word} (hp : s.cpu.pending = none)
    (e : acquireInsqhi start entry header s = .ok t) : KeepsPc s t := by
  obtain x | ⟨-, f, x⟩ := acquireInsqhi_ok e
  · exact x.keepsPc hp
  · exact x.keepsPc (by simp [Pending.dest])

theorem acquireInsqti_keepsPc {start s t : State} {entry header : Word} (hp : s.cpu.pending = none)
    (e : acquireInsqti start entry header s = .ok t) : KeepsPc s t := by
  obtain x | ⟨-, f, x⟩ := acquireInsqti_ok e
  · exact x.keepsPc hp
  · exact x.keepsPc (by simp [Pending.dest])

theorem acquireRemqhi_keepsPc {start s t : State} {header : Word} {d : Dest} (hp : s.cpu.pending = none)
    (hd : d ≠ .reg pcReg) (e : acquireRemqhi start header d s = .ok t) : KeepsPc s t := by
  obtain x | ⟨-, ⟨f, -, x⟩ | ⟨u, r, x⟩⟩ := acquireRemqhi_ok e
  · exact x.keepsPc hp
  · exact x.keepsPc (by simpa [Pending.dest] using hd)
  · exact x.keepsPc r hp hd

theorem acquireRemqti_keepsPc {start s t : State} {header : Word} {d : Dest} (hp : s.cpu.pending = none)
    (hd : d ≠ .reg pcReg) (e : acquireRemqti start header d s = .ok t) : KeepsPc s t := by
  obtain x | ⟨-, ⟨f, b, -, -, -, -, x⟩ | ⟨u, r, x⟩⟩ := acquireRemqti_ok e
  · exact x.keepsPc hp
  · exact x.keepsPc (by simpa [Pending.dest] using hd)
  · exact x.keepsPc r hp hd

/-- Operands that answer leave the program counter after the last specifier: none of them steps it. -/
theorem evalInsertion_pc {dt : DataType} {a b : Specifier} {s t : State} {e h : Word}
    (hx : evalInsertion dt a b s = .ok (e, h, t)) :
    t.pc = s.pc + BitVec.ofNat 32 (1 + specifierLength a + specifierLength b) := by
  obtain ⟨ev, ha, hb⟩ := evalInsertion_ok hx
  exact ev.pc (by simp [ha, hb])

theorem evalRemoval_pc {dt : DataType} {a b : Specifier} {s t : State} {h : Word} {d : Dest}
    (hx : evalRemoval dt a b s = .ok (h, d, t)) :
    t.pc = s.pc + BitVec.ofNat 32 (1 + specifierLength a + specifierLength b) := by
  obtain ⟨ev, ha, hb, -⟩ := evalRemoval_ok hx
  exact ev.pc (by simp [ha, hb])

/-- Settles O40: the operands leave the program counter there and nothing after them writes it, since no
destination is register 15. -/
theorem programCounterAfterQueueInstruction : Obligations.ProgramCounterAfterQueueInstruction := by
  intro a b i s u hi e
  simp only [List.mem_cons, List.not_mem_nil, or_false] at hi
  obtain rfl | rfl | rfl | rfl | rfl | rfl := hi
  · obtain ⟨⟨x, y, t⟩, hx, e⟩ := bind_ok.1 (finish_next e)
    obtain ⟨succ, v, n, z, c, -, -, -, -, acc, rfl, -⟩ := insertAbsolute_ok e
    exact (acc.reg pcReg).trans (evalInsertion_pc hx)
  · obtain ⟨⟨x, d, t⟩, hx, e⟩ := bind_ok.1 (finish_next e)
    obtain ⟨-, -, -, hd, -⟩ := evalRemoval_ok hx
    exact ((removeAbsolute_ok e).1.regs pcReg hd).trans (evalRemoval_pc hx)
  · refine afterStepA_pc (fun t ht => ?_) e
    obtain ⟨⟨x, y, v⟩, hx, ht⟩ := bind_ok.1 ht
    exact ⟨v, evalInsertion_pc (s := s.release) hx, acquireInsqhi_keepsPc (evalInsertion_ok hx).1.pending ht⟩
  · refine afterStepA_pc (fun t ht => ?_) e
    obtain ⟨⟨x, y, v⟩, hx, ht⟩ := bind_ok.1 ht
    exact ⟨v, evalInsertion_pc (s := s.release) hx, acquireInsqti_keepsPc (evalInsertion_ok hx).1.pending ht⟩
  · refine afterStepA_pc (fun t ht => ?_) e
    obtain ⟨⟨x, d, v⟩, hx, ht⟩ := bind_ok.1 ht
    obtain ⟨ev, -, -, hd, -⟩ := evalRemoval_ok hx
    exact ⟨v, evalRemoval_pc (s := s.release) hx, acquireRemqhi_keepsPc ev.pending hd ht⟩
  · refine afterStepA_pc (fun t ht => ?_) e
    obtain ⟨⟨x, d, v⟩, hx, ht⟩ := bind_ok.1 ht
    obtain ⟨ev, -, -, hd, -⟩ := evalRemoval_ok hx
    exact ⟨v, evalRemoval_pc (s := s.release) hx, acquireRemqti_keepsPc ev.pending hd ht⟩

end Sys2Proof.Machine
end

section
/-! Step A of an interlocked instruction where its header cannot be accessed, where it finds the interlock set, and
where it finds it clear with other processors about (spec/40_queue_common.md R106, R107, R109;
spec/60_exceptions.md R186, R187). -/

namespace Sys2Proof.Machine

/-! ## Reads change the record only -/

theorem OnlyTouched.trans {s t u : State} (x : OnlyTouched s t) (y : OnlyTouched t u) : OnlyTouched s u := by
  rw [OnlyTouched] at *
  rw [y, x]

theorem OnlyTouched.raceFree {s t : State} (x : OnlyTouched s t) (via : Option Word) (a : Word) :
    t.raceFree via a = s.raceFree via a := by
  rw [x]
  rfl

theorem OnlyTouched.mem {s t : State} (x : OnlyTouched s t) : t.mem = s.mem := by rw [x]

theorem OnlyTouched.inText {s t : State} (x : OnlyTouched s t) (a : Word) (n : Nat) :
    t.inText a n = s.inText a n := by
  rw [x]
  rfl

theorem OnlyTouched.consistentHeader {s t : State} (x : OnlyTouched s t) (h f : Word) :
    Machine.consistentHeader t h f = Machine.consistentHeader s h f := by
  simp only [Machine.consistentHeader, x.mem]

/-! ## A header that cannot be accessed -/

/-- Phase 2 on a header whose probe fails raises that exception or one of phase 1's (R187). -/
theorem acquire_inaccessible {header : Word} {early : List Exception} (links : Word → List Exception) {s : State}
    {x : Exception} (hp : s.probe header 8 .write = some x) :
    ∃ y, (y = x ∨ y ∈ early) ∧ acquire header early links s = .error (.raise y) := by
  refine ⟨s.choose x (early.filter (· != x)), ?_, by simp only [acquire, hp]⟩
  obtain h | h := List.mem_cons.1 (choose_mem s x (early.filter (· != x)))
  · exact .inl h
  · exact .inr (List.mem_of_mem_filter h)

/-- What phase 2 raises, the instruction raises, in the state before it. -/
theorem afterStepA_acquire_raises {s t : State} {header : Word} {early : List Exception}
    {links : Word → List Exception} {y : Exception} (h : acquire header early links t = .error (.raise y))
    (k : Option Word × State → Res State) :
    afterStepA s (acquire header early links t >>= k) = .fault (.raised y s) := by
  rw [h]
  rfl

/-- Settles O31: phase 2 stops at the header's probe, before it looks at the interlock. -/
theorem inaccessibleHeaderFaults : Obligations.InaccessibleHeaderFaults := by
  intro a b s t h x hp hx
  refine ⟨fun e he i hi => ?_, fun d hd i hi => ?_⟩
  · have ev := (evalInsertion_ok he).1
    have key (links : Word → List Exception) : ∃ y, (y = x ∨ InsertionCondition s e h 0 y) ∧
        acquire h (insertionConditions e h t) links t = .error (.raise y) := by
      obtain ⟨y, hy, hr⟩ := acquire_inaccessible links ((ev.probe ..).trans hx)
      exact ⟨y, hy.imp_right fun hm => mem_insertionConditions.1 (.inl (ev.insertionConditions .. ▸ hm)), hr⟩
    obtain rfl | rfl := hi
    · obtain ⟨y, hy, hr⟩ := key (t.insqhiLinks h)
      exact ⟨y, hy, (exec_insqhi hp he).trans (afterStepA_acquire_raises hr _)⟩
    · obtain ⟨y, hy, hr⟩ := key fun _ => t.insqtiLinks h
      exact ⟨y, hy, (exec_insqti hp he).trans (afterStepA_acquire_raises hr _)⟩
  · have ev := (evalRemoval_ok hd).1
    have key (links : Word → List Exception) : ∃ y, (y = x ∨ RemovalCondition s h d 0 y) ∧
        acquire h (removalConditions h d t) links t = .error (.raise y) := by
      obtain ⟨y, hy, hr⟩ := acquire_inaccessible links ((ev.probe ..).trans hx)
      exact ⟨y, hy.imp_right fun hm => mem_removalConditions.1 (.inl (ev.removalConditions .. ▸ hm)), hr⟩
    obtain rfl | rfl := hi
    · obtain ⟨y, hy, hr⟩ := key (t.remqhiLinks h)
      exact ⟨y, hy, (exec_remqhi hp hd).trans (afterStepA_acquire_raises hr _)⟩
    · obtain ⟨y, hy, hr⟩ := key (t.remqtiLinks h)
      exact ⟨y, hy, (exec_remqti hp hd).trans (afterStepA_acquire_raises hr _)⟩

/-! ## The interlock found set -/

/-- `u` is what an instruction that finds the interlock set answers, where the operands leave `t` and `v` is its
code V: the codes of the failure outcome, its read on record, and the draws counted up to `k` (R107). -/
def FailsFrom (s t : State) (v : Bool) (u : State) (k : Nat) : Prop :=
  u = { t with
    cpu := { t.cpu with psl := withCC s.cpu.psl false false v true, touched := u.cpu.touched }
    draws := k } ∧ u.mem = s.mem ∧ (s.others = [] → u.cpu.touched = s.cpu.touched)

/-- Nothing but the record and the draws having changed since the operands, the failure outcome's codes make it the
answer. -/
theorem Evaluates.failsFrom {l : List Reg} {n : Nat} {s t u : State} (ev : Evaluates l n s t)
    (ho : OnlyTouched t u) (ha : t.alone = true → u.cpu.touched = t.cpu.touched) (v : Bool) (k : Nat) :
    FailsFrom s t v (State.setCC { u with draws := k } false false v true) k := by
  refine ⟨?_, ?_, fun hn => ?_⟩
  · rw [ho]
    simp only [State.setCC, ev.psl]
  · exact ho.mem.trans ev.mem
  · have hs : s.alone = true := by simp [State.alone, hn]
    exact (ha (ev.isAlone hn)).trans (ev.alone hs)

/-- Phase 2 on a header whose interlock is set, in an instruction that then goes on to its failure outcome; `C`
says what the conditions of phases 1 and 2 are. -/
theorem findsInterlockSet {l : List Reg} {n : Nat} {s t : State} (ev : Evaluates l n s t)
    (hp : s.cpu.pending = none) {header f : Word} (ph : s.probe header 8 .write = none)
    (hf : s.mem.read4 header = some f) (hi : interlockSet f = true)
    (hr : s.raceFree (some header) header = true) {early : List Exception} {C : Exception → Prop}
    (hC : ∀ x, x ∈ addCondition (conditionIf (field f 1 2 != 0) .reservedOperand) early ↔ C x)
    (links : Word → List Exception) {v : Bool} {k : Option Word × State → Res State}
    (hk : ∀ u, k (none, u) = .ok (u.setCC false false v true)) :
    ((∀ x, ¬ C x) → ∃ u, afterStepA s (acquire header early links t >>= k) = .next u ∧
      FailsFrom s t v u s.draws) ∧
    ((∃ x, C x) →
      (∃ x, C x ∧ afterStepA s (acquire header early links t >>= k) = .fault (.raised x s)) ∨
      ∃ u k', afterStepA s (acquire header early links t >>= k) = .next u ∧ FailsFrom s t v u k') := by
  obtain ⟨w, ho, ha, clean, conditional, -, -⟩ := acquire_raceFree (links := links) (early := early)
    ((ev.raceFree ..).trans hr) ((ev.probe ..).trans ph) (ev.mem ▸ hf)
  have answers {d : Nat} (h : acquire header early links t = .ok (none, { w with draws := d })) :
      ∃ u, afterStepA s (acquire header early links t >>= k) = .next u ∧ FailsFrom s t v u d := by
    refine ⟨_, ?_, ev.failsFrom ho ha v d⟩
    have hw : w.cpu.pending = none := by
      rw [ho]
      exact ev.pending.trans hp
    rw [h, ok_bind, hk, afterStepA]
    simp only [setCC_pending, hw]
  refine ⟨fun hn => ?_, fun ⟨x, hx⟩ => ?_⟩
  · have hw : s.draws = w.draws := by
      rw [ho]
      exact ev.draws.symm
    rw [hw]
    exact answers (clean hi (List.eq_nil_iff_forall_not_mem.2 fun x hx => hn x ((hC x).1 hx)))
  · obtain ⟨y, hy, h⟩ | h   := conditional hi (List.ne_nil_of_mem ((hC x).2 hx))
    · exact .inl ⟨y, (hC y).1 hy, afterStepA_acquire_raises h k⟩
    · obtain ⟨u, hu⟩ := answers h
      exact .inr ⟨u, _, hu⟩

/-- Settles O27: INSQHI and INSQTI go on alike from an interlock found set. -/
theorem insertionFindsInterlockSet : Obligations.InsertionFindsInterlockSet := by
  intro a b s t e h f i hi hp he ph hf hs hr failed
  have ev := (evalInsertion_ok he).1
  have hC : ∀ x, x ∈ addCondition (conditionIf (field f 1 2 != 0) .reservedOperand) (insertionConditions e h t) ↔
      InsertionCondition s e h f x := fun x => ev.insertionConditions e h ▸ mem_insertionSet
  obtain rfl | rfl := hi
  · rw [exec_insqhi hp he]
    exact findsInterlockSet ev hp ph hf hs hr hC _ fun _ => rfl
  · rw [exec_insqti hp he]
    exact findsInterlockSet ev hp ph hf hs hr hC _ fun _ => rfl

/-- Settles O28: REMQHI and REMQTI go on alike from an interlock found set. -/
theorem removalFindsInterlockSet : Obligations.RemovalFindsInterlockSet := by
  intro a b s t h f d i hi hp hd ph hf hs hr failed
  have ev := (evalRemoval_ok hd).1
  have hC : ∀ x, x ∈ addCondition (conditionIf (field f 1 2 != 0) .reservedOperand) (removalConditions h d t) ↔
      RemovalCondition s h d f x := fun x => ev.removalConditions h d ▸ mem_removalSet
  obtain rfl | rfl := hi
  · rw [exec_remqhi hp hd]
    exact findsInterlockSet ev hp ph hf hs hr hC _ fun _ => rfl
  · rw [exec_remqti hp hd]
    exact findsInterlockSet ev hp ph hf hs hr hC _ fun _ => rfl

/-! ## The interlock found clear, with other processors about -/

/-- Phase 2 on a header whose interlock is clear, with no condition and nothing on record that races with it. -/
theorem acquire_clear_raceFree {header f : Word} {s : State} (hr : s.raceFree (some header) header = true)
    (hp : s.probe header 8 .write = none) (hm : s.mem.read4 header = some f) (hi : interlockSet f = false)
    (hf : field f 1 2 = 0) :
    ∃ u, OnlyTouched s u ∧ ∀ links, acquire header [] links s = .ok (some f, u) := by
  obtain ⟨u, hu, ho, -⟩ := load_raceFree hr hm
  exact ⟨u, ho, fun links => by simp [acquire, hp, hu, hi, hf, conditionIf]⟩

/-- Phase 3 with nothing on record that races with it answers. -/
theorem hold_raceFree {s : State} {header : Word} (hr : s.raceFree (some header) header = true)
    (ht : s.inText header 4 = false) (start : State) (op : HeldOp) (f : Word) :
    ∃ u, hold start op header f s = .ok u := by
  obtain ⟨w, hw, -, -⟩ := touch_raceFree hr
  simp [hold, State.store, ht, require, hw]

/-- `u` holds the interlock of `header` for step B, where the operands leave `t`: nothing but bit 0 of the header has
changed in memory, and nothing in the status. -/
def Holding (s t : State) (header f : Word) (op : HeldOp) (u : State) : Prop :=
  u.mem = s.mem.write4 header (f ||| 1) ∧ u.cpu.regs = t.cpu.regs ∧ u.cpu.psl = s.cpu.psl ∧
    u.cpu.pending = some { op, header, forward := f, startRegs := s.cpu.regs }

/-- Phase 3 after reads only: step A ends here, since there are other processors (R109). -/
theorem Evaluates.holding {l : List Reg} {n : Nat} {s t w : State} (ev : Evaluates l n s t) (hx : s.others ≠ [])
    (ho : OnlyTouched t w) {header f : Word} (hr : s.raceFree (some header) header = true)
    (ht : s.inText header 4 = false) (op : HeldOp) :
    ∃ u, afterStepA s (hold s op header f w) = .next u ∧ Holding s t header f op u := by
  have hw : w.inText header 4 = false := ((ho.inText ..).trans (ev.inText ..)).trans ht
  obtain ⟨u, hu⟩ := hold_raceFree (((ho.raceFree ..).trans (ev.raceFree ..)).trans hr) hw s op f
  obtain ⟨fl, hm, hg, hs, -, hp, -⟩ := hold_ok hu
  have ha : u.alone = false := by
    rw [fl.alone, ho]
    simpa [State.alone, (ev.follows none).others] using hx
  refine ⟨u, ?_, ?_, ?_, ?_, hp⟩
  · rw [hu, afterStepA]
    simp only [hp, ha, Bool.false_eq_true, if_false]
  · rw [hm, ho.mem, ev.mem]
  · rw [hg, ho]
  · rw [hs, ho, ← ev.psl]

/-- Settles O46: phase 2 finds the interlock clear and phase 3 ends the step. -/
theorem stepAHoldsTheInterlock : Obligations.StepAHoldsTheInterlock := by
  intro a b s t h f hp hx hf hi ph hw hr holding
  have ht : s.inText h 4 = false := by simpa [State.writable] using hw
  refine ⟨fun e he hn => ?_, fun d hd hn h0 => ?_⟩
  · have ev := (evalInsertion_ok he).1
    obtain ⟨hE, hl⟩ := insertionConditions_of_none hn
    obtain ⟨w, ho, hacq⟩ := acquire_clear_raceFree ((ev.raceFree ..).trans hr) ((ev.probe ..).trans ph)
      (ev.mem ▸ hf) hi hl
    rw [← hE, ← ev.insertionConditions] at hacq
    rw [exec_insqhi hp he, exec_insqti hp he, acquireInsqhi_clear hacq, acquireInsqti_clear hacq]
    refine ⟨fun hc => ?_, ev.holding hx ho hr ht _⟩
    rw [ho.consistentHeader, ev.consistentHeader, if_pos hc]
    exact ev.holding hx ho hr ht _
  · have ev := (evalRemoval_ok hd).1
    obtain ⟨hE, hl⟩ := removalConditions_of_none hn
    obtain ⟨w, ho, hacq⟩ := acquire_clear_raceFree ((ev.raceFree ..).trans hr) ((ev.probe ..).trans ph)
      (ev.mem ▸ hf) hi hl
    rw [← hE, ← ev.removalConditions] at hacq
    rw [exec_remqhi hp hd, exec_remqti hp hd, acquireRemqhi_clear hacq]
    refine ⟨fun hc => ?_, fun back hb ha hb0 hr4 => ?_⟩
    · rw [ho.consistentHeader, ev.consistentHeader, if_pos hc, if_neg h0]
      exact ev.holding hx ho hr ht _
    · have hb' : w.mem.read4 (h + 4) = some back := by rw [ho.mem, ev.mem, hb]
      obtain ⟨v, hv, ho', -⟩ := load_raceFree (((ho.raceFree ..).trans (ev.raceFree ..)).trans hr4) hb'
      rw [(acquireRemqti_clear hacq hv).1 ha, if_pos (iff_of_false h0 hb0), if_neg h0]
      exact ev.holding hx (ho.trans ho') hr ht _

end Sys2Proof.Machine
end

section
/-! An instruction as a processor that is alone executes it (spec/40_queue_common.md R109): what it computes with other
processors about it computes without them, so that its step A and its step B make up the whole of it. -/

namespace Sys2Proof.Machine

/-! ## The state without the other processors -/

/-- The state with no other processor and the record of accesses `l`. -/
def State.solo (s : State) (l : List Touch) : State :=
  { s with others := [], cpu := { s.cpu with touched := l } }

@[simp] theorem solo_alone (s : State) (l : List Touch) : (s.solo l).alone = true := rfl
@[simp] theorem solo_pending (s : State) (l : List Touch) : (s.solo l).cpu.pending = s.cpu.pending := rfl

/-- With no other processor nothing races. -/
theorem solo_raceFree (s : State) (l : List Touch) (via : Option Word) (a : Word) :
    (s.solo l).raceFree via a = true := rfl

theorem solo_alike (s : State) (l : List Touch) : Alike s (s.solo l) := ⟨rfl, rfl, rfl, rfl, rfl, rfl⟩

theorem Alike.symm {s s' : State} (x : Alike s s') : Alike s' s :=
  ⟨x.regs.symm, x.psl.symm, x.pending.symm, x.mem.symm, x.params.symm, x.draws.symm⟩

theorem touch_solo {s t : State} {x : Touch} (e : s.touch x = .ok t) (l : List Touch) : t.solo l = s.solo l := by
  obtain ⟨rfl, -⟩ | ⟨-, -, rfl⟩ := touch_ok e <;> rfl

theorem load_solo {s t : State} {via : Option Word} {a v : Word} (e : s.load via a = .ok (v, t)) (l : List Touch) :
    (s.solo l).load via a = .ok (v, t.solo l) := by
  obtain ⟨hr, ht⟩ := load_ok e
  rw [touch_solo ht]
  exact load_alone rfl via hr

theorem store_solo {s t : State} {via : Option Word} {a v : Word} (e : s.store via a v = .ok t) (l : List Touch) :
    (s.solo l).store via a v = .ok (t.solo l) := by
  obtain ⟨ht, u, hu, rfl⟩ := store_ok e
  rw [store_alone (s := s.solo l) rfl via v ht, ← touch_solo hu, ← touch_mem hu]
  rfl

theorem writeDest_solo {s t : State} {d : Dest} {v : Word} (e : s.writeDest d v = .ok t) (l : List Touch) :
    (s.solo l).writeDest d v = .ok (t.solo l) := by
  obtain ⟨n, rfl, rfl⟩ | ⟨a, rfl, e⟩ := writeDest_ok e
  · rfl
  · exact store_solo e l

/-! ## Operands -/

theorem pointer_solo {s t : State} {p v : Word} (e : s.pointer p = .ok (v, t)) (l : List Touch) :
    (s.solo l).pointer p = .ok (v, t.solo l) := by
  obtain ⟨_, hd, e⟩ := bind_ok.1 e
  exact bind_ok.2 ⟨(), hd, load_solo e l⟩

theorem baseAddress_solo {size : Nat} {b : BaseSpec} {s t : State} {a : Word} (e : baseAddress size b s = .ok (a, t))
    (l : List Touch) : baseAddress size b (s.solo l) = .ok (a, t.solo l) := by
  cases b with
  | literal v | indexPrefix x | immediate data => cases e
  | register n =>
    obtain ⟨-, -, e⟩ := bind_ok.1 e
    cases e
  | deferred n | autodec n | autoinc n =>
    obtain ⟨_, hn, e⟩ := bind_ok.1 e
    cases e
    exact bind_ok.2 ⟨(), hn, rfl⟩
  | absolute w | byteDisp n d | wordDisp n d | longDisp n d =>
    cases e
    rfl
  | autoincDeferred n =>
    obtain ⟨_, hn, e⟩ := bind_ok.1 e
    obtain ⟨⟨w, u⟩, hu, e⟩ := bind_ok.1 e
    cases e
    exact bind_ok.2 ⟨(), hn, bind_ok.2 ⟨_, pointer_solo hu l, rfl⟩⟩
  | byteDispDeferred n d | wordDispDeferred n d | longDispDeferred n d => exact pointer_solo e l

theorem evalAddress_solo {dt : DataType} {sp : Specifier} {s t : State} {a : Word}
    (e : evalAddress dt sp s = .ok (a, t)) (l : List Touch) : evalAddress dt sp (s.solo l) = .ok (a, t.solo l) := by
  cases sp with
  | plain b => exact baseAddress_solo e l
  | indexed x b =>
    obtain ⟨_, hx, e⟩ := bind_ok.1 e
    obtain ⟨_, hb, e⟩ := bind_ok.1 e
    obtain ⟨⟨w, u⟩, hu, e⟩ := bind_ok.1 e
    cases e
    exact bind_ok.2 ⟨(), hx, bind_ok.2 ⟨(), hb, bind_ok.2 ⟨_, baseAddress_solo hu l, rfl⟩⟩⟩

theorem evalDest_solo {sp : Specifier} {s t : State} {d : Dest} (e : evalDest sp s = .ok (d, t)) (l : List Touch) :
    evalDest sp (s.solo l) = .ok (d, t.solo l) := by
  unfold evalDest at e ⊢
  split at e
  · obtain ⟨_, hn, e⟩ := bind_ok.1 e
    cases e
    exact bind_ok.2 ⟨(), hn, rfl⟩
  · cases e
  · obtain ⟨⟨a, u⟩, hu, e⟩ := bind_ok.1 e
    cases e
    exact bind_ok.2 ⟨_, evalAddress_solo hu l, rfl⟩

theorem evalInsertion_solo {dt : DataType} {a b : Specifier} {s t : State} {e h : Word}
    (hx : evalInsertion dt a b s = .ok (e, h, t)) (l : List Touch) :
    evalInsertion dt a b (s.solo l) = .ok (e, h, t.solo l) := by
  obtain ⟨u, hu, ht⟩ := evalInsertion_ok_iff.1 hx
  exact evalInsertion_ok_iff.2 ⟨u.solo l, evalAddress_solo hu l, evalAddress_solo ht l⟩

theorem evalRemoval_solo {dt : DataType} {a b : Specifier} {s t : State} {h : Word} {d : Dest}
    (hx : evalRemoval dt a b s = .ok (h, d, t)) (l : List Touch) :
    evalRemoval dt a b (s.solo l) = .ok (h, d, t.solo l) := by
  obtain ⟨u, hu, ht⟩ := evalRemoval_ok_iff.1 hx
  exact evalRemoval_ok_iff.2 ⟨u.solo l, evalAddress_solo hu l, evalDest_solo ht l⟩

/-! ## Step A -/

/-- Phase 2 makes its free choices alike: `solo` keeps the draws. -/
theorem acquire_solo {header : Word} {early : List Exception} {links : Word → List Exception} {s t : State}
    {r : Option Word} (e : acquire header early links s = .ok (r, t)) (l : List Touch) :
    acquire header early links (s.solo l) = .ok (r, t.solo l) := by
  have probe : (s.solo l).probe header 8 .write = s.probe header 8 .write := rfl
  unfold acquire at e ⊢
  rw [probe]
  split at e
  · cases e
  · obtain ⟨⟨f, u⟩, hu, e⟩ := bind_ok.1 e
    refine bind_ok.2 ⟨_, load_solo hu l, ?_⟩
    dsimp only at e ⊢
    split at e
    · rename_i hi
      rw [if_pos hi]
      split at e
      · cases e
        rfl
      · split at e
        · cases e
        · rename_i hu
          cases e
          exact if_neg hu
    · rename_i hi
      obtain ⟨_, hc, e⟩ := bind_ok.1 e
      cases e
      rw [if_neg hi]
      exact bind_ok.2 ⟨(), raiseAny_ok.2 (raiseAny_ok.1 hc), rfl⟩

theorem hold_solo {start s t : State} {op : HeldOp} {header f : Word} (e : hold start op header f s = .ok t)
    (l : List Touch) : hold (start.solo l) op header f (s.solo l) = .ok (t.solo l) := by
  obtain ⟨u, hu, e⟩ := bind_ok.1 e
  cases e
  exact bind_ok.2 ⟨_, store_solo hu l, rfl⟩

theorem removeFromEmpty_solo {header link : Word} {d : Dest} {s t : State}
    (e : removeFromEmpty header d link s = .ok t) (l : List Touch) :
    removeFromEmpty header d link (s.solo l) = .ok (t.solo l) := by
  obtain ⟨_, hd, e⟩ := bind_ok.1 e
  obtain ⟨⟨v, u⟩, hu, e⟩ := bind_ok.1 e
  obtain ⟨w, hw, e⟩ := bind_ok.1 e
  cases e
  exact bind_ok.2 ⟨(), hd, bind_ok.2 ⟨_, load_solo hu l, bind_ok.2 ⟨_, writeDest_solo hw l, rfl⟩⟩⟩

theorem acquireInsqhi_solo {start s t : State} {entry header : Word}
    (e : acquireInsqhi start entry header s = .ok t) (l : List Touch) :
    acquireInsqhi (start.solo l) entry header (s.solo l) = .ok (t.solo l) := by
  obtain ⟨⟨r, u⟩, hu, e⟩ := bind_ok.1 e
  refine bind_ok.2 ⟨_, acquire_solo hu l, ?_⟩
  cases r with
  | none =>
    cases e
    rfl
  | some f =>
    obtain ⟨_, hc, e⟩ := bind_ok.1 e
    exact bind_ok.2 ⟨(), hc, hold_solo e l⟩

theorem acquireInsqti_solo {start s t : State} {entry header : Word}
    (e : acquireInsqti start entry header s = .ok t) (l : List Touch) :
    acquireInsqti (start.solo l) entry header (s.solo l) = .ok (t.solo l) := by
  obtain ⟨⟨r, u⟩, hu, e⟩ := bind_ok.1 e
  refine bind_ok.2 ⟨_, acquire_solo hu l, ?_⟩
  cases r with
  | none =>
    cases e
    rfl
  | some f => exact hold_solo e l

theorem acquireRemqhi_solo {start s t : State} {header : Word} {d : Dest}
    (e : acquireRemqhi start header d s = .ok t) (l : List Touch) :
    acquireRemqhi (start.solo l) header d (s.solo l) = .ok (t.solo l) := by
  have conditions : removalConditions header d (s.solo l) = removalConditions header d s := by
    cases d <;> rfl
  obtain ⟨⟨r, u⟩, hu, e⟩ := bind_ok.1 e
  refine bind_ok.2 ⟨_, conditions ▸ acquire_solo hu l, ?_⟩
  cases r with
  | none =>
    cases e
    rfl
  | some f =>
    obtain ⟨_, hc, e⟩ := bind_ok.1 e
    refine bind_ok.2 ⟨(), hc, ?_⟩
    split at e
    · exact (if_pos ‹_›).trans (removeFromEmpty_solo e l)
    · exact (if_neg ‹_›).trans (hold_solo e l)

theorem acquireRemqti_solo {start s t : State} {header : Word} {d : Dest}
    (e : acquireRemqti start header d s = .ok t) (l : List Touch) :
    acquireRemqti (start.solo l) header d (s.solo l) = .ok (t.solo l) := by
  have conditions : removalConditions header d (s.solo l) = removalConditions header d s := by
    cases d <;> rfl
  obtain ⟨⟨r, u⟩, hu, e⟩ := bind_ok.1 e
  refine bind_ok.2 ⟨_, conditions ▸ acquire_solo hu l, ?_⟩
  cases r with
  | none =>
    cases e
    rfl
  | some f =>
    obtain ⟨⟨b, v⟩, hv, e⟩ := bind_ok.1 e
    obtain ⟨_, hb, e⟩ := bind_ok.1 e
    obtain ⟨_, hc, e⟩ := bind_ok.1 e
    refine bind_ok.2 ⟨_, load_solo hv l, bind_ok.2 ⟨(), raiseAny_ok.2 (raiseAny_ok.1 hb), bind_ok.2 ⟨(), hc, ?_⟩⟩⟩
    split at e
    · exact (if_pos ‹_›).trans (removeFromEmpty_solo e l)
    · exact (if_neg ‹_›).trans (hold_solo e l)

/-! ## The two steps and the one -/

/-- Step A that leaves something half done is what its computation answered. -/
theorem afterStepA_held {s u : State} {r : Res State} {p : Pending} (e : afterStepA s r = .next u)
    (hu : u.cpu.pending = some p) : r = .ok u := by
  obtain ⟨t, ht, ⟨-, rfl⟩ | ⟨q, v, -, -, -, rfl⟩⟩ := afterStepA_next e
  · exact ht
  · cases hu

/-- A processor that is alone goes on with step B from what step A leaves half done. -/
theorem afterStepA_solo {u : State} {p : Pending} (s : State) (hu : u.cpu.pending = some p) (l : List Touch) :
    afterStepA s (.ok (u.solo l)) = stepB p (u.solo l) := by
  simp only [afterStepA, solo_pending, hu, solo_alone, if_true]

/-- Where an instruction takes step A with other processors about, it takes the same step A alone, and step B. -/
theorem exec_solo_of_held {i : Instr} {s u : State} {p : Pending} (hp : s.cpu.pending = none)
    (e : exec i s = .next u) (hu : u.cpu.pending = some p) (l : List Touch) :
    exec i (s.solo l) = stepB p (u.solo l) := by
  have nothing : u.cpu.pending ≠ none := by simp [hu]
  have hq : (s.solo l).cpu.pending = none := hp
  cases i with
  | brb d | beql d | bvs d | bcs d =>
    simp only [exec, execBrb, execBeql, execBvs, execBcs, Host.Outcome.next.injEq] at e
    exact absurd (e ▸ hp) nothing
  | insque a b =>
    obtain ⟨⟨x, y, t⟩, hx, e⟩ := bind_ok.1 (finish_next e)
    exact absurd (((insertAbsolute_domain e).2.trans (evalInsertion_ok hx).1.pending).trans hp) nothing
  | remque a b =>
    obtain ⟨⟨x, d, t⟩, hx, e⟩ := bind_ok.1 (finish_next e)
    exact absurd (((removeAbsolute_domain e).2.trans (evalRemoval_ok hx).1.pending).trans hp) nothing
  | insqhi a b =>
    obtain ⟨⟨x, y, t⟩, hx, e⟩ := bind_ok.1 (afterStepA_held e hu)
    rw [release_of_none hp] at hx
    rw [exec_insqhi hq (evalInsertion_solo hx l), acquireInsqhi_solo e l, afterStepA_solo _ hu]
  | insqti a b =>
    obtain ⟨⟨x, y, t⟩, hx, e⟩ := bind_ok.1 (afterStepA_held e hu)
    rw [release_of_none hp] at hx
    rw [exec_insqti hq (evalInsertion_solo hx l), acquireInsqti_solo e l, afterStepA_solo _ hu]
  | remqhi a b =>
    obtain ⟨⟨x, d, t⟩, hx, e⟩ := bind_ok.1 (afterStepA_held e hu)
    rw [release_of_none hp] at hx
    rw [exec_remqhi hq (evalRemoval_solo hx l), acquireRemqhi_solo e l, afterStepA_solo _ hu]
  | remqti a b =>
    obtain ⟨⟨x, d, t⟩, hx, e⟩ := bind_ok.1 (afterStepA_held e hu)
    rw [release_of_none hp] at hx
    rw [exec_remqti hq (evalRemoval_solo hx l), acquireRemqti_solo e l, afterStepA_solo _ hu]

/-- Step B that completes on one of two states that are alike completes on the other, and agrees. -/
theorem stepB_alike {p : Pending} {s s' v : State} (x : Alike s s')
    (hr : ∀ a ∈ p.accesses s'.mem, s'.raceFree (some p.header) a = true)
    (hd : ∀ d, p.dest = some d → s'.raceFreeDest d = true) (e : stepB p s = .next v) :
    ∃ v', stepB p s' = .next v' ∧ Alike v v' ∧ v'.cpu.pending = none := by
  obtain ⟨t, ht, rfl⟩ := stepB_next e
  obtain ⟨t', ht', y⟩ := completeHeld_follows x hr hd ht
  refine ⟨t'.release, ?_, ⟨y.regs, y.psl, rfl, y.mem, y.params, y.draws⟩, rfl⟩
  rw [stepB, ht']

/-- Settles O48: alone the instruction is step B on the state step A leaves, `exec_solo_of_held`, and step B does not
see the other processors but for races, `completeHeld_follows`. -/
theorem twoStepsAreTheInstruction : Obligations.TwoStepsAreTheInstruction := by
  intro i s u p hp hx e hu agree
  have key := exec_solo_of_held hp e hu s.cpu.touched
  change exec i { s with others := [] } = _ at key
  rw [key]
  obtain ⟨_, alt⟩ := exec_alters e
  have others : ∀ via a, u.raceFree via a = s.raceFree via a := fun via a => by
    simp only [State.raceFree, alt.follows.others]
  refine ⟨fun v hv => ?_, fun w hw hr hd => ?_⟩
  · obtain ⟨w, hw, y, -⟩ := stepB_alike (solo_alike u s.cpu.touched) (fun _ _ => solo_raceFree ..)
      (fun d _ => by cases d <;> rfl) hv
    obtain ⟨t, -, rfl⟩ := stepB_next hv
    exact ⟨w, hw, y.mem, y.regs, y.psl, rfl⟩
  · obtain ⟨v, hv, y, hn⟩ := stepB_alike (solo_alike u s.cpu.touched).symm
      (fun a ha => (others ..).trans (hr a ha))
      (fun d h => by cases d with
        | reg n => rfl
        | mem a => exact (others ..).trans (hd _ h)) hw
    exact ⟨v, hv, y.mem.symm, y.regs.symm, y.psl.symm, hn⟩

end Sys2Proof.Machine
end

section
/-! Interlocked instructions that a processor alone completes, each with the whole state it answers
(spec/41_queue_insert.md R130, R131; spec/42_queue_remove.md R150, R151; spec/40_queue_common.md R109). -/

namespace Sys2Proof.Machine

/-! ## Between step A and step B -/

theorem stepB_completes {p : Pending} {s t : State} (h : completeHeld p s = .ok t) : stepB p s = .next t.release := by
  simp only [stepB, h]

theorem release_setCC (s : State) (n z v c : Bool) : (s.setCC n z v c).release = s.release.setCC n z v c := rfl

theorem release_afterDest (s : State) (d : Dest) (x : Word) : (s.afterDest d x).release = s.release.afterDest d x := by
  cases d <;> rfl

/-- The first element that forward links reach is one of those that `apart` is asked about. -/
theorem selfApart.head {m : Memory} {h x : Word} {apart : Word → Bool} (k : selfApart m h x apart)
    (ha : aligned8 x = true) (hn : x ≠ h) : apart x = true :=
  k 1 x (by simp [Machine.selfEntries, ha, hn])

/-- The walk between step A and step B meets the elements it met before step A. -/
theorem Between.selfApart {t v : State} {h f x : Word} {apart : Word → Bool} (m : Between t v h f)
    (ha : aligned8 h = true) (k : Machine.selfApart t.mem h x apart) : ∀ y ∈ v.selfEntries h x, apart y = true := by
  intro y hy
  rw [State.selfEntries, m.mem, selfEntries_write4_header _ ha] at hy
  exact k _ y hy

/-! ## The memory each leaves -/

/-- The stores of INSQHI in their order, the interlock's first (R130). -/
def headInserted (m : Memory) (h f e : Word) : Memory :=
  ((((m.write4 h (f ||| 1)).write4 e (h + f - e)).write4 (e + 4) (h - e)).write4 (h + f + 4) (e - (h + f))).write4 h
    (e - h)

/-- The stores of INSQTI up to the header's backward link (R131). -/
def tailLinked (m : Memory) (h f back e : Word) : Memory :=
  ((((m.write4 h (f ||| 1)).write4 e (h - e)).write4 (e + 4) (h + back - e)).write4 (h + back) (e - (h + back))).write4
    (h + 4) (e - h)

/-- The stores of INSQTI, the last of which releases the interlock (R131). -/
def tailInserted (m : Memory) (h f back e : Word) : Memory :=
  if h + back = h then tailLinked m h f back e else (tailLinked m h f back e).write4 h f

/-- The stores of REMQHI to its queue (R150). -/
def headRemoved (m : Memory) (h f link : Word) : Memory :=
  ((m.write4 h (f ||| 1)).write4 (h + f + link + 4) (h - (h + f + link))).write4 h (h + f + link - h)

/-- The stores of REMQTI up to the header's backward link (R151). -/
def tailUnlinked (m : Memory) (h f back link : Word) : Memory :=
  ((m.write4 h (f ||| 1)).write4 (h + back + link) (h - (h + back + link))).write4 (h + 4) (h + back + link - h)

/-- The stores of REMQTI to its queue, the last of which releases the interlock (R151). -/
def tailRemoved (m : Memory) (h f back link : Word) : Memory :=
  if h + back + link = h then tailUnlinked m h f back link else (tailUnlinked m h f back link).write4 h f

/-! ## Insertions -/

section
variable {a b : Specifier} {s t : State} {e h f : Word}

/-- An insertion with no condition has an aligned header and an aligned entry beside it, and finds an aligned link. -/
theorem insertion_aligned (hi : interlockSet f = false) (hn : ∀ x, ¬ InsertionCondition s e h f x) :
    aligned8 h = true ∧ aligned8 e = true ∧ aligned8 f = true ∧ elementsApart e h = true := by
  obtain ⟨hE, hl⟩ := insertionConditions_of_none hn
  obtain ⟨-, hea, hh, hne⟩ := insertionConditions_nil.1 hE
  exact ⟨hh, hea, aligned_of_clear hi hl, elementsApart_of_aligned hea hh hne⟩

/-- Phase 2 of an insertion by a processor that is alone. -/
theorem Evaluates.acquireInsertion {l : List Reg} {n : Nat} (ev : Evaluates l n s t) (ho : s.others = [])
    (ph : s.probe h 8 .write = none) (hf : s.mem.read4 h = some f) (hi : interlockSet f = false)
    (hn : ∀ x, ¬ InsertionCondition s e h f x) (links : Word → List Exception) :
    Machine.acquire h (Machine.insertionConditions e h t) links t = .ok (some f, t) := by
  obtain ⟨hE, hl⟩ := insertionConditions_of_none hn
  exact ev.acquire ho ph hf hi hl ((ev.insertionConditions ..).trans hE)

/-- INSQHI where it completes: the memory in the order of its stores, the interlock's the first (R130). -/
theorem exec_insqhi_alone (hp : s.cpu.pending = none) (ho : s.others = [])
    (he : evalInsertion .quad a b s = .ok (e, h, t)) (hf : s.mem.read4 h = some f) (hi : interlockSet f = false)
    (hn : ∀ x, ¬ InsertionCondition s e h f x) (ph : s.probe h 8 .write = none)
    (pq : s.probe (h + f + 4) 4 .write = none) (hc : consistentHeader s h f = true)
    (hs : selfApart s.mem h (h + f) (elementsApart e)) (hw : s.writable [e, e + 4, h + f + 4, h] = true) :
    exec (.insqhi a b) s = .next (State.setCC { t with mem := headInserted s.mem h f e } false (decide (f = 0))
      false false) := by
  have ev := (evalInsertion_ok he).1
  obtain ⟨hh, hea, hfa, heh⟩ := insertion_aligned hi hn
  have ha := ev.isAlone ho
  have hft : t.mem.read4 h = some f := ev.mem ▸ hf
  have ht : t.inText h 4 = false := by
    simp only [State.writable, List.all_cons, Bool.and_eq_true, Bool.not_eq_true'] at hw
    exact (ev.inText ..).trans hw.2.2.2.1
  rw [exec_insqhi hp he, acquireInsqhi_clear (ev.acquireInsertion ho ph hf hi hn), ev.consistentHeader, if_pos hc]
  obtain ⟨v, hv, m⟩ := afterStepA_hold (start := s) (op := .insqhi e) (f := f) ha ht
  have apart : entryApart e h f (h + f) v = true := by
    refine entryApart_iff.2 ⟨?_, heh, m.selfApart hh (ev.mem ▸ hs)⟩
    by_cases hb : h + f = h
    · rwa [hb]
    · exact hs.head (aligned_add hh hfa) hb
  have hZ : (h + f - e == h - e) = decide (f = 0) := by
    rw [Bool.eq_iff_iff, beq_iff_eq, decide_eq_true_iff]
    constructor <;> intro _ <;> bv_omega
  have hB := completeInsqhi_alone (m.alone ha) ((m.probe hft ..).trans ((ev.probe ..).trans pq)) apart
    ((m.writable _).trans ((ev.writable _).trans hw))
  rw [hv, stepB_completes (p := ⟨.insqhi e, h, f, s.cpu.regs⟩) hB, release_setCC, m.release (ev.pending.trans hp), hZ,
    m.mem, ev.mem, headInserted]

/-- INSQTI where it completes (R131). -/
theorem exec_insqti_alone {back : Word} (hp : s.cpu.pending = none) (ho : s.others = [])
    (he : evalInsertion .quad a b s = .ok (e, h, t)) (hf : s.mem.read4 h = some f) (hi : interlockSet f = false)
    (hn : ∀ x, ¬ InsertionCondition s e h f x) (hb : s.mem.read4 (h + 4) = some back) (hba : aligned8 back = true)
    (hc : f = 0 ↔ back = 0) (ph : s.probe h 8 .write = none) (pq : s.probe (h + back) 4 .write = none)
    (hne : e ≠ h + back) (hs : selfApart s.mem h (h + f) (elementsApart e))
    (hw : s.writable [e, e + 4, h + back, h, h + 4] = true) :
    exec (.insqti a b) s = .next (State.setCC { t with mem := tailInserted s.mem h f back e } false
      (decide (back = 0)) false false) := by
  have ev := (evalInsertion_ok he).1
  obtain ⟨hh, hea, -, heh⟩ := insertion_aligned hi hn
  have ha := ev.isAlone ho
  have hft : t.mem.read4 h = some f := ev.mem ▸ hf
  have ht : t.inText h 4 = false := by
    simp only [State.writable, List.all_cons, Bool.and_eq_true, Bool.not_eq_true'] at hw
    exact (ev.inText ..).trans hw.2.2.2.1
  rw [exec_insqti hp he, acquireInsqti_clear (ev.acquireInsertion ho ph hf hi hn)]
  obtain ⟨v, hv, m⟩ := afterStepA_hold (start := s) (op := .insqti e) (f := f) ha ht
  have hbv : v.mem.read4 (h + 4) = some back := by rw [m.read4 (link_links_apart h), ev.mem, hb]
  have apart : entryApart e h f (h + back) v = true :=
    entryApart_iff.2 ⟨elementsApart_of_aligned hea (aligned_add hh hba) hne, heh, m.selfApart hh (ev.mem ▸ hs)⟩
  have hZ : (h - e == h + back - e) = decide (back = 0) := by
    rw [Bool.eq_iff_iff, beq_iff_eq, decide_eq_true_iff]
    constructor <;> intro _ <;> bv_omega
  have hB := completeInsqti_alone (m.alone ha) hbv hba ((m.probe hft ..).trans ((ev.probe ..).trans pq)) hc apart
    ((m.writable _).trans ((ev.writable _).trans hw))
  rw [hv, stepB_completes (p := ⟨.insqti e, h, f, s.cpu.regs⟩) hB, release_setCC, m.release (ev.pending.trans hp), hZ,
    m.mem, ev.mem, tailInserted, tailLinked]

end

/-! ## Removals -/

section
variable {a b : Specifier} {s t : State} {h f link : Word} {d : Dest}

/-- A removal with no condition has an aligned header and finds an aligned link. -/
theorem removal_aligned (hi : interlockSet f = false) (hn : ∀ x, ¬ RemovalCondition s h d f x) :
    aligned8 h = true ∧ aligned8 f = true := by
  obtain ⟨hE, hl⟩ := removalConditions_of_none hn
  exact ⟨(removalConditions_nil.1 hE).2.1, aligned_of_clear hi hl⟩

/-- Phase 2 of a removal by a processor that is alone. -/
theorem Evaluates.acquireRemoval {l : List Reg} {n : Nat} (ev : Evaluates l n s t) (ho : s.others = [])
    (ph : s.probe h 8 .write = none) (hf : s.mem.read4 h = some f) (hi : interlockSet f = false)
    (hn : ∀ x, ¬ RemovalCondition s h d f x) (links : Word → List Exception) :
    Machine.acquire h (Machine.removalConditions h d t) links t = .ok (some f, t) := by
  obtain ⟨hE, hl⟩ := removalConditions_of_none hn
  exact ev.acquire ho ph hf hi hl ((ev.removalConditions ..).trans hE)

/-- REMQHI where it removes an entry (R150). -/
theorem exec_remqhi_alone (hp : s.cpu.pending = none) (ho : s.others = [])
    (he : evalRemoval .quad a b s = .ok (h, d, t)) (hf : s.mem.read4 h = some f) (hi : interlockSet f = false)
    (hn : ∀ x, ¬ RemovalCondition s h d f x) (h0 : f ≠ 0) (hl : s.mem.read4 (h + f) = some link)
    (hla : aligned8 link = true) (hl0 : link ≠ 0) (ph : s.probe h 8 .write = none)
    (pe : s.probe (h + f) 4 .read = none) (pq : s.probe (h + f + link + 4) 4 .write = none)
    (hc : consistentHeader s h f = true) (dh : d.apart h = true) (dq : d.apart (h + f + link) = true)
    (ds : selfApart s.mem h (h + f) d.apart) (hd : s.acceptsDest d = true)
    (hw : s.writable [h, h + f + link + 4] = true) :
    exec (.remqhi a b) s = .next ((State.afterDest { t with mem := headRemoved s.mem h f link } d (h + f)).setCC
      false (decide (f + link = 0)) false false) := by
  have ev := (evalRemoval_ok he).1
  obtain ⟨hh, hfa⟩ := removal_aligned hi hn
  have hea := aligned_add hh hfa
  have hne : h + f ≠ h := by bv_omega
  have ha := ev.isAlone ho
  have hft : t.mem.read4 h = some f := ev.mem ▸ hf
  have ht : t.inText h 4 = false := by
    simp only [State.writable, List.all_cons, Bool.and_eq_true, Bool.not_eq_true'] at hw
    exact (ev.inText ..).trans hw.1
  rw [exec_remqhi hp he, acquireRemqhi_clear (ev.acquireRemoval ho ph hf hi hn), ev.consistentHeader, if_pos hc,
    if_neg h0]
  obtain ⟨v, hv, m⟩ := afterStepA_hold (start := s) (op := .remqhi d) (f := f) ha ht
  have hlv : v.mem.read4 (h + f) = some link := by rw [m.read4 (aligned_apart hh hea hne).1, ev.mem, hl]
  have apart : destApart d h f [h + f, h + f + link] v = true :=
    destApart_iff.2 ⟨dh, by simp [ds.head hea hne, dq], m.selfApart hh (ev.mem ▸ ds)⟩
  have hes : elementsApart (h + f) (h + f + link) = true :=
    elementsApart_of_aligned hea (aligned_add hea hla) (by bv_omega)
  have hZ : (h + f + link - h == 0) = decide (f + link = 0) := by
    rw [Bool.eq_iff_iff, beq_iff_eq, decide_eq_true_iff]
    constructor <;> intro _ <;> bv_omega
  have pr : ∀ x n k, v.probe x n k = s.probe x n k := fun x n k => (m.probe hft x n k).trans (ev.probe x n k)
  have hB := completeRemqhi_alone (m.alone ha) ((pr ..).trans pe) hlv hla ((pr ..).trans pq) hes apart
    ((m.acceptsDest hft d).trans ((ev.acceptsDest d).trans hd)) ((m.writable _).trans ((ev.writable _).trans hw))
  rw [hv, stepB_completes (p := ⟨.remqhi d, h, f, s.cpu.regs⟩) hB, release_setCC, release_afterDest,
    m.release (ev.pending.trans hp), hZ, m.mem, ev.mem, headRemoved]

/-- REMQTI where it removes an entry (R151). -/
theorem exec_remqti_alone {back : Word} (hp : s.cpu.pending = none) (ho : s.others = [])
    (he : evalRemoval .quad a b s = .ok (h, d, t)) (hf : s.mem.read4 h = some f) (hi : interlockSet f = false)
    (hn : ∀ x, ¬ RemovalCondition s h d f x) (h0 : f ≠ 0) (hb : s.mem.read4 (h + 4) = some back)
    (hba : aligned8 back = true) (hb0 : back ≠ 0) (hl : s.mem.read4 (h + back + 4) = some link)
    (hla : aligned8 link = true) (hl0 : link ≠ 0) (ph : s.probe h 8 .write = none)
    (pe : s.probe (h + back + 4) 4 .read = none) (pq : s.probe (h + back + link) 4 .write = none)
    (dh : d.apart h = true) (de : d.apart (h + back) = true) (dq : d.apart (h + back + link) = true)
    (ds : selfApart s.mem h (h + f) d.apart) (hd : s.acceptsDest d = true)
    (hw : s.writable [h, h + 4, h + back + link] = true) :
    exec (.remqti a b) s = .next ((State.afterDest { t with mem := tailRemoved s.mem h f back link } d
      (h + back)).setCC false (decide (back + link = 0)) false false) := by
  have ev := (evalRemoval_ok he).1
  obtain ⟨hh, hfa⟩ := removal_aligned hi hn
  have hea := aligned_add hh hba
  have ha := ev.isAlone ho
  have hft : t.mem.read4 h = some f := ev.mem ▸ hf
  have ht : t.inText h 4 = false := by
    simp only [State.writable, List.all_cons, Bool.and_eq_true, Bool.not_eq_true'] at hw
    exact (ev.inText ..).trans hw.1
  rw [exec_remqti hp he, (acquireRemqti_clear (ev.acquireRemoval ho ph hf hi hn)
    (load_alone ha (some h) (ev.mem ▸ hb))).1 hba, if_pos (iff_of_false h0 hb0), if_neg h0]
  obtain ⟨v, hv, m⟩ := afterStepA_hold (start := s) (op := .remqti d back) (f := f) ha ht
  have hlv : v.mem.read4 (h + back + 4) = some link := by
    rw [m.read4 (aligned_second_apart hh hea), ev.mem, hl]
  have apart : destApart d h f [h + back, h + back + link] v = true :=
    destApart_iff.2 ⟨dh, by simp [de, dq], m.selfApart hh (ev.mem ▸ ds)⟩
  have hes : elementsApart (h + back) (h + back + link) = true :=
    elementsApart_of_aligned hea (aligned_add hea hla) (by bv_omega)
  have hZ : (h + back + link - h == 0) = decide (back + link = 0) := by
    rw [Bool.eq_iff_iff, beq_iff_eq, decide_eq_true_iff]
    constructor <;> intro _ <;> bv_omega
  have pr : ∀ x n k, v.probe x n k = s.probe x n k := fun x n k => (m.probe hft x n k).trans (ev.probe x n k)
  have hB := completeRemqti_alone (forward := f) (m.alone ha) ((pr ..).trans pe) hlv hla ((pr ..).trans pq) hes apart
    ((m.acceptsDest hft d).trans ((ev.acceptsDest d).trans hd)) ((m.writable _).trans ((ev.writable _).trans hw))
  rw [hv, stepB_completes (p := ⟨.remqti d back, h, f, s.cpu.regs⟩) hB, release_setCC, release_afterDest,
    m.release (ev.pending.trans hp), hZ, m.mem, ev.mem, tailRemoved, tailUnlinked]

end

end Sys2Proof.Machine
end

section
/-! Rings of linked elements, self-relative and absolute alike (spec/40_queue_common.md R100 to R103): what the links
read as after stores to some of them, and that a ring in which one link is cut and joined again is a ring. -/

namespace Sys2Proof.Machine

/-! ## A queue as a chain that ends where it begins -/

/-- The link of a self-relative element to another (R100). -/
def displacement (x y : Word) : Word := y - x

/-- The link of an absolute element to another (R102). -/
def address (_ y : Word) : Word := y

/-- `y` follows `x`, where `g` says what the link of an element to another holds. -/
def Linked (g : Word → Word → Word) (m : Memory) (x y : Word) : Prop :=
  m.read4 x = some (g x y) ∧ m.read4 (y + 4) = some (g y x)

theorem selfChain_iff_isChain {m : Memory} {z x : Word} {L : List Word} :
    selfChain m z x L = true ↔ (x :: (L ++ [z])).IsChain (Linked displacement m) := by
  induction L generalizing x with
  | nil =>
    rw [List.nil_append, List.isChain_pair]
    exact selfLinked_iff
  | cons y ys ih =>
    rw [selfChain, Bool.and_eq_true, selfLinked_iff, ih, List.cons_append, List.isChain_cons_cons]
    rfl

theorem absChain_iff_isChain {m : Memory} {z x : Word} {L : List Word} :
    absChain m z x L = true ↔ (x :: (L ++ [z])).IsChain (Linked address m) := by
  induction L generalizing x with
  | nil =>
    rw [List.nil_append, List.isChain_pair]
    exact absLinked_iff
  | cons y ys ih =>
    rw [absChain, Bool.and_eq_true, absLinked_iff, ih, List.cons_append, List.isChain_cons_cons]
    rfl

/-- The header and the first element after it: the ring from its second element on. -/
theorem append_singleton_eq_headD_cons (L : List Word) (h : Word) : L ++ [h] = L.headD h :: (L ++ [h]).tail := by
  cases L <;> rfl

/-- The header and the entries `L`, as what stands before their last element and that one, before `R`. -/
theorem dropLast_append_getLastD_cons (h : Word) (L R : List Word) :
    (h :: L).dropLast ++ L.getLastD h :: R = h :: (L ++ R) := by
  obtain rfl | ⟨xs, x, rfl⟩ := List.eq_nil_or_concat L
  · rfl
  · rw [List.concat_eq_append, ← List.cons_append, List.dropLast_concat, List.getLastD_concat]
    simp

/-! ## Cutting and joining -/

/-- Of the elements `E`, every forward link but that of `x` and every backward link but that of `y` reads as before. -/
structure KeepsLinks (m m' : Memory) (E : List Word) (x y : Word) : Prop where
  forward : ∀ w ∈ E, w ≠ x → m'.read4 w = m.read4 w
  backward : ∀ w ∈ E, w ≠ y → m'.read4 (w + 4) = m.read4 (w + 4)

/-- `e` has been linked in between the elements `x` and `y` of `E`. -/
structure Inserts (g : Word → Word → Word) (m m' : Memory) (E : List Word) (x e y : Word) : Prop where
  keeps : KeepsLinks m m' E x y
  before : Linked g m' x e
  after : Linked g m' e y

/-- The elements `x` and `y` of `E` have been linked to each other. -/
structure Joins (g : Word → Word → Word) (m m' : Memory) (E : List Word) (x y : Word) : Prop where
  keeps : KeepsLinks m m' E x y
  link : Linked g m' x y

/-- A chain stands in a memory that reads alike at its links. -/
theorem isChain_of_kept {g : Word → Word → Word} {m m' : Memory} {l : List Word}
    (c : l.IsChain (Linked g m)) (hf : ∀ w ∈ l.dropLast, m'.read4 w = m.read4 w)
    (hb : ∀ w ∈ l.tail, m'.read4 (w + 4) = m.read4 (w + 4)) : l.IsChain (Linked g m') := by
  rw [List.isChain_iff_forall₂, List.forall₂_iff_zip] at c ⊢
  refine ⟨c.1, fun {a b} hab => ?_⟩
  obtain ⟨ha, hb'⟩ := List.of_mem_zip hab
  rw [Linked, hf a ha, hb b hb']
  exact c.2 hab

section
variable {g : Word → Word → Word} {m m' : Memory} {h x e y : Word} {L L' P M Q : List Word}

/-- What stands of a ring whose links from `x` to `y` have been cut: the chain up to `x` and the chain from `y` on. -/
theorem ring_cut (hr : h :: (L ++ [h]) = P ++ x :: (M ++ y :: Q)) (hn : (h :: L).Nodup)
    (c : (h :: (L ++ [h])).IsChain (Linked g m)) (k : KeepsLinks m m' (h :: L) x y) :
    (P ++ [x]).IsChain (Linked g m') ∧ (y :: Q).IsChain (Linked g m') := by
  have hE : ∀ w ∈ P ++ x :: (M ++ y :: Q), w ∈ h :: L := fun w hw => by
    rw [← hr] at hw
    simpa [or_comm, or_assoc] using hw
  have hd : (P ++ x :: (M ++ (y :: Q).dropLast)).Nodup := by
    have : (P ++ x :: (M ++ y :: Q)).dropLast = P ++ x :: (M ++ (y :: Q).dropLast) := by
      simp [List.dropLast_append_of_ne_nil, List.dropLast_cons_of_ne_nil]
    rw [← this, ← hr, ← List.cons_append, List.dropLast_concat]
    exact hn
  have ht : ((P ++ [x]).tail ++ (M ++ y :: Q)).Nodup := by
    have : (P ++ x :: (M ++ y :: Q)).tail = (P ++ [x]).tail ++ (M ++ y :: Q) := by
      cases P <;> simp
    rw [← this, ← hr, List.tail_cons]
    exact (List.perm_append_singleton h L).nodup_iff.2 hn
  rw [hr] at c
  have cP := (List.isChain_split.1 c).1
  have cQ : (y :: Q).IsChain (Linked g m) := by
    have := (List.isChain_split.1 c).2
    rw [← List.cons_append] at this
    exact this.right_of_append
  obtain ⟨-, hx, hP⟩ := List.nodup_append.1 hd
  obtain ⟨-, hy, hT⟩ := List.nodup_append.1 ht
  have hx' : x ∉ (y :: Q).dropLast := fun hm => (List.nodup_cons.1 hx).1 (List.mem_append_right M hm)
  have hy' : y ∉ Q := (List.nodup_cons.1 (List.nodup_append.1 hy).2.1).1
  refine ⟨isChain_of_kept cP (fun w hw => ?_) fun w hw => ?_, isChain_of_kept cQ (fun w hw => ?_) fun w hw => ?_⟩
  · rw [List.dropLast_concat] at hw
    exact k.forward w (hE w (List.mem_append_left _ hw)) (hP w hw x (List.mem_cons_self ..))
  · have hm : w ∈ P ++ [x] := List.mem_of_mem_tail hw
    exact k.backward w (hE w (by simp at hm ⊢; tauto)) (hT w hw y (by simp))
  · have hm : w ∈ y :: Q := List.mem_of_mem_dropLast hw
    exact k.forward w (hE w (by simp at hm ⊢; tauto)) fun e => hx' (e ▸ hw)
  · exact k.backward w (hE w (by simp at hw ⊢; tauto)) fun e => hy' (e ▸ hw)

/-- A ring into which an element has been linked (R130 to R132). -/
theorem ring_insert (hr : h :: (L ++ [h]) = P ++ x :: y :: Q) (hn : (h :: L).Nodup)
    (c : (h :: (L ++ [h])).IsChain (Linked g m)) (i : Inserts g m m' (h :: L) x e y) :
    (P ++ x :: e :: y :: Q).IsChain (Linked g m') := by
  obtain ⟨cP, cQ⟩ := ring_cut (M := []) hr hn c i.keeps
  exact List.isChain_append_cons_cons.2 ⟨cP, i.before, List.isChain_cons_cons.2 ⟨i.after, cQ⟩⟩

/-- A ring out of which an element has been taken (R150 to R152). -/
theorem ring_remove (hr : h :: (L ++ [h]) = P ++ x :: e :: y :: Q) (hn : (h :: L).Nodup)
    (c : (h :: (L ++ [h])).IsChain (Linked g m)) (j : Joins g m m' (h :: L) x y) :
    (P ++ x :: y :: Q).IsChain (Linked g m') := by
  obtain ⟨cP, cQ⟩ := ring_cut (M := [e]) hr hn c j.keeps
  exact List.isChain_append_cons_cons.2 ⟨cP, j.link, cQ⟩

/-- The elements of a ring with `e` between two of them are its elements and `e`. -/
theorem ring_perm (hr : h :: (L ++ [h]) = P ++ x :: y :: Q) (hr' : h :: (L' ++ [h]) = P ++ x :: e :: y :: Q) :
    (h :: L').Perm (e :: h :: L) := by
  refine (List.perm_append_right_iff [h]).1 ?_
  have hp : (P ++ x :: e :: y :: Q).Perm (e :: (P ++ x :: y :: Q)) := by
    simpa using List.perm_middle (a := e) (l₁ := P ++ [x]) (l₂ := y :: Q)
  rwa [← hr, ← hr', ← List.cons_append, ← List.cons_append, ← List.cons_append] at hp

end

/-! ## Well-formed queues -/

section
variable {m m' : Memory} {h x e y : Word} {L L' P Q : List Word}

theorem Inserts.srQueue (i : Inserts displacement m m' (h :: L) x e y) (hq : SRQueue m h L = true)
    (hr : h :: (L ++ [h]) = P ++ x :: y :: Q) (hr' : h :: (L' ++ [h]) = P ++ x :: e :: y :: Q)
    (he : aligned8 e = true) (hn : e ∉ h :: L) : SRQueue m' h L' = true := by
  obtain ⟨ha, hd, hc⟩ := srQueue_iff.1 hq
  have perm := ring_perm hr hr'
  refine srQueue_iff.2 ⟨fun w hw => ?_, perm.nodup_iff.2 (List.nodup_cons.2 ⟨hn, hd⟩), ?_⟩
  · obtain rfl | hw := List.mem_cons.1 (perm.mem_iff.1 hw)
    · exact he
    · exact ha w hw
  · rw [selfChain_iff_isChain, hr']
    exact ring_insert hr hd (selfChain_iff_isChain.1 hc) i

theorem Joins.srQueue (j : Joins displacement m m' (h :: L) x y) (hq : SRQueue m h L = true)
    (hr : h :: (L ++ [h]) = P ++ x :: e :: y :: Q) (hr' : h :: (L' ++ [h]) = P ++ x :: y :: Q) :
    SRQueue m' h L' = true := by
  obtain ⟨ha, hd, hc⟩ := srQueue_iff.1 hq
  have perm := ring_perm hr' hr
  refine srQueue_iff.2 ⟨fun w hw => ha w (perm.mem_iff.2 (List.mem_cons_of_mem _ hw)),
    (List.nodup_cons.1 (perm.nodup_iff.1 hd)).2, ?_⟩
  rw [selfChain_iff_isChain, hr']
  exact ring_remove hr hd (selfChain_iff_isChain.1 hc) j

theorem Inserts.absQueue (i : Inserts address m m' (h :: L) x e y) (hq : AbsQueue m h L = true)
    (hr : h :: (L ++ [h]) = P ++ x :: y :: Q) (hr' : h :: (L' ++ [h]) = P ++ x :: e :: y :: Q)
    (he : ∀ w ∈ h :: L, elementsApart e w = true) : AbsQueue m' h L' = true := by
  obtain ⟨hp, hc⟩ := absQueue_iff.1 hq
  have hp' := ((ring_perm hr hr').pairwise_iff fun {a b} hab => elementsApart_comm a b ▸ hab).2 (hp.cons he)
  refine absQueue_iff.2 ⟨hp', ?_⟩
  rw [absChain_iff_isChain, hr']
  exact ring_insert hr (absQueue_nodup hq) (absChain_iff_isChain.1 hc) i

theorem Joins.absQueue (j : Joins address m m' (h :: L) x y) (hq : AbsQueue m h L = true)
    (hr : h :: (L ++ [h]) = P ++ x :: e :: y :: Q) (hr' : h :: (L' ++ [h]) = P ++ x :: y :: Q) :
    AbsQueue m' h L' = true := by
  obtain ⟨hp, hc⟩ := absQueue_iff.1 hq
  have hp' := ((ring_perm hr' hr).pairwise_iff fun {a b} hab => elementsApart_comm a b ▸ hab).1 hp
  refine absQueue_iff.2 ⟨hp'.of_cons, ?_⟩
  rw [absChain_iff_isChain, hr']
  exact ring_remove hr (absQueue_nodup hq) (absChain_iff_isChain.1 hc) j

end

/-! ## What links read as after stores to links -/

/-- Two elements of `E` are one or share no byte (R44, R103). -/
def Tidy (E : List Word) : Prop := ∀ a ∈ E, ∀ b ∈ E, a = b ∨ elementsApart a b = true

theorem tidy_of_aligned {E : List Word} (h : ∀ x ∈ E, aligned8 x = true) : Tidy E := fun a ha b hb =>
  (eq_or_ne a b).imp_right (elementsApart_of_aligned (h a ha) (h b hb))

/-- The forward and the backward links of the elements `E`. -/
structure LinksAre (m : Memory) (E : List Word) (F B : Word → Option Word) : Prop where
  forward : ∀ w ∈ E, m.read4 w = F w
  backward : ∀ w ∈ E, m.read4 (w + 4) = B w

theorem linksAre_self (m : Memory) (E : List Word) : LinksAre m E m.read4 fun w => m.read4 (w + 4) :=
  ⟨fun _ _ => rfl, fun _ _ => rfl⟩

section
variable {m : Memory} {E : List Word} {F B : Word → Option Word} {a : Word}

/-- A store to a forward link changes that one. -/
theorem LinksAre.storeForward (l : LinksAre m E F B) (t : Tidy E) (ha : a ∈ E) (v : Word) :
    LinksAre (m.write4 a v) E (Function.update F a (some v)) B := by
  refine ⟨fun w hw => ?_, fun w hw => ?_⟩
  · by_cases h : w = a
    · subst h
      rw [read4_write4_same, Function.update_self]
    · rw [read4_write4_apart _ _ (links_apart ((t a ha w hw).resolve_left (Ne.symm h))).1, Function.update_of_ne h,
        l.forward w hw]
  · have apart : overlaps a 4 (w + 4) 4 = false := by
      obtain rfl | h := t a ha w hw
      · exact link_links_apart a
      · exact (links_apart h).2.1
    rw [read4_write4_apart _ _ apart, l.backward w hw]

/-- A store to a backward link changes that one. -/
theorem LinksAre.storeBackward (l : LinksAre m E F B) (t : Tidy E) (ha : a ∈ E) (v : Word) :
    LinksAre (m.write4 (a + 4) v) E F (Function.update B a (some v)) := by
  refine ⟨fun w hw => ?_, fun w hw => ?_⟩
  · have apart : overlaps (a + 4) 4 w 4 = false := by
      obtain rfl | h := t a ha w hw
      · rw [overlaps_comm]
        exact link_links_apart a
      · exact (links_apart h).2.2.1
    rw [read4_write4_apart _ _ apart, l.forward w hw]
  · by_cases h : w = a
    · subst h
      rw [read4_write4_same, Function.update_self]
    · rw [read4_write4_apart _ _ (links_apart ((t a ha w hw).resolve_left (Ne.symm h))).2.2.2,
        Function.update_of_ne h, l.backward w hw]

/-- Writing a destination that shares no byte with the elements changes no link. -/
theorem LinksAre.afterDest {s : State} {d : Dest} (l : LinksAre s.mem E F B) (hd : ∀ w ∈ E, d.apart w = true)
    (v : Word) : LinksAre (s.afterDest d v).mem E F B :=
  ⟨fun w hw => (afterDest_mem fun b hb => (dest_apart (hd w hw) b hb).1).trans (l.forward w hw),
    fun w hw => (afterDest_mem fun b hb => (dest_apart (hd w hw) b hb).2).trans (l.backward w hw)⟩

end

theorem afterDest_destValue (s : State) (d : Dest) (v : Word) : (s.afterDest d v).destValue d = some v := by
  cases d with
  | reg n => simp [State.afterDest, State.destValue]
  | mem a => simp [State.afterDest, State.destValue]

end Sys2Proof.Machine
end

section
/-! Self-relative queues stay well formed (spec/40_queue_common.md R101; spec/41_queue_insert.md R130, R131;
spec/42_queue_remove.md R150, R151): INSQHI and INSQTI link an entry in at the head and at the tail, REMQHI and REMQTI
take one out there. -/

namespace Sys2Proof.Machine

/-! ## What the stores make of the links -/

section
variable {g : Word → Word → Word} {m m' : Memory} {E : List Word} {F B : Word → Option Word} {x e y : Word}

theorem LinksAre.inserts (l : LinksAre m' (e :: E) F B) (hx : x ∈ E) (hy : y ∈ E) (fx : F x = some (g x e))
    (fe : F e = some (g e y)) (be : B e = some (g e x)) (by' : B y = some (g y e))
    (hF : ∀ w ∈ E, w ≠ x → F w = m.read4 w) (hB : ∀ w ∈ E, w ≠ y → B w = m.read4 (w + 4)) :
    Inserts g m m' E x e y where
  keeps.forward w hw hn := (l.forward w (List.mem_cons_of_mem _ hw)).trans (hF w hw hn)
  keeps.backward w hw hn := (l.backward w (List.mem_cons_of_mem _ hw)).trans (hB w hw hn)
  before := ⟨(l.forward x (List.mem_cons_of_mem _ hx)).trans fx, (l.backward e (List.mem_cons_self ..)).trans be⟩
  after := ⟨(l.forward e (List.mem_cons_self ..)).trans fe, (l.backward y (List.mem_cons_of_mem _ hy)).trans by'⟩

theorem LinksAre.joins (l : LinksAre m' E F B) (hx : x ∈ E) (hy : y ∈ E) (fx : F x = some (g x y))
    (by' : B y = some (g y x)) (hF : ∀ w ∈ E, w ≠ x → F w = m.read4 w)
    (hB : ∀ w ∈ E, w ≠ y → B w = m.read4 (w + 4)) : Joins g m m' E x y where
  keeps.forward w hw hn := (l.forward w hw).trans (hF w hw hn)
  keeps.backward w hw hn := (l.backward w hw).trans (hB w hw hn)
  link := ⟨(l.forward x hx).trans fx, (l.backward y hy).trans by'⟩

end

section
variable {m : Memory} {E : List Word} {h f e back link : Word}

theorem headInserted_inserts (t : Tidy (e :: E)) (he : e ∉ E) (hh : h ∈ E) (hs : h + f ∈ E) :
    Inserts displacement m (headInserted m h f e) E h e (h + f) := by
  have l := (((((linksAre_self m (e :: E)).storeForward t (List.mem_cons_of_mem _ hh) (f ||| 1)).storeForward t
    (List.mem_cons_self ..) (h + f - e)).storeBackward t (List.mem_cons_self ..) (h - e)).storeBackward t
    (List.mem_cons_of_mem _ hs) (e - (h + f))).storeForward t (List.mem_cons_of_mem _ hh) (e - h)
  have ne : ∀ w ∈ E, w ≠ e := fun w hw => ne_of_mem_of_not_mem hw he
  refine l.inserts hh hs ?_ ?_ ?_ ?_ (fun w hw hn => ?_) fun w hw hn => ?_
  · simp [displacement]
  · simp [displacement, Function.update_of_ne (ne h hh).symm]
  · simp [displacement, Function.update_of_ne (ne _ hs).symm]
  · simp [displacement]
  · simp [Function.update_of_ne hn, Function.update_of_ne (ne w hw)]
  · simp [Function.update_of_ne hn, Function.update_of_ne (ne w hw)]

theorem tailInserted_inserts (t : Tidy (e :: E)) (he : e ∉ E) (hh : h ∈ E) (hp : h + back ∈ E)
    (hf : m.read4 h = some f) : Inserts displacement m (tailInserted m h f back e) E (h + back) e h := by
  have l := (((((linksAre_self m (e :: E)).storeForward t (List.mem_cons_of_mem _ hh) (f ||| 1)).storeForward t
    (List.mem_cons_self ..) (h - e)).storeBackward t (List.mem_cons_self ..) (h + back - e)).storeForward t
    (List.mem_cons_of_mem _ hp) (e - (h + back))).storeBackward t (List.mem_cons_of_mem _ hh) (e - h)
  have ne : ∀ w ∈ E, w ≠ e := fun w hw => ne_of_mem_of_not_mem hw he
  rw [tailInserted, tailLinked]
  split
  case isTrue hx =>
    refine l.inserts hp hh ?_ ?_ ?_ ?_ (fun w hw hn => ?_) fun w hw hn => ?_
    · simp [displacement]
    · simp [displacement, Function.update_of_ne (ne _ hp).symm]
    · simp [displacement, Function.update_of_ne (ne h hh).symm]
    · simp [displacement]
    · simp [Function.update_of_ne hn, Function.update_of_ne (ne w hw), Function.update_of_ne (hx ▸ hn)]
    · simp [Function.update_of_ne hn, Function.update_of_ne (ne w hw)]
  case isFalse hx =>
    refine (l.storeForward t (List.mem_cons_of_mem _ hh) f).inserts hp hh ?_ ?_ ?_ ?_ (fun w hw hn => ?_)
      fun w hw hn => ?_
    · simp [displacement, Function.update_of_ne hx]
    · simp [displacement, Function.update_of_ne (ne _ hp).symm, Function.update_of_ne (ne h hh).symm]
    · simp [displacement, Function.update_of_ne (ne h hh).symm]
    · simp [displacement]
    · by_cases hw' : w = h
      · simp [hw', hf]
      · simp [Function.update_of_ne hn, Function.update_of_ne (ne w hw), Function.update_of_ne hw']
    · simp [Function.update_of_ne hn, Function.update_of_ne (ne w hw)]

theorem headRemoved_joins (t : Tidy E) (hh : h ∈ E) (hs : h + f + link ∈ E) :
    Joins displacement m (headRemoved m h f link) E h (h + f + link) := by
  have l := (((linksAre_self m E).storeForward t hh (f ||| 1)).storeBackward t hs (h - (h + f + link))).storeForward t
    hh (h + f + link - h)
  refine l.joins hh hs ?_ ?_ (fun w hw hn => ?_) fun w hw hn => ?_
  · simp [displacement]
  · simp [displacement]
  · simp [Function.update_of_ne hn]
  · simp [Function.update_of_ne hn]

theorem tailRemoved_joins (t : Tidy E) (hh : h ∈ E) (hp : h + back + link ∈ E) (hf : m.read4 h = some f) :
    Joins displacement m (tailRemoved m h f back link) E (h + back + link) h := by
  have l := (((linksAre_self m E).storeForward t hh (f ||| 1)).storeForward t hp
    (h - (h + back + link))).storeBackward t hh (h + back + link - h)
  rw [tailRemoved, tailUnlinked]
  split
  case isTrue hx =>
    refine l.joins hp hh ?_ ?_ (fun w hw hn => ?_) fun w hw hn => ?_
    · simp [displacement]
    · simp [displacement]
    · simp [Function.update_of_ne hn, Function.update_of_ne (hx ▸ hn)]
    · simp [Function.update_of_ne hn]
  case isFalse hx =>
    refine (l.storeForward t hh f).joins hp hh ?_ ?_ (fun w hw hn => ?_) fun w hw hn => ?_
    · simp [displacement, Function.update_of_ne hx]
    · simp [displacement]
    · by_cases hw' : w = h
      · simp [hw', hf]
      · simp [Function.update_of_ne hn, Function.update_of_ne hw']
    · simp [Function.update_of_ne hn]

end

/-- Writing a destination apart from the elements leaves them linked to each other. -/
theorem Joins.afterDest {g : Word → Word → Word} {m m' : Memory} {t : State} {E : List Word} {x y : Word} {d : Dest}
    (j : Joins g m m' E x y) (hx : x ∈ E) (hy : y ∈ E) (hd : ∀ w ∈ E, d.apart w = true) (v : Word) :
    Joins g m (State.afterDest { t with mem := m' } d v).mem E x y :=
  (LinksAre.afterDest (s := { t with mem := m' }) (linksAre_self m' E) hd v).joins hx hy j.link.1 j.link.2
    j.keeps.forward j.keeps.backward

theorem destValue_setCC (s : State) (n z v c : Bool) (d : Dest) : (s.setCC n z v c).destValue d = s.destValue d := by
  cases d <;> rfl

theorem afterDest_psl (s : State) (d : Dest) (v : Word) : (s.afterDest d v).cpu.psl = s.cpu.psl := by
  cases d <;> rfl

/-! ## The links of a well-formed self-relative queue -/

theorem headD_mem_cons (L : List Word) (h : Word) : L.headD h ∈ h :: L := by
  cases L <;> simp

theorem headD_mem_cons_cons (L : List Word) (h e : Word) : L.headD h ∈ h :: e :: L :=
  List.Sublist.mem (headD_mem_cons L h) ((List.sublist_cons_self e L).cons_cons h)

theorem getLastD_mem_cons_concat (L : List Word) (h e : Word) : L.getLastD h ∈ h :: (L ++ [e]) :=
  List.Sublist.mem List.getLastD_mem_cons ((List.sublist_append_left L [e]).cons_cons h)

theorem headD_eq_self_iff {L : List Word} {h : Word} (hn : h ∉ L) : L.headD h = h ↔ L = [] := by
  cases L with
  | nil => simp
  | cons x xs =>
    have hx : x ≠ h := (List.ne_of_not_mem_cons hn).symm
    simp [hx]

theorem getLastD_eq_self_iff {L : List Word} {h : Word} (hn : h ∉ L) : L.getLastD h = h ↔ L = [] := by
  obtain rfl | ⟨xs, x, rfl⟩ := List.eq_nil_or_concat L
  · simp
  · have hx : x ≠ h := by
      rintro rfl
      simp at hn
    simp [hx]

/-- The link of an aligned element to an aligned one (R100). -/
theorem displacement_aligned {x y link : Word} (h : x + link = y) (hx : aligned8 x = true) (hy : aligned8 y = true) :
    aligned8 link = true := by
  subst h
  simp only [aligned8, field, beq_iff_eq] at *
  bv_omega

/-- An aligned link has its interlock clear and its bits 2:1 zero (R104). -/
theorem clear_of_aligned {f : Word} (h : aligned8 f = true) : interlockSet f = false ∧ field f 1 2 = 0 := by
  simp only [interlockSet, field, aligned8, beq_eq_false_iff_ne, beq_iff_eq] at *
  omega

section
variable {m : Memory} {h e : Word} {L : List Word}

theorem SRQueue.exists_forward (hq : SRQueue m h L = true) : ∃ f, m.read4 h = some f ∧ h + f = L.headD h ∧
    aligned8 f = true ∧ (f = 0 ↔ L = []) := by
  obtain ⟨ha, -, -⟩ := srQueue_iff.1 hq
  obtain ⟨hf, -, h0, -⟩ := srQueue_links hq
  have hy := add_sub_cancel h (L.headD h)
  exact ⟨_, hf, hy, displacement_aligned hy (ha h (List.mem_cons_self ..)) (ha _ (headD_mem_cons L h)), h0⟩

theorem SRQueue.exists_backward (hq : SRQueue m h L = true) : ∃ back, m.read4 (h + 4) = some back ∧
    h + back = L.getLastD h ∧ aligned8 back = true ∧ (back = 0 ↔ L = []) := by
  obtain ⟨ha, -, -⟩ := srQueue_iff.1 hq
  obtain ⟨-, hb, -, h0⟩ := srQueue_links hq
  have hy := add_sub_cancel h (L.getLastD h)
  exact ⟨_, hb, hy, displacement_aligned hy (ha h (List.mem_cons_self ..)) (ha _ List.getLastD_mem_cons), h0⟩

/-- The link of the first entry to the element after it. -/
theorem SRQueue.exists_second (hq : SRQueue m h (e :: L) = true) : ∃ link, m.read4 e = some link ∧
    e + link = L.headD h ∧ aligned8 link = true ∧ e ≠ L.headD h := by
  obtain ⟨ha, hn, hc⟩ := srQueue_iff.1 hq
  rw [selfChain, Bool.and_eq_true] at hc
  have hy := add_sub_cancel e (L.headD h)
  have he : e ∉ h :: L := by simp at hn ⊢; tauto
  exact ⟨_, selfChain_forward hc.2, hy, displacement_aligned hy (ha e (by simp))
    (ha _ (headD_mem_cons_cons L h e)), (ne_of_mem_of_not_mem (headD_mem_cons L h) he).symm⟩

/-- The link of the last entry to the element before it. -/
theorem SRQueue.exists_last_but_one (hq : SRQueue m h (L ++ [e]) = true) : ∃ link, m.read4 (e + 4) = some link ∧
    e + link = L.getLastD h ∧ aligned8 link = true ∧ e ≠ L.getLastD h := by
  obtain ⟨ha, hn, hc⟩ := srQueue_iff.1 hq
  rw [selfChain_append, Bool.and_eq_true] at hc
  have hy := add_sub_cancel e (L.getLastD h)
  have he : e ∉ h :: L := by simp [List.nodup_append] at hn ⊢; tauto
  have hm : L.getLastD h ∈ h :: L := List.getLastD_mem_cons
  exact ⟨_, selfChain_backward hc.1, hy, displacement_aligned hy (ha e (by simp))
    (ha _ (getLastD_mem_cons_concat L h e)), (ne_of_mem_of_not_mem hm he).symm⟩

end

/-! ## Insertions -/

section
variable {s t : State} {m : Memory} {h e f back : Word} {L : List Word} {d : Dest}

/-- An insertion of an aligned entry that is no element finds no condition. -/
theorem SRQueue.no_insertionCondition (hq : SRQueue s.mem h L = true) (he : aligned8 e = true) (hn : e ∉ h :: L)
    (pe : s.probe e 8 .write = none) (hf : aligned8 f = true) (x : Exception) : ¬ InsertionCondition s e h f x :=
  Machine.no_insertionCondition (insertionConditions_nil.2 ⟨pe, he, (srQueue_iff.1 hq).1 h (List.mem_cons_self ..),
    fun he => hn (he ▸ List.mem_cons_self ..)⟩) (clear_of_aligned hf).2 x

theorem SRQueue.tidy_cons (hq : SRQueue m h L = true) (he : aligned8 e = true) : Tidy (e :: h :: L) :=
  tidy_of_aligned (List.forall_mem_cons.2 ⟨he, (srQueue_iff.1 hq).1⟩)

theorem SRQueue.elementsApart (hq : SRQueue m h L = true) (he : aligned8 e = true) (hn : e ∉ h :: L) :
    ∀ x ∈ L, elementsApart e x = true := fun x hx => elementsApart_of_aligned he
  ((srQueue_iff.1 hq).1 x (List.mem_cons_of_mem _ hx)) fun h => hn (h ▸ List.mem_cons_of_mem _ hx)

/-- INSQHI's stores put the entry in front (R130). -/
theorem SRQueue.headInserted (hq : SRQueue m h L = true) (he : aligned8 e = true) (hn : e ∉ h :: L)
    (hy : h + f = L.headD h) : SRQueue (headInserted m h f e) h (e :: L) = true := by
  have i := headInserted_inserts (m := m) (SRQueue.tidy_cons hq he) hn (List.mem_cons_self ..) (hy ▸ headD_mem_cons L h)
  rw [hy] at i
  refine i.srQueue (P := []) (Q := (L ++ [h]).tail) hq ?_ ?_ he hn
  · rw [List.nil_append, ← append_singleton_eq_headD_cons]
  · rw [List.nil_append, ← append_singleton_eq_headD_cons, List.cons_append]

/-- INSQTI's stores put the entry at the end (R131). -/
theorem SRQueue.tailInserted (hq : SRQueue m h L = true) (he : aligned8 e = true) (hn : e ∉ h :: L)
    (hf : m.read4 h = some f) (hy : h + back = L.getLastD h) :
    SRQueue (tailInserted m h f back e) h (L ++ [e]) = true := by
  have i := tailInserted_inserts (SRQueue.tidy_cons hq he) hn (List.mem_cons_self ..) (hy ▸ List.getLastD_mem_cons) hf
  rw [hy] at i
  refine i.srQueue (P := (h :: L).dropLast) (Q := []) hq ?_ ?_ he hn
  · rw [dropLast_append_getLastD_cons]
  · rw [dropLast_append_getLastD_cons, List.append_assoc]
    rfl

theorem decide_eq_isEmpty {p : Prop} [Decidable p] (h : p ↔ L = []) : decide p = L.isEmpty := by
  rw [Bool.eq_iff_iff, decide_eq_true_iff, List.isEmpty_iff, h]

/-- Settles O55: the entry is linked in between the header and the first element. -/
theorem insqhiPutsInFront : Obligations.InsqhiPutsInFront := by
  unfold Obligations.InsqhiPutsInFront
  intro a b s t e h L hp ho he hq hea hen pe ph pq hw
  obtain ⟨f, hf, hy, hfa, h0⟩ := SRQueue.exists_forward hq
  rw [← hy] at pq hw
  refine ⟨_, exec_insqhi_alone hp ho he hf (clear_of_aligned hfa).1 (SRQueue.no_insertionCondition hq hea hen pe hfa)
    ph pq (consistentHeader_of_queue hq hf) ?_ hw, ?_, ?_⟩
  · exact hy ▸ selfApart_of_queue hq (SRQueue.elementsApart hq hea hen)
  · simpa only [setCC_mem] using SRQueue.headInserted hq hea hen hy
  · rw [setCC_psl, (evalInsertion_ok he).1.psl, decide_eq_isEmpty h0]

/-- Settles O56: the entry is linked in between the last element and the header. -/
theorem insqtiPutsAtEnd : Obligations.InsqtiPutsAtEnd := by
  unfold Obligations.InsqtiPutsAtEnd
  intro a b s t e h L hp ho he hq hea hen pe ph pq hw
  obtain ⟨f, hf, hx, hfa, hf0⟩ := SRQueue.exists_forward hq
  obtain ⟨back, hb, hy, hba, hb0⟩ := SRQueue.exists_backward hq
  have hne : e ≠ h + back := fun hx => hen (hx ▸ hy ▸ List.getLastD_mem_cons)
  rw [← hy] at pq hw
  refine ⟨_, exec_insqti_alone hp ho he hf (clear_of_aligned hfa).1 (SRQueue.no_insertionCondition hq hea hen pe hfa)
    hb hba (hf0.trans hb0.symm) ph pq hne ?_ hw, ?_, ?_⟩
  · exact hx ▸ selfApart_of_queue hq (SRQueue.elementsApart hq hea hen)
  · simpa only [setCC_mem] using SRQueue.tailInserted hq hea hen hf hy
  · rw [setCC_psl, (evalInsertion_ok he).1.psl, decide_eq_isEmpty hb0]

end

/-! ## Removals -/

section
variable {s t : State} {m : Memory} {h e f back link : Word} {L : List Word} {d : Dest}

/-- A removal into a destination apart from the queue finds no condition. -/
theorem SRQueue.no_removalCondition (hq : SRQueue s.mem h L = true) (hd : d.apart h = true)
    (hw : s.acceptsDest d = true) (hf : aligned8 f = true) (x : Exception) : ¬ RemovalCondition s h d f x := by
  refine Machine.no_removalCondition (removalConditions_nil.2
    ⟨?_, (srQueue_iff.1 hq).1 h (List.mem_cons_self ..), ?_⟩) (clear_of_aligned hf).2 x
  · rintro a rfl
    exact (acceptsDest_mem.1 hw).1
  · rintro rfl
    simp [Dest.apart, overlaps] at hd

/-- REMQHI's stores take the first entry out (R150). -/
theorem SRQueue.headRemoved_joins (hq : SRQueue m h (e :: L) = true) (hy : h + f + link = L.headD h) :
    Joins displacement m (headRemoved m h f link) (h :: e :: L) h (L.headD h) := by
  have j := Machine.headRemoved_joins (m := m) (tidy_of_aligned (srQueue_iff.1 hq).1) (List.mem_cons_self ..)
    (hy ▸ headD_mem_cons_cons L h e)
  rwa [hy] at j

/-- REMQTI's stores take the last entry out (R151). -/
theorem SRQueue.tailRemoved_joins (hq : SRQueue m h (L ++ [e]) = true) (hf : m.read4 h = some f)
    (hy : h + back + link = L.getLastD h) :
    Joins displacement m (tailRemoved m h f back link) (h :: (L ++ [e])) (L.getLastD h) h := by
  have j := Machine.tailRemoved_joins (tidy_of_aligned (srQueue_iff.1 hq).1) (List.mem_cons_self ..)
    (hy ▸ getLastD_mem_cons_concat L h e) hf
  rwa [hy] at j

/-- The queue after its first entry has been taken out. -/
theorem Joins.srQueue_head {m' : Memory} (j : Joins displacement m m' (h :: e :: L) h (L.headD h))
    (hq : SRQueue m h (e :: L) = true) : SRQueue m' h L = true := by
  refine j.srQueue (P := []) (e := e) (Q := (L ++ [h]).tail) hq ?_ ?_
  · rw [List.nil_append, ← append_singleton_eq_headD_cons, List.cons_append]
  · rw [List.nil_append, ← append_singleton_eq_headD_cons]

/-- The queue after its last entry has been taken out. -/
theorem Joins.srQueue_last {m' : Memory} (j : Joins displacement m m' (h :: (L ++ [e])) (L.getLastD h) h)
    (hq : SRQueue m h (L ++ [e]) = true) : SRQueue m' h L = true := by
  refine j.srQueue (P := (h :: L).dropLast) (e := e) (Q := []) hq ?_ ?_
  · rw [dropLast_append_getLastD_cons, List.append_assoc]
    rfl
  · rw [dropLast_append_getLastD_cons]

/-- Settles O57: the header and the second element are linked to each other. -/
theorem remqhiTakesTheFirst : Obligations.RemqhiTakesTheFirst := by
  unfold Obligations.RemqhiTakesTheFirst
  intro a b s t h e L d hp ho he hq hd ph pe pq hw hs
  obtain ⟨hh, -⟩ := List.nodup_cons.1 (srQueue_iff.1 hq).2.1
  have dh := hd h (List.mem_cons_self ..)
  obtain ⟨f, hf, hx, hfa, hf0⟩ := SRQueue.exists_forward hq
  obtain rfl : h + f = e := hx
  obtain ⟨link, hl, hy, hla, hne⟩ := SRQueue.exists_second hq
  have hl0 : link ≠ 0 := by
    rintro rfl
    exact hne (by simpa using hy)
  have hz : f + link = 0 ↔ L = [] := by
    rw [← headD_eq_self_iff (h := h) fun hm => hh (List.mem_cons_of_mem _ hm), ← hy]
    constructor <;> intro _ <;> bv_omega
  have hm := headD_mem_cons_cons L h (h + f)
  have j := (SRQueue.headRemoved_joins hq hy).afterDest (t := t) (List.mem_cons_self ..) hm hd (h + f)
  refine ⟨_, exec_remqhi_alone hp ho he hf (clear_of_aligned hfa).1 (SRQueue.no_removalCondition hq dh hw hfa)
    (fun h0 => List.cons_ne_nil _ _ (hf0.1 h0)) hl hla hl0 ph pe (hy ▸ pq) (consistentHeader_of_queue hq hf) dh
    (hy ▸ hd _ hm) (selfApart_of_queue hq fun x hx => hd x (List.mem_cons_of_mem _ hx)) hw (hy ▸ hs),
    ?_, ?_, ?_, ?_, ?_⟩
  · simpa only [setCC_mem] using j.srQueue_head hq
  · rw [destValue_setCC, afterDest_destValue]
  · simpa only [setCC_mem] using j.keeps.forward (h + f) (by simp) fun hx => hh (by simp [hx])
  · simpa only [setCC_mem] using j.keeps.backward (h + f) (by simp) hne
  · rw [setCC_psl, afterDest_psl, (evalRemoval_ok he).1.psl, decide_eq_isEmpty hz]

/-- Settles O58: the last element but one and the header are linked to each other. -/
theorem remqtiTakesTheLast : Obligations.RemqtiTakesTheLast := by
  unfold Obligations.RemqtiTakesTheLast
  intro a b s t h e L d hp ho he hq hd ph pe pq hw hs
  replace hd : ∀ x ∈ h :: (L ++ [e]), d.apart x = true := fun x hx =>
    hd x (((List.perm_append_singleton e L).cons h).mem_iff.1 hx)
  obtain ⟨hh, -⟩ := List.nodup_cons.1 (srQueue_iff.1 hq).2.1
  have dh := hd h (List.mem_cons_self ..)
  obtain ⟨f, hf, hx, hfa, hf0⟩ := SRQueue.exists_forward hq
  obtain ⟨back, hb, hw', hba, hb0⟩ := SRQueue.exists_backward hq
  rw [List.getLastD_concat] at hw'
  subst hw'
  obtain ⟨link, hl, hy, hla, hne⟩ := SRQueue.exists_last_but_one hq
  have hl0 : link ≠ 0 := by
    rintro rfl
    exact hne (by simpa using hy)
  have hz : back + link = 0 ↔ L = [] := by
    rw [← getLastD_eq_self_iff (h := h) fun hm => hh (List.mem_append_left _ hm), ← hy]
    constructor <;> intro _ <;> bv_omega
  have nonempty : L ++ [h + back] ≠ [] := by simp
  have hm := getLastD_mem_cons_concat L h (h + back)
  have j := (SRQueue.tailRemoved_joins hq hf hy).afterDest (t := t) hm (List.mem_cons_self ..) hd (h + back)
  refine ⟨_, exec_remqti_alone hp ho he hf (clear_of_aligned hfa).1 (SRQueue.no_removalCondition hq dh hw hfa)
    (fun h0 => nonempty (hf0.1 h0)) hb hba (fun h0 => nonempty (hb0.1 h0)) hl hla hl0 ph pe (hy ▸ pq) dh
    (hd _ (by simp)) (hy ▸ hd _ hm) (hx ▸ selfApart_of_queue hq fun x hx => hd x (List.mem_cons_of_mem _ hx)) hw
    (hy ▸ hs), ?_, ?_, ?_, ?_, ?_⟩
  · simpa only [setCC_mem] using j.srQueue_last hq
  · rw [destValue_setCC, afterDest_destValue]
  · simpa only [setCC_mem] using j.keeps.forward (h + back) (by simp) hne
  · simpa only [setCC_mem] using j.keeps.backward (h + back) (by simp) fun hx => hh (by simp [hx])
  · rw [setCC_psl, afterDest_psl, (evalRemoval_ok he).1.psl, decide_eq_isEmpty hz]

end

end Sys2Proof.Machine
end

section
/-! Absolute queues stay well formed (spec/40_queue_common.md R103; spec/41_queue_insert.md R132;
spec/42_queue_remove.md R152): INSQUE links an entry in after an element, REMQUE takes one out. -/

namespace Sys2Proof.Machine

/-! ## What the stores make of the links -/

/-- The stores of INSQUE in their order (R132). -/
def linkedAfter (m : Memory) (p q e : Word) : Memory :=
  (((m.write4 e q).write4 (e + 4) p).write4 (q + 4) e).write4 p e

/-- The stores of REMQUE to its queue in their order (R152). -/
def neighboursLinked (m : Memory) (f b : Word) : Memory := (m.write4 b f).write4 (f + 4) b

section
variable {m : Memory} {E : List Word} {p q e f b : Word}

theorem linkedAfter_inserts (t : Tidy (e :: E)) (he : e ∉ E) (hp : p ∈ E) (hq : q ∈ E) :
    Inserts address m (linkedAfter m p q e) E p e q := by
  have l := ((((linksAre_self m (e :: E)).storeForward t (List.mem_cons_self ..) q).storeBackward t
    (List.mem_cons_self ..) p).storeBackward t (List.mem_cons_of_mem _ hq) e).storeForward t
    (List.mem_cons_of_mem _ hp) e
  have ne : ∀ w ∈ E, w ≠ e := fun w hw => ne_of_mem_of_not_mem hw he
  refine l.inserts hp hq ?_ ?_ ?_ ?_ (fun w hw hn => ?_) fun w hw hn => ?_
  · simp [address]
  · simp [address, Function.update_of_ne (ne p hp).symm]
  · simp [address, Function.update_of_ne (ne q hq).symm]
  · simp [address]
  · simp [Function.update_of_ne hn, Function.update_of_ne (ne w hw)]
  · simp [Function.update_of_ne hn, Function.update_of_ne (ne w hw)]

theorem neighboursLinked_joins (t : Tidy E) (hb : b ∈ E) (hf : f ∈ E) :
    Joins address m (neighboursLinked m f b) E b f := by
  have l := ((linksAre_self m E).storeForward t hb f).storeBackward t hf b
  refine l.joins hb hf ?_ ?_ (fun w hw hn => ?_) fun w hw hn => ?_
  · simp [address]
  · simp [address]
  · simp [Function.update_of_ne hn]
  · simp [Function.update_of_ne hn]

end

/-! ## The ring of an absolute queue -/

section
variable {m : Memory} {h p e x y : Word} {L P Q R A B : List Word}

/-- Two elements of a well-formed queue are one or share no byte (R103). -/
theorem absQueue_tidy (hq : AbsQueue m h L = true) : Tidy (h :: L) := fun _ ha _ hb =>
  or_iff_not_imp_left.2 <| haveI : Std.Symm fun x y => elementsApart x y = true :=
      ⟨fun x y k => elementsApart_comm x y ▸ k⟩
    (absQueue_iff.1 hq).1.forall ha hb

theorem Tidy.cons {E : List Word} (t : Tidy E) (he : ∀ x ∈ E, elementsApart e x = true) : Tidy (e :: E) := by
  intro a ha b hb
  obtain rfl | hE := List.mem_cons.1 ha <;> obtain rfl | hE' := List.mem_cons.1 hb
  · exact .inl rfl
  · exact .inr (he b hE')
  · exact .inr (elementsApart_comm b a ▸ he a hE)
  · exact t a hE b hE'

/-- Elements that stand next to each other in the ring hold each other's address. -/
theorem absQueue_linked (hq : AbsQueue m h L = true) (hr : h :: (L ++ [h]) = P ++ x :: y :: Q) :
    m.read4 x = some y ∧ m.read4 (y + 4) = some x := by
  have hc := absChain_iff_isChain.1 (absQueue_iff.1 hq).2
  rw [hr] at hc
  exact (List.isChain_append_cons_cons.1 hc).2.1

/-- Any element of a ring may stand for its header. -/
theorem absQueue_at (hq : AbsQueue m h L = true) (hr : h :: L = P ++ p :: R) : AbsQueue m p (R ++ P) = true := by
  cases P with
  | nil =>
    obtain ⟨rfl, rfl⟩ := List.cons.inj hr
    rwa [List.append_nil]
  | cons w A =>
    obtain ⟨rfl, rfl⟩ := List.cons.inj hr
    exact absQueue_rotate hq

/-- Where no entry is the predecessor, nothing is put after it. -/
theorem flatMap_after_of_not_mem (hp : p ∉ L) : (L.flatMap fun x => if x = p then [x, e] else [x]) = L := by
  induction L with
  | nil => rfl
  | cons x xs ih =>
    rw [List.mem_cons, not_or] at hp
    rw [List.flatMap_cons, ih hp.2, if_neg (Ne.symm hp.1), List.singleton_append]

/-- The entry stands directly after its predecessor (R132). -/
theorem cons_insertAfter (hn : (h :: L).Nodup) (hr : h :: L = P ++ p :: R) :
    h :: insertAfter h p e L = P ++ p :: e :: R := by
  cases P with
  | nil =>
    obtain ⟨rfl, rfl⟩ := List.cons.inj hr
    rw [insertAfter, if_pos rfl, List.nil_append]
  | cons w A =>
    rw [List.cons_append, List.cons.injEq] at hr
    obtain ⟨rfl, rfl⟩ := hr
    obtain ⟨hh, hd⟩ := List.nodup_cons.1 hn
    have hA : p ∉ A := fun hm => (List.nodup_append.1 hd).2.2 p hm p (List.mem_cons_self ..) rfl
    have hR : p ∉ R := (List.nodup_cons.1 (List.nodup_append.1 hd).2.1).1
    have hp : p ≠ h := fun hp => hh (hp ▸ List.mem_append_right A (List.mem_cons_self ..))
    rw [insertAfter, if_neg hp, List.flatMap_append, List.flatMap_cons, if_pos rfl, flatMap_after_of_not_mem hA,
      flatMap_after_of_not_mem hR]
    rfl

/-- The entry's neighbours are one element exactly when it is the only entry. -/
theorem neighbours_eq_iff (hn : (h :: (A ++ e :: B)).Nodup) :
    B.headD h = A.getLastD h ↔ A ++ e :: B = [e] := by
  obtain ⟨hh, hd⟩ := List.nodup_cons.1 hn
  rw [List.mem_append, List.mem_cons, not_or, not_or] at hh
  obtain ⟨hA, -, hB⟩ := hh
  obtain ⟨-, -, hAB⟩ := List.nodup_append.1 hd
  have single : A ++ e :: B = [e] ↔ A = [] ∧ B = [] := by cases A <;> simp
  rw [single]
  refine ⟨fun hx => ?_, fun ⟨hA, hB⟩ => by rw [hA, hB]; rfl⟩
  have hw : A.getLastD h = h := by
    have mA : A.getLastD h ∈ h :: A := List.getLastD_mem_cons
    have mB := hx ▸ headD_mem_cons B h
    by_contra hne
    exact hAB _ ((List.mem_cons.1 mA).resolve_left hne) _
      (List.mem_cons_of_mem e ((List.mem_cons.1 mB).resolve_left hne)) rfl
  exact ⟨(getLastD_eq_self_iff hA).1 hw, (headD_eq_self_iff hB).1 (hx.trans hw)⟩

end

/-! ## Settling -/

section
variable {a b : Specifier} {s t : State} {e p q : Word} {d : Dest} {L : List Word}

/-- INSQUE after an element of a well-formed queue, whose other elements are `L` (R132). -/
theorem exec_insque_alone (ho : s.others = []) (he : evalInsertion .byte a b s = .ok (e, p, t))
    (hq : AbsQueue s.mem p L = true) (ha : ∀ x ∈ p :: L, elementsApart e x = true) (hr : s.mem.read4 p = some q)
    (pe : s.probe e 8 .write = none) (pp : s.probe p 4 .write = none) (pq : s.probe (q + 4) 4 .write = none)
    (hw : s.writable [e, e + 4, q + 4, p] = true) :
    exec (.insque a b) s = .next (State.compareCC { t with mem := linkedAfter s.mem p q e } q p false) := by
  have ev := (evalInsertion_ok he).1
  obtain rfl : L.headD p = q := Option.some.inj ((absChain_forward (absQueue_iff.1 hq).2).symm.trans hr)
  have hm := headD_mem_cons L p
  have apart : (p :: L.headD p :: t.absEntries p (L.headD p)).all (elementsApart e) = true := by
    rw [absEntries_queue (ev.mem ▸ hq), List.all_eq_true]
    exact List.forall_mem_cons.2 ⟨ha p (List.mem_cons_self ..), List.forall_mem_cons.2
      ⟨ha _ hm, fun x hx => ha x (List.mem_cons_of_mem p hx)⟩⟩
  rw [exec_insque he, insertAbsolute_alone (ev.isAlone ho) ((ev.probe ..).trans pe) ((ev.probe ..).trans pp)
    (ev.mem ▸ hr) ((ev.probe ..).trans pq) apart (absQueue_tidy hq _ hm _ (List.mem_cons_self ..))
    ((ev.writable _).trans hw), ev.mem]
  rfl

/-- REMQUE of an element of a well-formed queue, whose other elements are `L` (R152). -/
theorem exec_remque_alone {f b' : Word} (ho : s.others = []) (he : evalRemoval .byte a b s = .ok (e, d, t))
    (hq : AbsQueue s.mem e L = true) (hd : ∀ x ∈ e :: L, d.apart x = true) (hf : s.mem.read4 e = some f)
    (hb : s.mem.read4 (e + 4) = some b') (pe : s.probe e 8 .read = none) (pb : s.probe b' 4 .write = none)
    (pf : s.probe (f + 4) 4 .write = none) (hw : s.acceptsDest d = true) (hs : s.writable [b', f + 4] = true) :
    exec (.remque a b) s = .next ((State.afterDest { t with mem := neighboursLinked s.mem f b' } d e).compareCC f b'
      (e == b')) := by
  have ev := (evalRemoval_ok he).1
  obtain rfl := (absQueue_links hq hf hb).1
  have hn := absEntries_queue (s := t) (ev.mem ▸ hq)
  rw [exec_remque he, removeAbsolute_alone (ev.isAlone ho) ((ev.probe ..).trans pe) (ev.mem ▸ hf) (ev.mem ▸ hb)
    ((ev.probe ..).trans pb) ((ev.probe ..).trans pf) (by rw [hn, ev.mem, hq])
    (by rw [hn, Dest.apartAll, List.all_eq_true]; exact hd) ((ev.acceptsDest d).trans hw)
    ((ev.writable _).trans hs), ev.mem]
  rfl

/-- Settles O59: the entry is linked in between the predecessor and the element after it. -/
theorem insquePutsAfterPredecessor : Obligations.InsquePutsAfterPredecessor := by
  unfold Obligations.InsquePutsAfterPredecessor
  intro a b s t e p q h L ho he hq hp ha hr pe pp pq hw
  obtain ⟨P, R, hL⟩ := List.append_of_mem hp
  have ring : h :: (L ++ [h]) = P ++ p :: R.headD h :: (R ++ [h]).tail := by
    rw [← append_singleton_eq_headD_cons, ← List.cons_append, hL, List.append_assoc, List.cons_append]
  have ring' : h :: (insertAfter h p e L ++ [h]) = P ++ p :: e :: R.headD h :: (R ++ [h]).tail := by
    rw [← append_singleton_eq_headD_cons, ← List.cons_append, cons_insertAfter (absQueue_nodup hq) hL,
      List.append_assoc, List.cons_append, List.cons_append]
  obtain rfl : R.headD h = q := Option.some.inj ((absQueue_linked hq ring).1.symm.trans hr)
  have hq' := absQueue_at hq hL
  have perm : (p :: (R ++ P)).Perm (h :: L) := hL ▸ List.perm_append_comm (l₁ := p :: R)
  have hx : (R ++ P).headD p = R.headD h :=
    Option.some.inj ((absChain_forward (absQueue_iff.1 hq').2).symm.trans hr)
  have hm : R.headD h ∈ h :: L := perm.mem_iff.1 (hx ▸ headD_mem_cons (R ++ P) p)
  have hz : R.headD h = p ↔ L = [] := by
    have hlen := perm.length_eq
    rw [List.length_cons, List.length_cons] at hlen
    rw [← hx, headD_eq_self_iff (List.nodup_cons.1 (absQueue_nodup hq')).1, ← List.length_eq_zero_iff,
      ← List.length_eq_zero_iff]
    omega
  have hen : e ∉ h :: L := fun he => by simpa [elementsApart_irrefl] using ha e he
  refine ⟨_, exec_insque_alone ho he hq' (fun x hx => ha x (perm.mem_iff.1 hx)) hr pe pp pq hw, ?_, ?_⟩
  · simpa only [State.compareCC, setCC_mem] using
      (linkedAfter_inserts ((absQueue_tidy hq).cons ha) hen hp hm).absQueue hq ring ring' ha
  · rw [State.compareCC, setCC_ccZ, Bool.eq_iff_iff, beq_iff_eq, List.isEmpty_iff, hz]

/-- Settles O60: the elements before and after the entry are linked to each other. -/
theorem remqueTakesTheEntry : Obligations.RemqueTakesTheEntry := by
  unfold Obligations.RemqueTakesTheEntry
  intro a b' s t e f b h L d ho he hq hm hd hf hb pe pb pf hw hs
  obtain ⟨A, B, rfl⟩ := List.append_of_mem hm
  have hn := absQueue_nodup hq
  have ring : h :: (A ++ e :: B ++ [h]) = (h :: A).dropLast ++ A.getLastD h :: e :: B.headD h :: (B ++ [h]).tail := by
    rw [← append_singleton_eq_headD_cons, dropLast_append_getLastD_cons, List.append_assoc, List.cons_append]
  have ring' : h :: (A ++ B ++ [h]) = (h :: A).dropLast ++ A.getLastD h :: B.headD h :: (B ++ [h]).tail := by
    rw [← append_singleton_eq_headD_cons, dropLast_append_getLastD_cons, List.append_assoc]
  obtain rfl : A.getLastD h = b := Option.some.inj ((absQueue_linked hq ring).2.symm.trans hb)
  obtain rfl : B.headD h = f :=
    Option.some.inj ((absQueue_linked hq (ring.trans (List.append_cons ..))).1.symm.trans hf)
  have mA : A.getLastD h ∈ h :: A := List.getLastD_mem_cons
  have mB : B.headD h ∈ h :: B := headD_mem_cons B h
  have hb' := ((List.sublist_append_left A (e :: B)).cons_cons h).mem mA
  have hf' := (((List.sublist_cons_self e B).trans (List.sublist_append_right A _)).cons_cons h).mem mB
  have heA : e ∉ h :: A := fun hm => (List.nodup_append (l₁ := h :: A).1 hn).2.2 e hm e (List.mem_cons_self ..) rfl
  have perm : (e :: (B ++ h :: A)).Perm (h :: (A ++ e :: B)) := List.perm_append_comm (l₁ := e :: B)
  have j := (neighboursLinked_joins (m := s.mem) (absQueue_tidy hq) hb' hf').afterDest (t := t) hb' hf' hd e
  refine ⟨_, exec_remque_alone ho he (absQueue_rotate hq) (fun x hx => hd x (perm.mem_iff.1 hx)) hf hb pe pb pf hw hs,
    ?_, ?_, ?_, ?_⟩
  · rw [List.erase_append_right _ fun hA => heA (List.mem_cons_of_mem h hA), List.erase_cons_head]
    simpa only [State.compareCC, setCC_mem] using j.absQueue hq ring ring'
  · rw [State.compareCC, destValue_setCC, afterDest_destValue]
  · rw [State.compareCC, setCC_ccZ, Bool.eq_iff_iff, beq_iff_eq, decide_eq_true_iff, neighbours_eq_iff hn]
  · rw [State.compareCC, setCC_ccV, beq_eq_false_iff_ne]
    exact (ne_of_mem_of_not_mem mA heA).symm

end

end Sys2Proof.Machine
end

section
/-! Insertions that complete (spec/41_queue_insert.md R130, R131, R132): what the links read as, the bytes stored to,
and the bytes every answer of INSQHI, INSQTI, INSQUE and REMQUE leaves alone (spec/20_memory.md R45). -/

namespace Sys2Proof.Machine

/-! ## The bytes stored to -/

section
variable {m m' : Memory} {l : List (Word × Nat)} {a : Word}

/-- A store to a longword that is one of the ranges. -/
theorem sameOutside.long (k : sameOutside m m' l) (hr : (a, 4) ∈ l) (v : Word) : sameOutside m (m'.write4 a v) l :=
  sameOutside_write4_base k hr (by decide) (by decide)

/-- A store to the forward link of an element whose links are one of the ranges. -/
theorem sameOutside.forward (k : sameOutside m m' l) (hr : (a, 8) ∈ l) (v : Word) :
    sameOutside m (m'.write4 a v) l :=
  sameOutside_write4_base k hr (by decide) (by decide)

/-- A store to the backward link of such an element. -/
theorem sameOutside.backward (k : sameOutside m m' l) (hr : (a, 8) ∈ l) (v : Word) :
    sameOutside m (m'.write4 (a + 4) v) l :=
  sameOutside_write4_second k hr

end

theorem headInserted_sameOutside (m : Memory) (h f e : Word) :
    sameOutside m (headInserted m h f e) [(e, 8), (h + f + 4, 4), (h, 4)] := by
  have lock := (sameOutside_refl m [(e, 8), (h + f + 4, 4), (h, 4)]).long (a := h) (by simp) (f ||| 1)
  have entry := (lock.forward (a := e) (by simp) (h + f - e)).backward (a := e) (by simp) (h - e)
  exact (entry.long (a := h + f + 4) (by simp) _).long (by simp) _

theorem tailLinked_sameOutside (m : Memory) (h f back e : Word) :
    sameOutside m (tailLinked m h f back e) [(e, 8), (h + back, 4), (h, 8)] := by
  have lock := (sameOutside_refl m [(e, 8), (h + back, 4), (h, 8)]).forward (a := h) (by simp) (f ||| 1)
  have entry := (lock.forward (a := e) (by simp) (h - e)).backward (a := e) (by simp) (h + back - e)
  exact (entry.long (a := h + back) (by simp) _).backward (by simp) _

theorem tailInserted_sameOutside (m : Memory) (h f back e : Word) :
    sameOutside m (tailInserted m h f back e) [(e, 8), (h + back, 4), (h, 8)] := by
  have linked := tailLinked_sameOutside m h f back e
  rw [tailInserted]
  split
  · exact linked
  · exact linked.forward (by simp) f

theorem linkedAfter_sameOutside (m : Memory) (p q e : Word) :
    sameOutside m (linkedAfter m p q e) [(e, 8), (q + 4, 4), (p, 4)] := by
  have entry := ((sameOutside_refl m [(e, 8), (q + 4, 4), (p, 4)]).forward (a := e) (by simp) q).backward (a := e)
    (by simp) p
  exact (entry.long (a := q + 4) (by simp) e).long (by simp) e

theorem neighboursLinked_sameOutside (m : Memory) (f b : Word) :
    sameOutside m (neighboursLinked m f b) [(b, 4), (f + 4, 4)] :=
  ((sameOutside_refl m [(b, 4), (f + 4, 4)]).long (a := b) (by simp) f).long (by simp) b

/-! ## Memory frames -/

/-- An instruction stores inside the ranges when its step A does, and step B when it is taken at once. -/
theorem afterStepA_sameOutside {start u : State} {r : Res State} {m : Memory} {l : List (Word × Nat)}
    (hA : ∀ t, r = .ok t → sameOutside m t.mem l)
    (hB : ∀ t p v, r = .ok t → t.cpu.pending = some p → completeHeld p t = .ok v → sameOutside m v.mem l)
    (e : afterStepA start r = .next u) : sameOutside m u.mem l := by
  obtain ⟨t, ht, ⟨-, rfl⟩ | ⟨p, v, hp, -, hv, rfl⟩⟩ := afterStepA_next e
  · exact hA _ ht
  · exact hB t p v ht hp hv

/-- Step A that found the interlock set leaves nothing half done. -/
theorem FoundSet.not_pending {header : Word} {s t : State} {p : Pending} (x : FoundSet header s t)
    (hp : s.cpu.pending = none) : t.cpu.pending ≠ some p := by
  simp [x.pending, hp]

/-- What a processor that took step A has half done. -/
theorem Holds.pending_eq {start s t : State} {op : HeldOp} {header f : Word} {p : Pending}
    (x : Holds start op header f s t) (hp : t.cpu.pending = some p) : p = ⟨op, header, f, start.cpu.regs⟩ :=
  Option.some.inj (hp.symm.trans x.pending)

section
variable {start s u : State} {e h f back : Word}

theorem afterStepA_insqhi_sameOutside (hp : s.cpu.pending = none) (hf : s.mem.read4 h = some f)
    (x : afterStepA start (acquireInsqhi start e h s) = .next u) :
    sameOutside s.mem u.mem [(e, 8), (h + f + 4, 4), (h, 4)] := by
  refine afterStepA_sameOutside (fun t ht => ?_) (fun t p v ht hq hv => ?_) x
  · obtain found | ⟨-, f', held⟩ := acquireInsqhi_ok ht
    · exact sameOutside_of_eq _ found.mem
    · rw [held.mem]
      exact (sameOutside_refl _ _).long (by simp) _
  · obtain found | ⟨-, f', held⟩ := acquireInsqhi_ok ht
    · exact absurd hq (found.not_pending hp)
    · obtain rfl : f' = f := Option.some.inj (held.read.symm.trans hf)
      obtain rfl := held.pending_eq hq
      obtain ⟨-, -, hm⟩ := completeInsqhi_ok hv
      rw [hm, held.mem]
      exact headInserted_sameOutside s.mem h f' e

theorem afterStepA_insqti_sameOutside (hp : s.cpu.pending = none) (hb : s.mem.read4 (h + 4) = some back)
    (x : afterStepA start (acquireInsqti start e h s) = .next u) :
    sameOutside s.mem u.mem [(e, 8), (h + back, 4), (h, 8)] := by
  refine afterStepA_sameOutside (fun t ht => ?_) (fun t p v ht hq hv => ?_) x
  · obtain found | ⟨-, f, held⟩ := acquireInsqti_ok ht
    · exact sameOutside_of_eq _ found.mem
    · rw [held.mem]
      exact (sameOutside_refl _ _).forward (by simp) _
  · obtain found | ⟨-, f, held⟩ := acquireInsqti_ok ht
    · exact absurd hq (found.not_pending hp)
    · obtain rfl := held.pending_eq hq
      obtain ⟨back', hb', -, -, -, -, m, hM, hm⟩ := completeInsqti_ok hv
      rw [held.mem, read4_write4_apart _ _ (link_links_apart h), hb] at hb'
      obtain rfl := Option.some.inj hb'
      rw [hm, hM, held.mem]
      exact tailInserted_sameOutside s.mem h f back e

end

/-- Settles O41: an answer is step A alone, which sets the interlock at most, or step B after it. -/
theorem interlockedInsertionMemoryFrame : Obligations.InterlockedInsertionMemoryFrame := by
  intro a b s t u e h hp he
  have ev := (evalInsertion_ok he).1
  have ht := ev.pending.trans hp
  rw [exec_insqhi hp he, exec_insqti hp he, ← ev.mem]
  exact ⟨fun f => afterStepA_insqhi_sameOutside ht, fun back => afterStepA_insqti_sameOutside ht⟩

/-- Settles O43: INSQUE stores to the links its rule names, REMQUE to its neighbours' and then to `addr`. -/
theorem absoluteMemoryFrame : Obligations.AbsoluteMemoryFrame := by
  intro a b s t u e
  refine ⟨fun p q he hq x => ?_, fun d f k he hf hk x => ?_⟩
  · have ev := (evalInsertion_ok he).1
    rw [exec_insque he] at x
    obtain ⟨q', v, n, z, c, hq', -, -, -, -, rfl, hm⟩ := insertAbsolute_ok (finish_next x)
    obtain rfl : q' = q := Option.some.inj (hq'.symm.trans (ev.mem ▸ hq))
    rw [setCC_mem, hm, ev.mem]
    exact linkedAfter_sameOutside s.mem p q' e
  · have ev := (evalRemoval_ok he).1
    rw [exec_remque he] at x
    obtain ⟨-, f', k', v, w, hf', hk', -, -, -, hv, hw, hm⟩ := removeAbsolute_ok (finish_next x)
    obtain rfl : f' = f := Option.some.inj (hf'.symm.trans (ev.mem ▸ hf))
    obtain rfl : k' = k := Option.some.inj (hk'.symm.trans (ev.mem ▸ hk))
    have links : sameOutside s.mem v.mem ([(k', 4), (f' + 4, 4)] ++ destRange d) := by
      rw [hv, ev.mem]
      exact sameOutside_mono (neighboursLinked_sameOutside s.mem f' k') fun r hr x hx =>
        ⟨r, List.mem_append_left _ hr, hx⟩
    have dest : sameOutside v.mem w.mem ([(k', 4), (f' + 4, 4)] ++ destRange d) :=
      sameOutside_mono (writeDest_frame hw).1 fun r hr x hx => ⟨r, List.mem_append_right _ hr, hx⟩
    rw [hm]
    exact sameOutside_trans links dest

/-! ## Results -/

theorem ne_of_elementsApart {a b : Word} (h : elementsApart a b = true) : a ≠ b := by
  rintro rfl
  simp [elementsApart_irrefl] at h

theorem tidy_pair {x y : Word} (h : y = x ∨ elementsApart y x = true) : Tidy [x, y] := by
  intro a ha b hb
  rw [List.mem_pair] at ha hb
  obtain rfl | rfl := ha <;> obtain rfl | rfl := hb
  · exact .inl rfl
  · exact h.imp Eq.symm (elementsApart_comm .. ▸ ·)
  · exact h
  · exact .inl rfl

section
variable {m : Memory} {e h f back p q : Word}

/-- What the four links read as after INSQHI (R130). -/
theorem headInserted_links (hh : aligned8 h = true) (he : aligned8 e = true) (hf : aligned8 f = true) (hn : e ≠ h)
    (hs : e ≠ h + f) : let m' := headInserted m h f e
    m'.read4 e = some (h + f - e) ∧ m'.read4 (e + 4) = some (h - e) ∧
      m'.read4 (h + f + 4) = some (e - (h + f)) ∧ m'.read4 h = some (e - h) := by
  obtain ⟨-, ⟨forward, back⟩, ⟨forward', back'⟩⟩ := headInserted_inserts (m := m) (E := [h, h + f]) (e := e)
    (tidy_of_aligned (by simp [he, hh, aligned_add hh hf])) (by simp [hn, hs]) (List.mem_cons_self ..)
    (List.mem_pair.2 (.inr rfl))
  exact ⟨forward', back, back', forward⟩

/-- What the four links, and the header's forward link, read as after INSQTI (R131). -/
theorem tailInserted_links (hh : aligned8 h = true) (he : aligned8 e = true) (hb : aligned8 back = true)
    (hf : m.read4 h = some f) (hn : e ≠ h) (hp : e ≠ h + back) : let m' := tailInserted m h f back e
    m'.read4 e = some (h - e) ∧ m'.read4 (e + 4) = some (h + back - e) ∧
      m'.read4 (h + back) = some (e - (h + back)) ∧ m'.read4 (h + 4) = some (e - h) ∧
      (back ≠ 0 → m'.read4 h = some f) := by
  obtain ⟨kept, ⟨forward, back⟩, ⟨forward', back'⟩⟩ := tailInserted_inserts (E := [h, h + back]) (e := e)
    (tidy_of_aligned (by simp [he, hh, aligned_add hh hb])) (by simp [hn, hp]) (List.mem_cons_self ..)
    (List.mem_pair.2 (.inr rfl)) hf
  exact ⟨forward', back, forward, back', fun h0 => (kept.forward h (by simp) (by bv_omega)).trans hf⟩

/-- What the four links read as after INSQUE (R132). -/
theorem linkedAfter_links (hp : elementsApart e p = true) (hq : elementsApart e q = true)
    (hpq : q = p ∨ elementsApart q p = true) : let m' := linkedAfter m p q e
    m'.read4 e = some q ∧ m'.read4 (e + 4) = some p ∧ m'.read4 (q + 4) = some e ∧ m'.read4 p = some e := by
  obtain ⟨-, ⟨forward, back⟩, ⟨forward', back'⟩⟩ := linkedAfter_inserts (m := m) ((tidy_pair hpq).cons (e := e)
    (by simp [hp, hq])) (by simp [ne_of_elementsApart hp, ne_of_elementsApart hq]) (List.mem_cons_self ..)
    (List.mem_pair.2 (.inr rfl))
  exact ⟨forward', back, back', forward⟩

/-- The entry is not the element that the header's forward link leads to, be that the header itself. -/
theorem selfApart.ne_head (hs : selfApart m h (h + f) (elementsApart e)) (hh : aligned8 h = true)
    (hf : aligned8 f = true) (hn : e ≠ h) : e ≠ h + f := by
  by_cases hb : h + f = h
  · rwa [hb]
  · exact ne_of_elementsApart (hs.head (aligned_add hh hf) hb)

end

/-- Setting the codes after operands and stores changes the codes and memory only. -/
theorem Evaluates.setCC_eq {l : List Reg} {k : Nat} {s t : State} (ev : Evaluates l k s t) (m : Memory)
    (n z v c : Bool) : State.setCC { t with mem := m } n z v c =
      { t with mem := m, cpu := { t.cpu with psl := withCC s.cpu.psl n z v c } } := by
  rw [← ev.psl]
  rfl

/-- Settles O22: the memory that `exec_insqhi_alone` gives links the entry in between the header and the old head. -/
theorem insqhiResult : Obligations.InsqhiResult := by
  intro a b s t e h f hp ho he hf hi hn ph pq hc hs hw
  have ev := (evalInsertion_ok he).1
  obtain ⟨hh, hea, hfa, heh⟩ := insertion_aligned hi hn
  have hne := ne_of_elementsApart heh
  obtain ⟨l1, l2, l3, l4⟩ := headInserted_links (m := s.mem) hh hea hfa hne (hs.ne_head hh hfa hne)
  refine ⟨_, (exec_insqhi_alone hp ho he hf hi hn ph pq hc hs hw).trans (congrArg _ (ev.setCC_eq ..)), ?_⟩
  dsimp only
  exact ⟨l1, l2, l3, l4, headInserted_sameOutside s.mem h f e, rfl⟩

/-- Settles O23: likewise between the old tail and the header, whose forward link is kept unless it is the tail's. -/
theorem insqtiResult : Obligations.InsqtiResult := by
  intro a b s t e h f back hp ho he hf hi hn hb hba hc ph pq hne hs hw
  have ev := (evalInsertion_ok he).1
  obtain ⟨hh, hea, -, heh⟩ := insertion_aligned hi hn
  obtain ⟨l1, l2, l3, l4, l5⟩ := tailInserted_links hh hea hba hf (ne_of_elementsApart heh) hne
  refine ⟨_, (exec_insqti_alone hp ho he hf hi hn hb hba hc ph pq hne hs hw).trans (congrArg _ (ev.setCC_eq ..)), ?_⟩
  dsimp only
  exact ⟨l1, l2, l3, l4, l5, tailInserted_sameOutside s.mem h f back e, rfl⟩

/-- INSQUE after a predecessor, whatever ring it is in, where the entry is apart from what forward links reach
(R132). -/
theorem exec_insque_apart {a b : Specifier} {s t : State} {e p q : Word} (ho : s.others = [])
    (he : evalInsertion .byte a b s = .ok (e, p, t)) (hr : s.mem.read4 p = some q) (pe : s.probe e 8 .write = none)
    (pp : s.probe p 4 .write = none) (pq : s.probe (q + 4) 4 .write = none) (hp : elementsApart e p = true)
    (hq : elementsApart e q = true) (hs : absApart s.mem p q (elementsApart e))
    (hpq : q = p ∨ elementsApart q p = true) (hw : s.writable [e, e + 4, q + 4, p] = true) :
    exec (.insque a b) s = .next (State.compareCC { t with mem := linkedAfter s.mem p q e } q p false) := by
  have ev := (evalInsertion_ok he).1
  have apart : (p :: q :: t.absEntries p q).all (elementsApart e) = true := by
    rw [State.absEntries, ev.mem, List.all_eq_true]
    exact List.forall_mem_cons.2 ⟨hp, List.forall_mem_cons.2 ⟨hq, hs _⟩⟩
  rw [exec_insque he, insertAbsolute_alone (ev.isAlone ho) ((ev.probe ..).trans pe) ((ev.probe ..).trans pp)
    (ev.mem ▸ hr) ((ev.probe ..).trans pq) apart hpq ((ev.writable _).trans hw), ev.mem]
  rfl

/-- Settles O34: the entry is linked in between the predecessor and its successor, wherever they stand. -/
theorem insqueResult : Obligations.InsqueResult := by
  intro a b s t e p q ho he hr pe pp pq hp hs hpq hw
  have ev := (evalInsertion_ok he).1
  have hq : elementsApart e q = true := by
    by_cases h : q = p
    · rwa [h]
    · exact hs 1 q (by simp [absEntries, h])
  obtain ⟨l1, l2, l3, l4⟩ := linkedAfter_links (m := s.mem) hp hq hpq
  refine ⟨_, (exec_insque_apart ho he hr pe pp pq hp hq hs hpq hw).trans (congrArg _ (ev.setCC_eq ..)), ?_⟩
  dsimp only
  exact ⟨l1, l2, l3, l4, linkedAfter_sameOutside s.mem p q e, rfl⟩

end Sys2Proof.Machine
end

section
/-! INSQUE and REMQUE where they raise and where they refuse (spec/41_queue_insert.md R132; spec/42_queue_remove.md
R152; spec/60_exceptions.md R183, R188; spec/92_eei_decisions.md D20). -/

namespace Sys2Proof.Machine

/-! ## The outcomes of an absolute instruction that stops -/

theorem finish_raise {left : State} {r : Res State} {x : Exception} (h : r = .error (.raise x)) :
    finish left r = .fault (.raised x left) := by
  rw [h]
  rfl

theorem finish_refuse {left : State} {r : Res State} {y : Refusal} (h : r = .error (.refuse y)) :
    finish left r = .refused y := by
  rw [h]
  rfl

/-! ## Conditions after the operands -/

theorem Evaluates.insqueCondition {l : List Reg} {n : Nat} {s t : State} (ev : Evaluates l n s t) (e p : Word)
    (x : Exception) : InsqueCondition t e p x ↔ InsqueCondition s e p x := by
  simp only [InsqueCondition, ev.probe, ev.mem]

theorem Evaluates.remqueCondition {l : List Reg} {n : Nat} {s t : State} (ev : Evaluates l n s t) (e : Word)
    (d : Dest) (x : Exception) : RemqueCondition t e d x ↔ RemqueCondition s e d x := by
  simp only [RemqueCondition, ev.probe, ev.mem]

section
variable {s : State} {e p : Word} {d : Dest}

/-! ## Exceptions -/

/-- INSQUE with a condition raises one: the operands' probes first, the successor's once its address is read (R132). -/
theorem insertAbsolute_raises (hr : s.raceFree none p = true) (hx : ∃ x, InsqueCondition s e p x) :
    ∃ x, InsqueCondition s e p x ∧ insertAbsolute e p s = .error (.raise x) := by
  by_cases hE : addCondition (s.probe e 8 .write) (addCondition (s.probe p 4 .write) []) = []
  case neg =>
    obtain ⟨x, hx, h⟩ := raiseAny_of_ne_nil (s := s) hE (s.insqueLinks p)
    exact ⟨x, mem_insqueConditions.1 hx, by rw [insertAbsolute, h, error_bind]⟩
  case pos =>
    obtain ⟨pe, pp, -⟩ := by simpa only [addCondition_eq_nil] using hE
    obtain ⟨x, h | h | ⟨-, q, hq, pq⟩⟩ := hx
    · simp [pe] at h
    · simp [pp] at h
    · obtain ⟨t, ht, -, -⟩ := load_raceFree hr hq
      have hd : t.demand (q + 4) 4 .write = .error (.raise x) :=
        demand_error.2 ⟨x, (load_probe ht ..).trans pq, rfl⟩
      refine ⟨x, .inr (.inr ⟨pp, q, hq, pq⟩), ?_⟩
      rw [insertAbsolute, hE, raiseAny_nil, ok_bind, ht, ok_bind]
      dsimp only
      rw [hd, error_bind]

/-- REMQUE with a condition raises one: the operands' probes first, the neighbours' once their addresses are read
(R152). -/
theorem removeAbsolute_raises (hr : s.raceFree none e = true) (hr' : s.raceFree none (e + 4) = true)
    (hx : ∃ x, RemqueCondition s e d x) :
    ∃ x, RemqueCondition s e d x ∧ removeAbsolute e d s = .error (.raise x) := by
  by_cases hE : addCondition (s.probeDest d) (addCondition (s.probe e 8 .read) []) = []
  case neg =>
    obtain ⟨x, hx, h⟩ := raiseAny_of_ne_nil (s := s) hE (s.remqueLinks e)
    exact ⟨x, mem_remqueConditions.1 hx, by rw [removeAbsolute, h, error_bind]⟩
  case pos =>
    obtain ⟨pd, pe, -⟩ := by simpa only [addCondition_eq_nil] using hE
    obtain ⟨x, h | ⟨a, rfl, h⟩ | ⟨-, f, b, hf, hb, hp⟩⟩ := hx
    · simp [pe] at h
    · simp [State.probeDest, h] at pd
    · obtain ⟨t, ht, ho, -⟩ := load_raceFree hr hf
      obtain ⟨u, hu, -, -⟩ := load_raceFree ((ho.raceFree ..).trans hr') (ho.mem ▸ hb)
      have hN : u.neighbourConditions f b = s.neighbourConditions f b := by
        simp only [State.neighbourConditions, load_probe hu, load_probe ht]
      have mem (y : Exception) : y ∈ s.neighbourConditions f b ↔
          s.probe b 4 .write = some y ∨ s.probe (f + 4) 4 .write = some y := by
        simp [State.neighbourConditions, mem_addCondition]
      obtain ⟨y, hy, h⟩ := raiseAny_of_ne_nil (s := u) (List.ne_nil_of_mem ((mem x).2 hp)) []
      rw [List.append_nil] at hy
      refine ⟨y, .inr (.inr ⟨pe, f, b, hf, hb, (mem y).1 hy⟩), ?_⟩
      rw [removeAbsolute, hE, raiseAny_nil, ok_bind, ht, ok_bind]
      dsimp only
      rw [hu, ok_bind]
      dsimp only
      rw [hN, h, error_bind]

/-! ## Refusals -/

/-- Where INSQUE has no condition every probe it makes succeeds. -/
theorem insque_probes (hn : ∀ x, ¬ InsqueCondition s e p x) :
    s.probe e 8 .write = none ∧ s.probe p 4 .write = none ∧
      ∀ q, s.mem.read4 p = some q → s.probe (q + 4) 4 .write = none := by
  have pp : s.probe p 4 .write = none := Option.eq_none_iff_forall_ne_some.2 fun x h => hn x (.inr (.inl h))
  exact ⟨Option.eq_none_iff_forall_ne_some.2 fun x h => hn x (.inl h), pp,
    fun q hq => Option.eq_none_iff_forall_ne_some.2 fun x h => hn x (.inr (.inr ⟨pp, q, hq, h⟩))⟩

/-- Where REMQUE has no condition every probe it makes succeeds. -/
theorem remque_probes (hn : ∀ x, ¬ RemqueCondition s e d x) :
    s.probe e 8 .read = none ∧ s.probeDest d = none ∧
      ∀ f b, s.mem.read4 e = some f → s.mem.read4 (e + 4) = some b → s.neighbourConditions f b = [] := by
  have pe : s.probe e 8 .read = none := Option.eq_none_iff_forall_ne_some.2 fun x h => hn x (.inl h)
  refine ⟨pe, ?_, fun f b hf hb => ?_⟩
  · cases d with
    | reg n => rfl
    | mem a => exact Option.eq_none_iff_forall_ne_some.2 fun x h => hn x (.inr (.inl ⟨a, rfl, h⟩))
  · simp only [State.neighbourConditions, addCondition_eq_nil, and_true]
    exact ⟨Option.eq_none_iff_forall_ne_some.2 fun x h => hn x (.inr (.inr ⟨pe, f, b, hf, hb, .inl h⟩)),
      Option.eq_none_iff_forall_ne_some.2 fun x h => hn x (.inr (.inr ⟨pe, f, b, hf, hb, .inr h⟩))⟩

/-- INSQUE refuses an entry that shares a byte with the predecessor, its successor or an element beyond (D20). -/
theorem insertAbsolute_overlap {q : Word} (ha : s.alone = true) (hn : ∀ x, ¬ InsqueCondition s e p x)
    (hq : s.mem.read4 p = some q) (ho : ∃ x ∈ p :: q :: s.absEntries p q, elementsApart e x = false) :
    insertAbsolute e p s = .error (.refuse .overlap) := by
  obtain ⟨pe, pp, pq⟩ := insque_probes hn
  have hr : (p :: q :: s.absEntries p q).all (elementsApart e) = false := List.all_eq_false.2 (by simpa using ho)
  simp only [insertAbsolute, pe, pp, addCondition_none, raiseAny_nil]
  rw [ok_bind, load_alone ha _ hq, ok_bind, (demand_ok (u := ())).2 (pq q hq), ok_bind,
    require_error.2 ⟨hr, rfl⟩, error_bind]

/-- REMQUE refuses an entry that is no element of a well-formed queue (R152). -/
theorem removeAbsolute_notInQueue {f b : Word} (ha : s.alone = true) (hn : ∀ x, ¬ RemqueCondition s e d x)
    (hf : s.mem.read4 e = some f) (hb : s.mem.read4 (e + 4) = some b)
    (hq : AbsQueue s.mem e (s.absEntries e f) = false) : removeAbsolute e d s = .error (.refuse .notInQueue) := by
  obtain ⟨pe, pd, hN⟩ := remque_probes hn
  simp only [removeAbsolute, pe, pd, addCondition_none, raiseAny_nil]
  rw [ok_bind, load_alone ha _ hf, ok_bind, load_alone ha _ hb, ok_bind]
  dsimp only
  rw [hN f b hf hb, raiseAny_nil, ok_bind, require_error.2 ⟨hq, rfl⟩, error_bind]

/-- REMQUE refuses an `addr` that shares a byte with an element of the entry's queue (D20). -/
theorem removeAbsolute_overlap {L : List Word} (ha : s.alone = true) (hn : ∀ x, ¬ RemqueCondition s e d x)
    (hq : AbsQueue s.mem e L = true) (ho : ∃ x ∈ e :: L, d.apart x = false) :
    removeAbsolute e d s = .error (.refuse .overlap) := by
  obtain ⟨pe, pd, hN⟩ := remque_probes hn
  have hc := (absQueue_iff.1 hq).2
  have hf := absChain_forward hc
  have hb := absChain_backward hc
  have hL := absEntries_queue hq
  have hd : d.apartAll (e :: L) = false := List.all_eq_false.2 (by simpa using ho)
  simp only [removeAbsolute, pe, pd, addCondition_none, raiseAny_nil]
  rw [ok_bind, load_alone ha _ hf, ok_bind, load_alone ha _ hb, ok_bind]
  dsimp only
  rw [hN _ _ hf hb, raiseAny_nil, ok_bind, hL, (require_ok (u := ())).2 hq, ok_bind, require_error.2 ⟨hd, rfl⟩,
    error_bind]

/-- The predecessor and the elements that its forward links reach are those of the queue it is in. -/
theorem absEntries_at {h : Word} {L : List Word} (hq : AbsQueue s.mem h L = true) (hp : p ∈ h :: L) :
    ∃ q, s.mem.read4 p = some q ∧ (p :: s.absEntries p q).Perm (h :: L) := by
  obtain ⟨P, R, hL⟩ := List.append_of_mem hp
  have hq' := absQueue_at hq hL
  refine ⟨_, absChain_forward (absQueue_iff.1 hq').2, ?_⟩
  rw [absEntries_queue hq', hL]
  exact List.perm_append_comm (l₁ := p :: R)

end

/-! ## Settling -/

/-- Settles O36: the checks come in two groups, and each raises one of the conditions. -/
theorem absoluteProbeFaults : Obligations.AbsoluteProbeFaults := by
  intro a b s t
  refine ⟨fun e p he hr hx => ?_, fun e d he hr hr' hx => ?_⟩
  · have ev := (evalInsertion_ok he).1
    simp only [← ev.insqueCondition] at hx ⊢
    obtain ⟨x, hx, h⟩ := insertAbsolute_raises ((ev.raceFree ..).trans hr) hx
    exact ⟨x, hx, (exec_insque he).trans (finish_raise h)⟩
  · have ev := (evalRemoval_ok he).1
    simp only [← ev.remqueCondition] at hx ⊢
    obtain ⟨x, hx, h⟩ := removeAbsolute_raises ((ev.raceFree ..).trans hr) ((ev.raceFree ..).trans hr') hx
    exact ⟨x, hx, (exec_remque he).trans (finish_raise h)⟩

/-- Settles O37: the walk along the forward links meets the overlapping element of a well-formed queue, and finds no
such queue around an entry that a neighbour does not link back to. -/
theorem absoluteRefusals : Obligations.AbsoluteRefusals := by
  intro a b s t ho
  refine ⟨fun e p h L he hn hq hp hx => ?_, fun e d he hn => ?_⟩
  · have ev := (evalInsertion_ok he).1
    simp only [← ev.insqueCondition] at hn
    rw [← ev.mem] at hq
    obtain ⟨q, hr, perm⟩ := absEntries_at hq hp
    obtain ⟨x, hx, hxe⟩ := hx
    have hx' : x ∈ p :: q :: t.absEntries p q :=
      ((List.sublist_cons_self q _).cons_cons p).mem (perm.mem_iff.2 hx)
    exact (exec_insque he).trans (finish_refuse (insertAbsolute_overlap (ev.isAlone ho) hn hr ⟨x, hx', hxe⟩))
  · have ev := (evalRemoval_ok he).1
    have ha := ev.isAlone ho
    simp only [← ev.remqueCondition] at hn
    rw [← ev.mem, exec_remque he]
    refine ⟨fun f k hf hk hne => finish_refuse (removeAbsolute_notInQueue ha hn hf hk ?_),
      fun L hq hx => finish_refuse (removeAbsolute_overlap ha hn hq hx)⟩
    rw [Bool.eq_false_iff]
    intro hq
    obtain ⟨-, hb, hf'⟩ := absQueue_links hq hf hk
    exact hne.elim (· hb) (· hf')

end Sys2Proof.Machine
end

section
/-! Interlocked instructions that find the interlock clear and then stop at a link check or a refusal
(spec/40_queue_common.md R106, R109; spec/60_exceptions.md R182, R183, R188; spec/92_eei_decisions.md D15, D18, D20). -/

namespace Sys2Proof.Machine

/-! ## Following a link -/

/-- What following the link at `a` to the longword at `leads link` finds: its own probe, then the checks of what it
leads to (R150, R151). -/
def State.followConditions (s : State) (a : Word) (leads : Word → Word) : List Exception :=
  match s.probe a 4 .read with
  | some e => [e]
  | none => match s.mem.read4 a with
    | some link => s.linkConditions link (leads link)
    | none => []

theorem remqhiLinks_eq {s : State} {h f : Word} (h0 : f ≠ 0) :
    s.remqhiLinks h f = s.followConditions (h + f) fun link => h + f + link + 4 := by
  rw [State.remqhiLinks, if_neg h0]
  rfl

theorem remqtiTail_eq {s : State} {h f back : Word} (h0 : f ≠ 0) :
    s.remqtiTail h f back = s.followConditions (h + back + 4) fun link => h + back + link := by
  rw [State.remqtiTail, if_neg h0]
  rfl

section
variable {s : State} {a : Word} {leads : Word → Word}

/-- A link that can be followed without a condition is in memory. -/
theorem followConditions_nil (hE : s.followConditions a leads = []) :
    s.probe a 4 .read = none ∧ ∃ link, s.mem.read4 a = some link ∧ s.linkConditions link (leads link) = [] := by
  rw [State.followConditions] at hE
  split at hE
  · cases hE
  · rename_i hp
    obtain ⟨link, hl⟩ := read4_of_probe hp (le_refl 4)
    exact ⟨hp, link, hl, by simpa only [hl] using hE⟩

/-- Where following the link finds a condition, its probe raises it, or the checks of what it leads to do. -/
theorem followConditions_raises (ha : s.alone = true) (hE : s.followConditions a leads ≠ []) (via : Option Word)
    {g : Word × State → Res State} {k : Word → Unit → Res State}
    (hg : ∀ link, g (link, s) = s.raiseAny (s.linkConditions link (leads link)) [] >>= k link) :
    ∃ x ∈ s.followConditions a leads, (s.demand a 4 .read >>= fun _ => s.load via a >>= g) = .error (.raise x) := by
  cases hp : s.probe a 4 .read with
  | some x => exact ⟨x, by simp [State.followConditions, hp], by rw [demand_error.2 ⟨x, hp, rfl⟩, error_bind]⟩
  | none =>
    obtain ⟨link, hl⟩ := read4_of_probe hp (le_refl 4)
    have hF : s.followConditions a leads = s.linkConditions link (leads link) := by
      simp only [State.followConditions, hp, hl]
    rw [hF] at hE ⊢
    obtain ⟨x, hx, hr⟩ := raiseAny_of_ne_nil (s := s) hE []
    refine ⟨x, by simpa using hx, ?_⟩
    rw [(demand_ok (u := ())).2 hp, ok_bind, load_alone ha via hl, ok_bind, hg, hr, error_bind]

end

/-! ## What step B checks of the links -/

/-- The conditions that step B of a half done instruction finds at its links (R106 phase 4). -/
def Pending.links (p : Pending) (s : State) : List Exception :=
  match p.op with
  | .insqhi _ => s.insqhiLinks p.header p.forward
  | .insqti _ => s.insqtiLinks p.header
  | .remqhi _ => s.remqhiLinks p.header p.forward
  | .remqti _ back => s.remqtiTail p.header p.forward back

/-- Step B raises one of the conditions it finds. -/
theorem completeHeld_raises {p : Pending} {s : State} (ha : s.alone = true) (hE : p.links s ≠ []) :
    ∃ x ∈ p.links s, completeHeld p s = .error (.raise x) := by
  obtain ⟨op, h, f, regs⟩ := p
  cases op with
  | insqhi e =>
    obtain ⟨x, hx, hr⟩ := raiseAny_of_ne_nil (s := s) hE []
    refine ⟨x, by simpa using hx, ?_⟩
    change completeInsqhi e h f s = _
    change s.raiseAny (s.insqhiLinks h f) [] = _ at hr
    rw [completeInsqhi, hr, error_bind]
  | insqti e =>
    cases hb : s.mem.read4 (h + 4) with
    | none => exact absurd (by simp only [Pending.links, State.insqtiLinks, hb]) hE
    | some back =>
      have hL : Pending.links ⟨.insqti e, h, f, regs⟩ s = s.linkConditions back (h + back) := by
        simp only [Pending.links, State.insqtiLinks, hb]
      rw [hL] at hE ⊢
      obtain ⟨x, hx, hr⟩ := raiseAny_of_ne_nil (s := s) hE []
      refine ⟨x, by simpa using hx, ?_⟩
      change completeInsqti e h f s = _
      rw [completeInsqti, load_alone ha _ hb, ok_bind]
      dsimp only
      rw [hr, error_bind]
  | remqhi d =>
    by_cases h0 : f = 0
    · simp [Pending.links, State.remqhiLinks, h0] at hE
    · simp only [Pending.links, remqhiLinks_eq h0, completeHeld, completeRemqhi] at hE ⊢
      exact followConditions_raises ha hE (some h) fun link => rfl
  | remqti d back =>
    by_cases h0 : f = 0
    · simp [Pending.links, State.remqtiTail, h0] at hE
    · simp only [Pending.links, remqtiTail_eq h0, completeHeld, completeRemqti] at hE ⊢
      exact followConditions_raises ha hE (some h) fun link => rfl

theorem Evaluates.links {l : List Reg} {n : Nat} {s t : State} (ev : Evaluates l n s t) (p : Pending) :
    p.links t = p.links s := by
  simp only [Pending.links, State.insqhiLinks, State.insqtiLinks, State.remqhiLinks, State.remqtiTail,
    State.linkConditions, ev.probe, ev.mem]

/-- Step B finds the links as they were before the interlock was set: none of them is the header's forward link. -/
theorem Between.links {t v : State} {p : Pending} (m : Between t v p.header p.forward)
    (hr : t.mem.read4 p.header = some p.forward) (hh : aligned8 p.header = true) (hf : aligned8 p.forward = true)
    (hb : ∀ d back, p.op = .remqti d back → aligned8 back = true) : p.links v = p.links t := by
  obtain ⟨op, h, f, regs⟩ := p
  have probe := m.probe hr
  cases op with
  | insqhi e => simp only [Pending.links, State.insqhiLinks, probe]
  | insqti e =>
    simp only [Pending.links, State.insqtiLinks, State.linkConditions, probe, m.read4 (link_links_apart h)]
  | remqhi d =>
    by_cases h0 : f = 0
    · simp only [Pending.links, State.remqhiLinks, if_pos h0]
    · have hn : h + f ≠ h := by bv_omega
      simp only [Pending.links, State.remqhiLinks, State.linkConditions, probe,
        m.read4 (aligned_apart hh (aligned_add hh hf) hn).1]
  | remqti d back =>
    simp only [Pending.links, State.remqtiTail, State.linkConditions, probe,
      m.read4 (aligned_second_apart hh (aligned_add hh (hb d back rfl)))]

/-! ## Step B taken at once -/

/-- `i` is, in the state `s` of a processor that is alone, step B of `p` on the state `v`, which differs from that after
the operands in the header's interlock only. -/
structure TakesStepB (i : Instr) (s : State) (p : Pending) (v : State) : Prop where
  exec : exec i s = stepB p v
  alone : v.alone = true
  links : p.links v = p.links s
  undo : s.mem.wf = true → undoHeld p v = s
  backward : v.mem.read4 (p.header + 4) = s.mem.read4 (p.header + 4)
  walk : ∀ L, SRQueue s.mem p.header L = true → v.selfEntries p.header (p.header + p.forward) = L

theorem Evaluates.takesStepB {l : List Reg} {n : Nat} {s t : State} {i : Instr} {op : HeldOp} {h f : Word}
    (ev : Evaluates l n s t) (hp : s.cpu.pending = none) (ho : s.others = []) (hr : s.mem.read4 h = some f)
    (hh : aligned8 h = true) (hf : aligned8 f = true) (ht : s.inText h 4 = false)
    (hb : ∀ d back, op = .remqti d back → aligned8 back = true)
    (he : Machine.exec i s = afterStepA s (hold s op h f t)) :
    ∃ v, TakesStepB i s ⟨op, h, f, s.cpu.regs⟩ v := by
  have ha := ev.isAlone ho
  have hrt : t.mem.read4 h = some f := ev.mem ▸ hr
  obtain ⟨v, hv, m⟩ := afterStepA_hold (start := s) (op := op) (f := f) ha ((ev.inText ..).trans ht)
  refine ⟨v, he.trans hv, m.alone ha, ?_, fun hw => m.undo ev hw hp ho hr, ?_, fun L hq => ?_⟩
  · exact (Between.links (p := ⟨op, h, f, s.cpu.regs⟩) m hrt hh hf hb).trans (ev.links _)
  · rw [m.read4 (link_links_apart h), ev.mem]
  · exact m.selfEntries_queue (ev.mem ▸ hq) hrt

section
variable {i : Instr} {s v : State} {p : Pending}

/-- A link condition is raised in step B, which leaves the state before the instruction. -/
theorem TakesStepB.faults (x : TakesStepB i s p v) (hw : s.mem.wf = true)
    (hC : ∀ y, y ∈ p.links s ↔ LinkCondition i s p.header p.forward y)
    (hx : ∃ y, LinkCondition i s p.header p.forward y) :
    ∃ y, LinkCondition i s p.header p.forward y ∧ Machine.exec i s = .fault (.raised y s) := by
  obtain ⟨y, hy⟩ := hx
  obtain ⟨z, hz, hr⟩ := completeHeld_raises x.alone (x.links ▸ List.ne_nil_of_mem ((hC y).2 hy))
  refine ⟨z, (hC z).1 (x.links ▸ hz), ?_⟩
  rw [x.exec, stepB, hr]
  simp only [Stop.outcome, takeFault, x.undo hw]

theorem TakesStepB.refuses {r : Refusal} (x : TakesStepB i s p v) (h : completeHeld p v = .error (.refuse r)) :
    Machine.exec i s = .refused r := by
  rw [x.exec, stepB_refuses h]

end

/-! ## What step B refuses -/

section
variable {v : State} {e h f back : Word} {d : Dest} {L : List Word}

/-- An entry of the queue is not apart from the queue's elements. -/
theorem entryApart_of_mem {x : Word} (hm : e ∈ v.selfEntries h (h + f)) : entryApart e h f x v = false := by
  rw [Bool.eq_false_iff, Ne, entryApart_iff]
  rintro ⟨-, -, ha⟩
  simpa [elementsApart_irrefl] using ha e hm

/-- A destination that overlaps the header or an entry of the queue is not apart from the queue's elements. -/
theorem destApart_of_mem {elements : List Word} (hx : ∃ x ∈ h :: v.selfEntries h (h + f), d.apart x = false) :
    destApart d h f elements v = false := by
  rw [Bool.eq_false_iff, Ne, destApart_iff]
  rintro ⟨hh, -, ha⟩
  obtain ⟨x, hx, hd⟩ := hx
  obtain rfl | hx := List.mem_cons.1 hx
  · simp [hh] at hd
  · simp [ha x hx] at hd

theorem completeInsqhi_overlap (hE : v.insqhiLinks h f = []) (hm : e ∈ v.selfEntries h (h + f)) :
    completeInsqhi e h f v = .error (.refuse .overlap) := by
  simp only [completeInsqhi, hE, raiseAny_nil]
  rw [ok_bind, require_error.2 ⟨entryApart_of_mem hm, rfl⟩, error_bind]

theorem linkConditions_of_insqtiLinks (hb : v.mem.read4 (h + 4) = some back) :
    v.insqtiLinks h = v.linkConditions back (h + back) := by
  simp only [State.insqtiLinks, hb]

theorem completeInsqti_inconsistent (ha : v.alone = true) (hb : v.mem.read4 (h + 4) = some back)
    (hE : v.insqtiLinks h = []) (hc : ((f == 0) == (back == 0)) = false) :
    completeInsqti e h f v = .error (.refuse .inconsistentHeader) := by
  rw [linkConditions_of_insqtiLinks hb] at hE
  rw [completeInsqti, load_alone ha _ hb, ok_bind]
  dsimp only
  rw [hE, raiseAny_nil, ok_bind, require_error.2 ⟨hc, rfl⟩, error_bind]

theorem completeInsqti_overlap (ha : v.alone = true) (hb : v.mem.read4 (h + 4) = some back)
    (hE : v.insqtiLinks h = []) (hc : ((f == 0) == (back == 0)) = true) (hm : e ∈ v.selfEntries h (h + f)) :
    completeInsqti e h f v = .error (.refuse .overlap) := by
  rw [linkConditions_of_insqtiLinks hb] at hE
  rw [completeInsqti, load_alone ha _ hb, ok_bind]
  dsimp only
  rw [hE, raiseAny_nil, ok_bind, (require_ok (u := ())).2 hc, ok_bind,
    require_error.2 ⟨entryApart_of_mem hm, rfl⟩, error_bind]

/-- Two checks that refuse alike, the second of which fails. -/
theorem require_require {test test' : Bool} (h : test' = false) (r : Refusal) (k : Unit → Res State) :
    (require test r >>= fun _ => require test' r >>= k) = .error (.refuse r) := by
  subst h
  cases test <;> rfl

theorem completeRemqhi_overlap (ha : v.alone = true) (h0 : f ≠ 0) (hE : v.remqhiLinks h f = [])
    (hx : ∃ x ∈ h :: v.selfEntries h (h + f), d.apart x = false) :
    completeRemqhi h d f v = .error (.refuse .overlap) := by
  obtain ⟨hp, link, hl, hE⟩ := followConditions_nil (remqhiLinks_eq h0 ▸ hE)
  rw [completeRemqhi, (demand_ok (u := ())).2 hp, ok_bind, load_alone ha _ hl, ok_bind]
  dsimp only
  rw [hE, raiseAny_nil, ok_bind]
  exact require_require (destApart_of_mem hx) _ _

theorem completeRemqti_overlap (ha : v.alone = true) (h0 : f ≠ 0) (hE : v.remqtiTail h f back = [])
    (hx : ∃ x ∈ h :: v.selfEntries h (h + f), d.apart x = false) :
    completeRemqti h d f back v = .error (.refuse .overlap) := by
  obtain ⟨hp, link, hl, hE⟩ := followConditions_nil (remqtiTail_eq h0 ▸ hE)
  rw [completeRemqti, (demand_ok (u := ())).2 hp, ok_bind, load_alone ha _ hl, ok_bind]
  dsimp only
  rw [hE, raiseAny_nil, ok_bind]
  exact require_require (destApart_of_mem hx) _ _

/-- Whether the header's links agree, where memory holds the backward one (R105). -/
theorem consistentHeader_eq (hb : v.mem.read4 (h + 4) = some back) :
    consistentHeader v h f = ((f == 0) == (back == 0)) := by
  simp only [consistentHeader, hb]

theorem beq_zero_iff {f back : Word} : ((f == 0) == (back == 0)) = true ↔ (f = 0 ↔ back = 0) := by
  rw [beq_iff_eq, Bool.eq_iff_iff, beq_iff_eq, beq_iff_eq]

end

/-! ## The link conditions as lists -/

section
variable {a b : Specifier} {s : State} {h f back : Word}

/-- Past the check of its header's backward link REMQTI's conditions are those of the tail. -/
theorem mem_remqtiTail_of_aligned {x : Exception} (hb : s.mem.read4 (h + 4) = some back) (hba : aligned8 back = true) :
    x ∈ s.remqtiTail h f back ↔ LinkCondition (.remqti a b) s h f x := by
  rw [← mem_remqtiLinks, State.remqtiLinks]
  simp only [hb, mem_addCondition, unless_aligned, hba, Bool.true_eq_false, and_false, false_or]

/-- REMQTI without a link condition finds its header's backward link aligned. -/
theorem aligned_of_no_linkCondition (hb : s.mem.read4 (h + 4) = some back)
    (hn : ∀ x, ¬ LinkCondition (.remqti a b) s h f x) : aligned8 back = true := by
  by_contra hba
  exact hn .reservedOperand ⟨back, hb, .inl ⟨rfl, by simpa using hba⟩⟩

/-- Where no link condition holds the list of them is empty. -/
theorem eq_nil_of_no_linkCondition {i : Instr} {E : List Exception} (hE : ∀ x, x ∈ E ↔ LinkCondition i s h f x)
    (hn : ∀ x, ¬ LinkCondition i s h f x) : E = [] :=
  List.eq_nil_iff_forall_not_mem.2 fun x hx => hn x ((hE x).1 hx)

end

/-! ## Insertions that find the interlock clear -/

section
variable {a b : Specifier} {s t : State} {e h f : Word} (hp : s.cpu.pending = none) (ho : s.others = [])
  (he : evalInsertion .quad a b s = .ok (e, h, t)) (hf : s.mem.read4 h = some f) (hi : interlockSet f = false)
  (hn : ∀ x, ¬ InsertionCondition s e h f x) (ph : s.probe h 8 .write = none)
include hp ho he hf hi hn ph

theorem exec_insqhi_clear : exec (.insqhi a b) s =
    if consistentHeader s h f = true then afterStepA s (hold s (.insqhi e) h f t)
    else .refused .inconsistentHeader := by
  have ev := (evalInsertion_ok he).1
  rw [exec_insqhi hp he, acquireInsqhi_clear (ev.acquireInsertion ho ph hf hi hn), ev.consistentHeader]
  split <;> rfl

theorem exec_insqti_clear : exec (.insqti a b) s = afterStepA s (hold s (.insqti e) h f t) := by
  have ev := (evalInsertion_ok he).1
  rw [exec_insqti hp he, acquireInsqti_clear (ev.acquireInsertion ho ph hf hi hn)]

/-- An entry that is in a well-formed queue is refused by INSQHI where it finds no exception condition (D20). -/
theorem exec_insqhi_overlap {L : List Word} (hq : SRQueue s.mem h L = true) (hm : e ∈ L) (ht : s.inText h 4 = false)
    (hl : ∀ x, ¬ LinkCondition (.insqhi a b) s h f x) : exec (.insqhi a b) s = .refused .overlap := by
  obtain ⟨hh, -, hfa, -⟩ := insertion_aligned hi hn
  have hex := exec_insqhi_clear hp ho he hf hi hn ph
  rw [if_pos (consistentHeader_of_queue hq hf)] at hex
  obtain ⟨v, x⟩ := (evalInsertion_ok he).1.takesStepB hp ho hf hh hfa ht (by simp) hex
  have hE : v.insqhiLinks h f = [] := x.links.trans (eq_nil_of_no_linkCondition (fun _ => mem_insqhiLinks) hl)
  exact x.refuses (completeInsqhi_overlap hE (x.walk L hq ▸ hm))

/-- What INSQTI refuses in step B where it finds no exception condition: an inconsistent header, and an entry that is
in a well-formed queue (D15, D20). -/
theorem exec_insqti_refuses (ht : s.inText h 4 = false) (hl : ∀ x, ¬ LinkCondition (.insqti a b) s h f x) :
    (consistentHeader s h f = false → exec (.insqti a b) s = .refused .inconsistentHeader) ∧
      ∀ L, SRQueue s.mem h L = true → e ∈ L → exec (.insqti a b) s = .refused .overlap := by
  obtain ⟨hh, -, hfa, -⟩ := insertion_aligned hi hn
  obtain ⟨back, hb⟩ := read4_second_of_probe ph
  obtain ⟨v, x⟩ := (evalInsertion_ok he).1.takesStepB hp ho hf hh hfa ht (by simp)
    (exec_insqti_clear hp ho he hf hi hn ph)
  have hE : v.insqtiLinks h = [] := x.links.trans (eq_nil_of_no_linkCondition (fun _ => mem_insqtiLinks) hl)
  have hbv : v.mem.read4 (h + 4) = some back := x.backward.trans hb
  refine ⟨fun hc => ?_, fun L hq hm => ?_⟩
  · exact x.refuses (completeInsqti_inconsistent x.alone hbv hE (consistentHeader_eq hb ▸ hc))
  · have hc := consistentHeader_of_queue hq hf
    rw [consistentHeader_eq hb] at hc
    exact x.refuses (completeInsqti_overlap x.alone hbv hE hc (x.walk L hq ▸ hm))

end

/-! ## Removals that find the interlock clear -/

/-- A removal from an empty queue ends in step A with the refusal of an `addr` that overlaps the header. -/
theorem afterStepA_removeFromEmpty {t : State} {h link : Word} {d : Dest} (hd : d.apart h = false) (start : State) :
    afterStepA start (removeFromEmpty h d link t) = .refused .overlap := by
  rw [removeFromEmpty, require_error.2 ⟨hd, rfl⟩]
  rfl

/-- A removal that has come to phase 3 refuses an `addr` that overlaps an element of a well-formed queue: at once where
the queue is empty, else where its step B does (D20). -/
theorem Evaluates.removal_overlap {l : List Reg} {n : Nat} {s t : State} {i : Instr} {op : HeldOp} {h f link : Word}
    {d : Dest} {L : List Word} (ev : Evaluates l n s t) (hp : s.cpu.pending = none) (ho : s.others = [])
    (hf : s.mem.read4 h = some f) (hh : aligned8 h = true) (hfa : aligned8 f = true) (hq : SRQueue s.mem h L = true)
    (hx : ∃ x ∈ h :: L, d.apart x = false) (ht : L = [] ∨ s.inText h 4 = false)
    (hb : ∀ d back, op = .remqti d back → aligned8 back = true)
    (hex : exec i s = afterStepA s (if f = 0 then removeFromEmpty h d link t else hold s op h f t))
    (hB : ∀ v, TakesStepB i s ⟨op, h, f, s.cpu.regs⟩ v → f ≠ 0 →
      (∃ x ∈ h :: v.selfEntries h (h + f), d.apart x = false) →
      completeHeld ⟨op, h, f, s.cpu.regs⟩ v = .error (.refuse .overlap)) : exec i s = .refused .overlap := by
  obtain ⟨hL, -, h0, -⟩ := srQueue_links hq
  rw [Option.some.inj (hL.symm.trans hf)] at h0
  by_cases hempty : L = []
  · rw [if_pos (h0.2 hempty)] at hex
    subst hempty
    exact hex.trans (afterStepA_removeFromEmpty (by simpa using hx) s)
  · rw [if_neg (mt h0.1 hempty)] at hex
    obtain ⟨v, x⟩ := ev.takesStepB hp ho hf hh hfa (ht.resolve_left hempty) hb hex
    exact x.refuses (hB v x (mt h0.1 hempty) ((x.walk L hq).symm ▸ hx))

section
variable {a b : Specifier} {s t : State} {h f back : Word} {d : Dest} (hp : s.cpu.pending = none) (ho : s.others = [])
  (he : evalRemoval .quad a b s = .ok (h, d, t)) (hf : s.mem.read4 h = some f) (hi : interlockSet f = false)
  (hn : ∀ x, ¬ RemovalCondition s h d f x) (ph : s.probe h 8 .write = none)
include hp ho he hf hi hn ph

theorem exec_remqhi_clear : exec (.remqhi a b) s =
    if consistentHeader s h f = true then
      afterStepA s (if f = 0 then removeFromEmpty h d h t else hold s (.remqhi d) h f t)
    else .refused .inconsistentHeader := by
  have ev := (evalRemoval_ok he).1
  rw [exec_remqhi hp he, acquireRemqhi_clear (ev.acquireRemoval ho ph hf hi hn), ev.consistentHeader]
  split <;> rfl

theorem exec_remqti_clear (hb : s.mem.read4 (h + 4) = some back) (hba : aligned8 back = true) :
    exec (.remqti a b) s =
      if consistentHeader s h f = true then
        afterStepA s (if f = 0 then removeFromEmpty h d (h + 4) t else hold s (.remqti d back) h f t)
      else .refused .inconsistentHeader := by
  have ev := (evalRemoval_ok he).1
  have hc : consistentHeader s h f = true ↔ (f = 0 ↔ back = 0) := by rw [consistentHeader_eq hb, beq_zero_iff]
  rw [exec_remqti hp he, (acquireRemqti_clear (ev.acquireRemoval ho ph hf hi hn)
    (load_alone (ev.isAlone ho) (some h) (ev.mem ▸ hb))).1 hba]
  simp only [hc]
  split <;> rfl

/-- REMQTI raises in step A where its header's backward link is misaligned (R151, R182). -/
theorem exec_remqti_misaligned (hb : s.mem.read4 (h + 4) = some back) (hba : aligned8 back = false) :
    ∃ x, LinkCondition (.remqti a b) s h f x ∧ exec (.remqti a b) s = .fault (.raised x s) := by
  have ev := (evalRemoval_ok he).1
  obtain ⟨x, hx, hr⟩ := (acquireRemqti_clear (start := s) (ev.acquireRemoval ho ph hf hi hn)
    (load_alone (ev.isAlone ho) (some h) (ev.mem ▸ hb))).2 hba
  refine ⟨x, ?_, by rw [exec_remqti hp he, hr]; rfl⟩
  rw [← ev.linkCondition]
  refine ⟨back, ev.mem ▸ hb, ?_⟩
  obtain rfl | hx := List.mem_cons.1 hx
  · exact .inl ⟨rfl, hba⟩
  · exact .inr (mem_remqtiTail.1 hx)

/-- An `addr` that shares a byte with an element of a well-formed queue is refused by REMQHI where it finds no
exception condition (D20). -/
theorem exec_remqhi_overlap {L : List Word} (hq : SRQueue s.mem h L = true) (hx : ∃ x ∈ h :: L, d.apart x = false)
    (ht : L = [] ∨ s.inText h 4 = false) (hl : ∀ x, ¬ LinkCondition (.remqhi a b) s h f x) :
    exec (.remqhi a b) s = .refused .overlap := by
  obtain ⟨hh, hfa⟩ := removal_aligned hi hn
  have hex := exec_remqhi_clear hp ho he hf hi hn ph
  rw [if_pos (consistentHeader_of_queue hq hf)] at hex
  refine (evalRemoval_ok he).1.removal_overlap hp ho hf hh hfa hq hx ht (by simp) hex fun v x h0 hx => ?_
  exact completeRemqhi_overlap x.alone h0
    (x.links.trans (eq_nil_of_no_linkCondition (fun _ => mem_remqhiLinks) hl)) hx

/-- The same of REMQTI. -/
theorem exec_remqti_overlap {L : List Word} (hq : SRQueue s.mem h L = true) (hx : ∃ x ∈ h :: L, d.apart x = false)
    (ht : L = [] ∨ s.inText h 4 = false) (hl : ∀ x, ¬ LinkCondition (.remqti a b) s h f x) :
    exec (.remqti a b) s = .refused .overlap := by
  obtain ⟨hh, hfa⟩ := removal_aligned hi hn
  obtain ⟨back, hb⟩ := read4_second_of_probe ph
  have hba := aligned_of_no_linkCondition hb hl
  have hex := exec_remqti_clear hp ho he hf hi hn ph hb hba
  rw [if_pos (consistentHeader_of_queue hq hf)] at hex
  refine (evalRemoval_ok he).1.removal_overlap hp ho hf hh hfa hq hx ht (by simpa using hba) hex fun v x h0 hx => ?_
  exact completeRemqti_overlap x.alone h0
    (x.links.trans (eq_nil_of_no_linkCondition (fun _ => mem_remqtiTail_of_aligned hb hba) hl)) hx

end

/-! ## Settling -/

/-- Settles O32: a misaligned backward link stops REMQTI in step A; every other link condition is raised in step B,
which restores the header. -/
theorem linkConditionFaults : Obligations.LinkConditionFaults := by
  intro a b s t h f hw hp ho hf hi ph hwr faults
  have ht : s.inText h 4 = false := by simpa [State.writable] using hwr
  refine ⟨fun e he hn => ?_, fun d he hn => ?_⟩
  · have ev := (evalInsertion_ok he).1
    obtain ⟨hh, -, hfa, -⟩ := insertion_aligned hi hn
    refine ⟨fun hc => ?_, ?_⟩
    · have hx := exec_insqhi_clear hp ho he hf hi hn ph
      rw [if_pos hc] at hx
      obtain ⟨v, x⟩ := ev.takesStepB hp ho hf hh hfa ht (by simp) hx
      exact x.faults hw fun y => mem_insqhiLinks
    · obtain ⟨v, x⟩ := ev.takesStepB hp ho hf hh hfa ht (by simp) (exec_insqti_clear hp ho he hf hi hn ph)
      exact x.faults hw fun y => mem_insqtiLinks
  · have ev := (evalRemoval_ok he).1
    obtain ⟨hh, hfa⟩ := removal_aligned hi hn
    refine ⟨fun hc hx => ?_, fun back hb hcb hx => ?_⟩
    · have hex := exec_remqhi_clear hp ho he hf hi hn ph
      have h0 : f ≠ 0 := hx.choose_spec.1
      rw [if_pos hc, if_neg h0] at hex
      obtain ⟨v, x⟩ := ev.takesStepB hp ho hf hh hfa ht (by simp) hex
      exact x.faults hw (fun y => mem_remqhiLinks) hx
    · cases hba : aligned8 back with
      | false => exact exec_remqti_misaligned hp ho he hf hi hn ph hb hba
      | true =>
        have hC (y : Exception) : y ∈ s.remqtiTail h f back ↔ LinkCondition (.remqti a b) s h f y :=
          mem_remqtiTail_of_aligned hb hba
        have hex := exec_remqti_clear hp ho he hf hi hn ph hb hba
        obtain ⟨y, hy⟩ := hx
        have h0 : f ≠ 0 := (mem_remqtiTail.1 ((hC y).2 hy)).1
        rw [if_pos (hcb.resolve_right (by simp [hba])), if_neg h0] at hex
        obtain ⟨v, x⟩ := ev.takesStepB hp ho hf hh hfa ht (by simpa using hba) hex
        exact x.faults hw hC ⟨y, hy⟩

/-- An instruction that would set the interlock of a header in program text is refused (R51, D18). -/
theorem Evaluates.afterStepA_hold_text {l : List Reg} {n : Nat} {s t : State} {h f : Word}
    (ev : Evaluates l n s t) (ht : s.inText h 4 = true) (op : HeldOp) :
    afterStepA s (hold s op h f t) = .refused (.programTextStore h) := by
  rw [hold_refuses ((ev.inText ..).trans ht)]
  rfl

/-- Settles O33: phase 3 refuses a header in program text, and the links and elements are looked at before it or in
step B. -/
theorem refusedPreconditions : Obligations.RefusedPreconditions := by
  intro a b s t h f hp ho hf hi ph unlessLink
  refine ⟨fun e he hn => ⟨fun ht => ?_, fun hc => ?_, fun L hq hm ht => ?_⟩,
    fun d he hn => ⟨fun ht hc h0 => ?_, fun hc => ?_, fun L hq hx ht => ?_⟩⟩
  · have ev := (evalInsertion_ok he).1
    rw [exec_insqhi_clear hp ho he hf hi hn ph, exec_insqti_clear hp ho he hf hi hn ph]
    exact ⟨fun hc => (if_pos hc).trans (ev.afterStepA_hold_text ht _), ev.afterStepA_hold_text ht _⟩
  · refine ⟨?_, fun ht hl => (exec_insqti_refuses hp ho he hf hi hn ph ht hl).1 hc⟩
    rw [exec_insqhi_clear hp ho he hf hi hn ph, hc, if_neg Bool.false_ne_true]
  · exact ⟨exec_insqhi_overlap hp ho he hf hi hn ph hq hm ht,
      fun hl => (exec_insqti_refuses hp ho he hf hi hn ph ht hl).2 L hq hm⟩
  · have ev := (evalRemoval_ok he).1
    obtain ⟨back, hb⟩ := read4_second_of_probe ph
    refine ⟨?_, fun hl => ?_⟩
    · rw [exec_remqhi_clear hp ho he hf hi hn ph, if_pos hc, if_neg h0, ev.afterStepA_hold_text ht]
    · rw [exec_remqti_clear hp ho he hf hi hn ph hb (aligned_of_no_linkCondition hb hl), if_pos hc, if_neg h0,
        ev.afterStepA_hold_text ht]
  · obtain ⟨back, hb⟩ := read4_second_of_probe ph
    refine ⟨?_, fun hl => ?_⟩
    · rw [exec_remqhi_clear hp ho he hf hi hn ph, hc, if_neg Bool.false_ne_true]
    · rw [exec_remqti_clear hp ho he hf hi hn ph hb (aligned_of_no_linkCondition hb hl), hc,
        if_neg Bool.false_ne_true]
  · exact ⟨exec_remqhi_overlap hp ho he hf hi hn ph hq hx ht, exec_remqti_overlap hp ho he hf hi hn ph hq hx ht⟩

end Sys2Proof.Machine
end

section
/-! Removals that complete (spec/42_queue_remove.md R150, R151, R152): what the links and `addr` read as, the bytes
stored to, an interlocked removal from an empty queue (R109), and the bytes every answer of REMQHI and REMQTI leaves
alone (spec/20_memory.md R45). -/

namespace Sys2Proof.Machine

/-! ## The bytes stored to -/

theorem headRemoved_sameOutside (m : Memory) (h f link : Word) :
    sameOutside m (headRemoved m h f link) [(h + f + link + 4, 4), (h, 4)] := by
  have lock := (sameOutside_refl m [(h + f + link + 4, 4), (h, 4)]).long (a := h) (by simp) (f ||| 1)
  exact (lock.long (a := h + f + link + 4) (by simp) _).long (by simp) _

theorem tailUnlinked_sameOutside (m : Memory) (h f back link : Word) :
    sameOutside m (tailUnlinked m h f back link) [(h + back + link, 4), (h, 8)] := by
  have lock := (sameOutside_refl m [(h + back + link, 4), (h, 8)]).forward (a := h) (by simp) (f ||| 1)
  exact (lock.long (a := h + back + link) (by simp) _).backward (by simp) _

theorem tailRemoved_sameOutside (m : Memory) (h f back link : Word) :
    sameOutside m (tailRemoved m h f back link) [(h + back + link, 4), (h, 8)] := by
  have unlinked := tailUnlinked_sameOutside m h f back link
  rw [tailRemoved]
  split
  · exact unlinked
  · exact unlinked.forward (by simp) f

/-- Changes inside the ranges, and then a destination written. -/
theorem sameOutside.thenDest {m m' m'' : Memory} {l : List (Word × Nat)} {d : Dest} (k : sameOutside m m' l)
    (k' : sameOutside m' m'' (destRange d)) : sameOutside m m'' (l ++ destRange d) :=
  sameOutside_trans (sameOutside_mono k fun r hr _ hx => ⟨r, List.mem_append_left _ hr, hx⟩)
    (sameOutside_mono k' fun r hr _ hx => ⟨r, List.mem_append_right _ hr, hx⟩)

/-! ## Memory frames -/

section
variable {start s u : State} {h f back link : Word} {d : Dest}

/-- A removal that found the queue empty stores to its destination only. -/
theorem FoundEmpty.sameOutside {v : State} (r : Reads h s v) (x : FoundEmpty h d v u) :
    sameOutside s.mem u.mem (destRange d) := by
  obtain ⟨w, w', hw, hd, hu⟩ := x.dest
  rw [hu, ← r.mem, ← hw]
  exact (writeDest_frame hd).1

theorem afterStepA_remqhi_sameOutside (hp : s.cpu.pending = none) (hf : s.mem.read4 h = some f)
    (hl : s.mem.read4 (h + f) = some link) (x : afterStepA start (acquireRemqhi start h d s) = .next u) :
    sameOutside s.mem u.mem ([(h + f + link + 4, 4), (h, 4)] ++ destRange d) := by
  refine afterStepA_sameOutside (fun t ht => ?_) (fun t p v ht hq hv => ?_) x
  · obtain found | ⟨-, ⟨f', -, held⟩ | ⟨w, r, found⟩⟩ := acquireRemqhi_ok ht
    · exact sameOutside_of_eq _ found.mem
    · rw [held.mem]
      exact (sameOutside_refl _ _).long (by simp) _
    · exact (sameOutside_refl _ _).thenDest (found.sameOutside r)
  · obtain found | ⟨-, ⟨f', h0, held⟩ | ⟨w, r, found⟩⟩ := acquireRemqhi_ok ht
    · exact absurd hq (found.not_pending hp)
    · obtain rfl : f' = f := Option.some.inj (held.read.symm.trans hf)
      obtain rfl := held.pending_eq hq
      obtain ⟨link', hl', -, -, w, w', hw, hd, hm⟩ := completeRemqhi_ok hv
      have hfa := aligned_of_clear held.clear held.low
      have apart := (aligned_apart held.aligned (aligned_add held.aligned hfa) (by bv_omega)).1
      rw [held.mem, read4_write4_apart _ _ apart, hl] at hl'
      obtain rfl := Option.some.inj hl'
      have removed := headRemoved_sameOutside s.mem h f' link
      rw [hm]
      rw [headRemoved, ← held.mem, ← hw] at removed
      exact removed.thenDest (writeDest_frame hd).1
    · simp [found.writes.pending, r.pending, hp] at hq

theorem afterStepA_remqti_sameOutside (hp : s.cpu.pending = none) (hb : s.mem.read4 (h + 4) = some back)
    (hl : s.mem.read4 (h + back + 4) = some link) (x : afterStepA start (acquireRemqti start h d s) = .next u) :
    sameOutside s.mem u.mem ([(h + back + link, 4), (h, 8)] ++ destRange d) := by
  refine afterStepA_sameOutside (fun t ht => ?_) (fun t p v ht hq hv => ?_) x
  · obtain found | ⟨-, ⟨f, back', -, -, -, -, held⟩ | ⟨w, r, found⟩⟩ := acquireRemqti_ok ht
    · exact sameOutside_of_eq _ found.mem
    · rw [held.mem]
      exact (sameOutside_refl _ _).forward (by simp) _
    · exact (sameOutside_refl _ _).thenDest (found.sameOutside r)
  · obtain found | ⟨-, ⟨f, back', -, hb', hba, -, held⟩ | ⟨w, r, found⟩⟩ := acquireRemqti_ok ht
    · exact absurd hq (found.not_pending hp)
    · obtain rfl : back' = back := Option.some.inj (hb'.symm.trans hb)
      obtain rfl := held.pending_eq hq
      obtain ⟨link', hl', -, -, m, w, w', hM, hw, hd, hm⟩ := completeRemqti_ok hv
      have apart := aligned_second_apart held.aligned (aligned_add held.aligned hba)
      rw [held.mem, read4_write4_apart _ _ apart, hl] at hl'
      obtain rfl := Option.some.inj hl'
      have removed := tailRemoved_sameOutside s.mem h f back' link
      rw [hm]
      rw [tailRemoved, tailUnlinked, ← held.mem, ← hM, ← hw] at removed
      exact removed.thenDest (writeDest_frame hd).1
    · simp [found.writes.pending, r.pending, hp] at hq

end

/-- Settles O42: an answer is step A alone, which sets the interlock at most or takes nothing, or step B after it. -/
theorem interlockedRemovalMemoryFrame : Obligations.InterlockedRemovalMemoryFrame := by
  intro a b s t u h link d hp he
  have ev := (evalRemoval_ok he).1
  have ht := ev.pending.trans hp
  rw [exec_remqhi hp he, exec_remqti hp he, ← ev.mem]
  exact ⟨fun f => afterStepA_remqhi_sameOutside ht, fun back => afterStepA_remqti_sameOutside ht⟩

/-! ## A destination written and the codes set -/

theorem afterDest_sameOutside (s : State) (d : Dest) (v : Word) :
    sameOutside s.mem (s.afterDest d v).mem (destRange d) := by
  cases d with
  | reg n => exact sameOutside_refl s.mem _
  | mem a => exact (sameOutside_refl s.mem _).long (List.mem_singleton_self _) v

theorem afterDest_reg {d : Dest} {n : Reg} (h : d ≠ .reg n) (s : State) (v : Word) :
    (s.afterDest d v).reg n = s.reg n := by
  cases d with
  | reg k => exact setReg_reg_ne s v fun e => h (e ▸ rfl)
  | mem a => rfl

theorem afterDest_pending (s : State) (d : Dest) (v : Word) : (s.afterDest d v).cpu.pending = s.cpu.pending := by
  cases d <;> rfl

theorem afterDest_touched (s : State) (d : Dest) (v : Word) : (s.afterDest d v).cpu.touched = s.cpu.touched := by
  cases d <;> rfl

/-- What the end of a removal makes of a state with the links changed: the destination and the codes, no more. -/
theorem afterDest_setCC_frame {t : State} {d : Dest} {m m' : Memory} {psl : Word} {l : List (Word × Nat)}
    (hd : d ≠ .reg pcReg) (hs : t.cpu.psl = psl) (k : sameOutside m m' l) (x : Word) (n z v c : Bool) :
    let u := (State.afterDest { t with mem := m' } d x).setCC n z v c
    u.destValue d = some x ∧ sameOutside m u.mem (l ++ destRange d) ∧
      (∀ i, i ≠ pcReg → d ≠ .reg i → u.reg i = t.reg i) ∧ u.pc = t.pc ∧
      u = { t with mem := u.mem, cpu := { t.cpu with regs := u.cpu.regs, psl := withCC psl n z v c } } := by
  refine ⟨?_, k.thenDest (afterDest_sameOutside _ d x), fun _ _ h => afterDest_reg h _ x, afterDest_reg hd _ x, ?_⟩
  · rw [destValue_setCC, afterDest_destValue]
  · subst hs
    cases d <;> rfl

/-! ## Removals from a queue that is not empty -/

section
variable {m : Memory} {h f back link : Word} {d : Dest}

theorem forall_mem_pair {x y : Word} (hx : d.apart x = true) (hy : d.apart y = true) : ∀ w ∈ [x, y], d.apart w = true :=
  List.forall_mem_cons.2 ⟨hx, List.forall_mem_singleton.2 hy⟩

/-- What the two links read as after REMQHI (R150). -/
theorem headRemoved_links (t : State) (hh : aligned8 h = true) (hq : aligned8 (h + f + link) = true)
    (dh : d.apart h = true) (dq : d.apart (h + f + link) = true) (x : Word) :
    let m' := (State.afterDest { t with mem := headRemoved m h f link } d x).mem
    m'.read4 (h + f + link + 4) = some (h - (h + f + link)) ∧ m'.read4 h = some (f + link) := by
  have first : h ∈ [h, h + f + link] := List.mem_cons_self ..
  have second : h + f + link ∈ [h, h + f + link] := List.mem_pair.2 (.inr rfl)
  obtain ⟨-, forward, backward⟩ := (headRemoved_joins (m := m) (tidy_of_aligned (by simp [hh, hq])) first
    second).afterDest (t := t) first second (forall_mem_pair dh dq) x
  have hx : displacement h (h + f + link) = f + link := by
    rw [displacement]
    bv_omega
  exact ⟨backward, hx ▸ forward⟩

/-- What the two links, and the header's forward link, read as after REMQTI (R151). -/
theorem tailRemoved_links (t : State) (hf : m.read4 h = some f) (hh : aligned8 h = true)
    (hp : aligned8 (h + back + link) = true) (dh : d.apart h = true) (dp : d.apart (h + back + link) = true)
    (x : Word) : let m' := (State.afterDest { t with mem := tailRemoved m h f back link } d x).mem
    m'.read4 (h + back + link) = some (h - (h + back + link)) ∧ m'.read4 (h + 4) = some (back + link) ∧
      (back + link ≠ 0 → m'.read4 h = some f) := by
  have first : h ∈ [h, h + back + link] := List.mem_cons_self ..
  have second : h + back + link ∈ [h, h + back + link] := List.mem_pair.2 (.inr rfl)
  obtain ⟨kept, forward, backward⟩ := (tailRemoved_joins (tidy_of_aligned (by simp [hh, hp])) first second
    hf).afterDest (t := t) second first (forall_mem_pair dh dp) x
  have hx : displacement h (h + back + link) = back + link := by
    rw [displacement]
    bv_omega
  exact ⟨forward, hx ▸ backward, fun hz => (kept.forward h first (by bv_omega)).trans hf⟩

end

/-- Settles O24: the header and the second element are linked to each other, and then `addr` is written. -/
theorem remqhiResult : Obligations.RemqhiResult := by
  intro a b s t h f link d hp ho he hf hi hn h0 hl hla hl0 ph pe pq hc dh dq ds hd hw
  obtain ⟨ev, -, -, hpc, -⟩ := evalRemoval_ok he
  obtain ⟨hh, hfa⟩ := removal_aligned hi hn
  obtain ⟨l1, l2⟩ := headRemoved_links (m := s.mem) t hh (aligned_add (aligned_add hh hfa) hla) dh dq (h + f)
  exact ⟨_, exec_remqhi_alone hp ho he hf hi hn h0 hl hla hl0 ph pe pq hc dh dq ds hd hw, l1, l2,
    afterDest_setCC_frame hpc ev.psl (headRemoved_sameOutside s.mem h f link) ..⟩

/-- Settles O25: likewise the last element but one and the header, whose forward link is kept unless it is that
element's. -/
theorem remqtiResult : Obligations.RemqtiResult := by
  intro a b s t h f back link d hp ho he hf hi hn h0 hb hba hb0 hl hla hl0 ph pe pq dh de dq ds hd hw
  obtain ⟨ev, -, -, hpc, -⟩ := evalRemoval_ok he
  obtain ⟨hh, -⟩ := removal_aligned hi hn
  obtain ⟨l1, l2, l3⟩ := tailRemoved_links t hf hh (aligned_add (aligned_add hh hba) hla) dh dq (h + back)
  exact ⟨_, exec_remqti_alone hp ho he hf hi hn h0 hb hba hb0 hl hla hl0 ph pe pq dh de dq ds hd hw, l1, l2, l3,
    afterDest_setCC_frame hpc ev.psl (tailRemoved_sameOutside s.mem h f back link) ..⟩

/-- The elements beside an entry of a well-formed queue are elements of it (R103). -/
theorem absQueue_neighbours_mem {m : Memory} {e f back : Word} {L : List Word} (hq : AbsQueue m e L = true)
    (hf : m.read4 e = some f) (hb : m.read4 (e + 4) = some back) : f ∈ e :: L ∧ back ∈ e :: L := by
  have hc := (absQueue_iff.1 hq).2
  obtain rfl : L.headD e = f := Option.some.inj ((absChain_forward hc).symm.trans hf)
  obtain rfl : L.getLastD e = back := Option.some.inj ((absChain_backward hc).symm.trans hb)
  exact ⟨headD_mem_cons L e, List.getLastD_mem_cons⟩

/-- Settles O35: the elements beside the entry are linked to each other, and then `addr` is written. -/
theorem remqueResult : Obligations.RemqueResult := by
  intro a b s t e f back d L ho he hf hb pe pb pf hq hd hw hs
  obtain ⟨ev, -, -, hpc, -⟩ := evalRemoval_ok he
  obtain ⟨mf, mb⟩ := absQueue_neighbours_mem hq hf hb
  obtain ⟨-, forward, backward⟩ := (neighboursLinked_joins (m := s.mem) (absQueue_tidy hq) mb mf).afterDest (t := t) mb
    mf hd e
  exact ⟨_, exec_remque_alone ho he hq hd hf hb pe pb pf hw hs, forward, backward,
    afterDest_setCC_frame hpc ev.psl (neighboursLinked_sameOutside s.mem f back) ..⟩

/-! ## Interlocked removals from an empty queue

Step A is all of the instruction, so other processors may be about: its reads, and the write of a destination in
memory, go on record (R109; log 14). -/

/-- `t` is `s` but for the record of accesses, which a processor that is alone does not keep. -/
structure Recorded (s t : State) : Prop where
  only : OnlyTouched s t
  alone : s.alone = true → t.cpu.touched = s.cpu.touched

section
variable {s t u : State} {header link v : Word} {d : Dest}

theorem Recorded.refl (s : State) : Recorded s s := ⟨rfl, fun _ => rfl⟩

theorem Recorded.trans (x : Recorded s t) (y : Recorded t u) : Recorded s u where
  only := x.only.trans y.only
  alone ha := by
    have ht : t.alone = true := by
      rw [x.only]
      exact ha
    exact (y.alone ht).trans (x.alone ha)

theorem Recorded.raceFreeDest (x : Recorded s t) (d : Dest) : t.raceFreeDest d = s.raceFreeDest d := by
  rw [x.only]
  cases d <;> rfl

theorem Recorded.acceptsDest (x : Recorded s t) (d : Dest) : t.acceptsDest d = s.acceptsDest d := by
  rw [x.only]
  cases d <;> rfl

theorem recorded_of_touch {x : Touch} (e : s.touch x = .ok t) : Recorded s t := by
  obtain ⟨rfl, -⟩ | ⟨hn, -, rfl⟩ := touch_ok e
  · exact .refl _
  · exact ⟨rfl, fun ha => by simp [ha] at hn⟩

/-- Phase 2 on a header whose interlock is clear, with no condition and nothing on record that races with it. -/
theorem acquire_recorded {f : Word} (hr : s.raceFree (some header) header = true)
    (hp : s.probe header 8 .write = none) (hm : s.mem.read4 header = some f) (hi : interlockSet f = false)
    (hf : field f 1 2 = 0) : ∃ t, Recorded s t ∧ ∀ links, acquire header [] links s = .ok (some f, t) := by
  obtain ⟨t, ho, hacq⟩ := acquire_clear_raceFree hr hp hm hi hf
  obtain ⟨-, -, -, -, -, -, -, -, ha, -⟩ := acquire_ok (hacq fun _ => [])
  exact ⟨t, ⟨ho, ha⟩, hacq⟩

/-- A destination is written where it may be and nothing on record races with that. -/
theorem writeDest_raceFree (hr : s.raceFreeDest d = true) (hw : s.acceptsDest d = true) (v : Word) :
    ∃ t, Recorded s t ∧ s.writeDest d v = .ok (t.afterDest d v) := by
  cases d with
  | reg n => exact ⟨s, .refl s, rfl⟩
  | mem a =>
    obtain ⟨t, ht, -, -⟩ := touch_raceFree (a := a) hr
    have text := (acceptsDest_mem.1 hw).2
    exact ⟨t, recorded_of_touch ht, by simp [State.writeDest, State.store, text, require, ht, State.afterDest]⟩

/-- A removal that finds the queue empty, where nothing on record races with it (R150, R151, D16). -/
theorem removeFromEmpty_raceFree (hd : d.apart header = true) (hr : s.raceFree (some header) link = true)
    (hm : s.mem.read4 link = some v) (hrd : s.raceFreeDest d = true) (hw : s.acceptsDest d = true) :
    ∃ t, Recorded s t ∧
      removeFromEmpty header d link s = .ok ((t.afterDest d header).setCC false (v == 0) true false) := by
  obtain ⟨w, hl, ho, ha⟩ := load_raceFree hr hm
  have read : Recorded s w := ⟨ho, ha⟩
  obtain ⟨t, wrote, ht⟩ := writeDest_raceFree ((read.raceFreeDest d).trans hrd) ((read.acceptsDest d).trans hw) header
  refine ⟨t, read.trans wrote, ?_⟩
  rw [removeFromEmpty, (require_ok (u := ())).2 hd, ok_bind, hl, ok_bind]
  dsimp only
  rw [ht, ok_bind]

theorem Evaluates.raceFreeDest {l : List Reg} {n : Nat} (ev : Evaluates l n s t) (d : Dest) :
    t.raceFreeDest d = s.raceFreeDest d := by
  cases d with
  | reg k => rfl
  | mem a => exact ev.raceFree none a

/-- Step A that goes on from its reads to find the queue empty is all of the instruction (R109). -/
theorem Evaluates.removesNothing {l : List Reg} {n : Nat} (ev : Evaluates l n s t) (hp : s.cpu.pending = none)
    (reads : Recorded t u) (hd : d.apart header = true) (hr : s.raceFree (some header) link = true)
    (hm : s.mem.read4 link = some 0) (hrd : s.raceFreeDest d = true) (hw : s.acceptsDest d = true) :
    ∃ w, Recorded t w ∧ afterStepA s (removeFromEmpty header d link u) =
      .next ((w.afterDest d header).setCC false true true false) := by
  obtain ⟨w, wrote, hx⟩ := removeFromEmpty_raceFree hd
    (((reads.only.raceFree ..).trans (ev.raceFree ..)).trans hr) ((reads.only.mem.trans ev.mem) ▸ hm)
    (((reads.raceFreeDest d).trans (ev.raceFreeDest d)).trans hrd)
    (((reads.acceptsDest d).trans (ev.acceptsDest d)).trans hw)
  have all := reads.trans wrote
  have idle : w.cpu.pending = none := by
    rw [all.only]
    exact ev.pending.trans hp
  refine ⟨w, all, ?_⟩
  rw [hx, afterStepA]
  simp only [setCC_pending, afterDest_pending, idle]
  rfl

end

/-- REMQHI and REMQTI on an empty queue: step A goes on to `removeFromEmpty` after its reads. -/
theorem exec_removal_empty {a b : Specifier} {s t : State} {h : Word} {d : Dest} {i : Instr}
    (hp : s.cpu.pending = none) (he : evalRemoval .quad a b s = .ok (h, d, t)) (hf : s.mem.read4 h = some 0)
    (hb : s.mem.read4 (h + 4) = some 0) (hn : ∀ x, ¬ RemovalCondition s h d 0 x) (ph : s.probe h 8 .write = none)
    (hd : d.apart h = true) (hw : s.acceptsDest d = true) (hr : s.raceFree (some h) h = true)
    (hrd : s.raceFreeDest d = true)
    (hi : i = .remqhi a b ∨ i = .remqti a b ∧ s.raceFree (some h) (h + 4) = true) :
    ∃ w, Recorded t w ∧ exec i s = .next ((w.afterDest d h).setCC false true true false) := by
  have ev := (evalRemoval_ok he).1
  obtain ⟨hE, hl⟩ := removalConditions_of_none hn
  obtain ⟨u, found, hacq⟩ := acquire_recorded ((ev.raceFree ..).trans hr) ((ev.probe ..).trans ph) (ev.mem ▸ hf) rfl hl
  rw [← hE, ← ev.removalConditions] at hacq
  have hbu : u.mem.read4 (h + 4) = some 0 := by rw [found.only.mem, ev.mem, hb]
  obtain rfl | ⟨rfl, hr4⟩ := hi
  · have hc : consistentHeader u h 0 = true := by
      rw [consistentHeader, hbu]
      rfl
    rw [exec_remqhi hp he, acquireRemqhi_clear hacq, if_pos hc, if_pos rfl]
    exact ev.removesNothing hp found hd hr hf hrd hw
  · obtain ⟨v, hv, ho, ha⟩ := load_raceFree (((found.only.raceFree ..).trans (ev.raceFree ..)).trans hr4) hbu
    rw [exec_remqti hp he, (acquireRemqti_clear hacq hv).1 rfl, if_pos Iff.rfl, if_pos rfl]
    exact ev.removesNothing hp (found.trans ⟨ho, ha⟩) hd hr4 hb hrd hw

/-- Settles O26: step A reads the header's links, writes `addr` and sets the codes. -/
theorem removeFromEmptyResult : Obligations.RemoveFromEmptyResult := by
  intro a b s t h d i hp he hf hb hn ph hd hw hr hrd hi
  obtain ⟨ev, -, -, hpc, -⟩ := evalRemoval_ok he
  obtain ⟨w, ⟨only, alone⟩, hx⟩ := exec_removal_empty hp he hf hb hn ph hd hw hr hrd hi
  have psl : w.cpu.psl = s.cpu.psl := by
    rw [only]
    exact ev.psl
  have regs : ∀ n, w.reg n = t.reg n := fun n => by
    rw [only]
    rfl
  obtain ⟨value, mem, others, pc, whole⟩ := afterDest_setCC_frame (l := []) hpc psl
    (sameOutside_of_eq _ (only.mem.trans ev.mem)) h false true true false
  refine ⟨_, hx, value, mem, fun n hn hd => (others n hn hd).trans (regs n), pc.trans (regs pcReg), fun ho => ?_, ?_⟩
  · have ha : s.alone = true := by simp [State.alone, ho]
    exact ((afterDest_touched ..).trans (alone (ev.isAlone ho))).trans (ev.alone ha)
  · rw [setCC_touched, afterDest_touched]
    refine whole.trans ?_
    rw [only]

end Sys2Proof.Machine
end

section
/-! What a branch does to the state (spec/45_aux_branches.md R170 to R174): it writes the program counter and
nothing else. -/

namespace Sys2Proof.Machine

theorem branch_pc (taken : Bool) (d : BitVec 8) (s : State) :
    (branch taken d s).pc = if taken then s.pc + 2 + d.signExtend 32 else s.pc + 2 :=
  setPc_pc ..

theorem branch_reg_ne (taken : Bool) (d : BitVec 8) (s : State) {n : Reg} (h : n ≠ pcReg) :
    (branch taken d s).reg n = s.reg n :=
  setPc_reg_ne _ _ h

theorem branch_eq_with_regs (taken : Bool) (d : BitVec 8) (s : State) :
    branch taken d s = { s with cpu := { s.cpu with regs := (branch taken d s).cpu.regs } } :=
  rfl

/-- Settles O9: the four instructions are one `branch`, each with its own test of the condition codes. -/
theorem branches : Obligations.Branches := by
  intro d s i op taken h
  have isBranch : encode i = [op, d] ∧ exec i s = .next (branch taken d s) := by
    obtain ⟨rfl, rfl, rfl⟩ | ⟨rfl, rfl, rfl⟩ | ⟨rfl, rfl, rfl⟩ | ⟨rfl, rfl, rfl⟩ := h
    · exact ⟨rfl, rfl⟩
    · exact ⟨rfl, rfl⟩
    · exact ⟨rfl, rfl⟩
    · exact ⟨rfl, rfl⟩
  obtain ⟨encoded, answers⟩ := isBranch
  exact ⟨encoded, _, answers, branch_pc .., fun _ hn => branch_reg_ne _ _ _ hn, branch_eq_with_regs ..⟩

end Sys2Proof.Machine
end

section
/-! What a step leaves alone, and the faults of the instructions (spec/60_exceptions.md R182, R183, R188 to R190, R198):
the processors that do not move, the conditions found before a link is followed, and the state a fault carries. -/

namespace Sys2Proof.Machine

/-! ## The processors that do not move (R198) -/

/-- Settles O8: a processor's step leaves the others as they stood, and passing the turn permutes the processors. -/
theorem stepMovesOneProcessor : Obligations.StepMovesOneProcessor := by
  intro s u e
  obtain ⟨v, hv, rfl⟩ := step_next e
  obtain ⟨_, f⟩ := stepCpu_follows hv
  have moved : v.cpus = v.cpu :: s.others := congrArg (v.cpu :: ·) f.others
  exact ⟨v.cpu, moved ▸ nextTurn_perm v⟩

/-! ## Conditions found with the interlock clear (R182, R183, R188) -/

/-- Phase 2 on a header whose interlock is clear, where a condition of phases 1 and 2 holds: the instruction `i` raises
one of these or of its link conditions. `C` says what the conditions of phases 1 and 2 are, and `links` lists those of
`i`'s links. -/
theorem findsCondition {l : List Reg} {n : Nat} {s t : State} (ev : Evaluates l n s t) {header f : Word}
    (ph : s.probe header 8 .write = none) (hf : s.mem.read4 header = some f) (hi : interlockSet f = false)
    (hr : s.raceFree (some header) header = true) {early : List Exception} {C : Exception → Prop}
    (hC : ∀ x, x ∈ addCondition (conditionIf (field f 1 2 != 0) .reservedOperand) early ↔ C x)
    (hx : ∃ x, C x) {i : Instr} {links : Word → List Exception}
    (hL : ∀ x, x ∈ links f ↔ LinkCondition i t header f x) (k : Option Word × State → Res State) :
    ∃ x, (C x ∨ LinkCondition i s header f x) ∧
      afterStepA s (acquire header early links t >>= k) = .fault (.raised x s) := by
  obtain ⟨-, -, -, -, -, -, raises⟩ := acquire_raceFree (links := links) (early := early)
    ((ev.raceFree ..).trans hr) ((ev.probe ..).trans ph) (ev.mem ▸ hf)
  obtain ⟨y, hy⟩ := hx
  obtain ⟨x, hx, h⟩ := raises hi (List.ne_nil_of_mem ((hC y).2 hy))
  refine ⟨x, ?_, afterStepA_acquire_raises h k⟩
  rw [← ev.linkCondition, ← hC, ← hL]
  exact List.mem_append.1 hx

/-- Settles O29: INSQHI and INSQTI check the links of their own end of the queue, and phase 2 alike. -/
theorem insertionConditionFaults : Obligations.InsertionConditionFaults := by
  intro a b s t e h f i hi hp he ph hf hs hr hx
  have ev := (evalInsertion_ok he).1
  have hC : ∀ x, x ∈ addCondition (conditionIf (field f 1 2 != 0) .reservedOperand) (insertionConditions e h t) ↔
      InsertionCondition s e h f x := fun x => ev.insertionConditions e h ▸ mem_insertionSet
  obtain rfl | rfl := hi
  · rw [exec_insqhi hp he]
    exact findsCondition ev ph hf hs hr hC hx (fun _ => mem_insqhiLinks) _
  · rw [exec_insqti hp he]
    exact findsCondition ev ph hf hs hr hC hx (fun _ => mem_insqtiLinks) _

/-- Settles O30: REMQHI and REMQTI likewise. -/
theorem removalConditionFaults : Obligations.RemovalConditionFaults := by
  intro a b s t h f d i hi hp hd ph hf hs hr hx
  have ev := (evalRemoval_ok hd).1
  have hC : ∀ x, x ∈ addCondition (conditionIf (field f 1 2 != 0) .reservedOperand) (removalConditions h d t) ↔
      RemovalCondition s h d f x := fun x => ev.removalConditions h d ▸ mem_removalSet
  obtain rfl | rfl := hi
  · rw [exec_remqhi hp hd]
    exact findsCondition ev ph hf hs hr hC hx (fun _ => mem_remqhiLinks) _
  · rw [exec_remqti hp hd]
    exact findsCondition ev ph hf hs hr hC hx (fun _ => mem_remqtiLinks) _

/-! ## Precise faults (R189, R190) -/

/-- If the outcome is a fault, it is an exception of the machine and carries the state `left`. -/
def PreciseIn (left : State) (o : Host.Outcome State Fault Refusal) : Prop :=
  ∀ r, o = .fault r → ∃ x, r = .raised x left

theorem preciseIn_next (left u : State) : PreciseIn left (.next u) := fun _ e => by cases e

/-- A computation that reads no gap stops precisely. -/
theorem NoGap.preciseIn_stop {α : Type} {x : Res α} {stop : Stop} (h : NoGap x) (hx : x = .error stop) (left : State) :
    PreciseIn left (stop.outcome left) := by
  intro r e
  cases stop with
  | raise y =>
    cases e
    exact ⟨y, rfl⟩
  | noValue a => exact absurd hx (h a)
  | refuse _ => cases e

theorem NoGap.preciseIn_finish {x : Res State} (h : NoGap x) (left : State) : PreciseIn left (finish left x) := by
  cases hx : x with
  | ok u => exact preciseIn_next left u
  | error stop => exact h.preciseIn_stop hx left

theorem noGap_evalInsertion (dt : DataType) (a b : Specifier) (s : State) : NoGap (evalInsertion dt a b s) :=
  (noGap_evalAddress _ _ _).bind fun _ _ => (noGap_evalAddress _ _ _).bind fun _ _ => noGap_ok _

theorem noGap_evalRemoval (dt : DataType) (a b : Specifier) (s : State) : NoGap (evalRemoval dt a b s) :=
  (noGap_evalAddress _ _ _).bind fun _ _ => (noGap_evalDest _ _).bind fun _ _ => noGap_ok _

/-- Step A that holds the interlock, of a processor that is alone, has changed nothing else since the operands. -/
theorem Holds.between {start s t : State} {op : HeldOp} {header f : Word} (x : Holds start op header f s t)
    (ha : s.alone = true) : Between s t header f := by
  have unheld : Accesses (some header) s { t with cpu := { t.cpu with pending := s.cpu.pending } } :=
    ⟨x.follows.trans (follows_of_eq rfl rfl rfl rfl rfl rfl), x.regs, x.psl, rfl, x.draws, x.record⟩
  exact ⟨x.mem, congrArg (fun u : State => { u with mem := s.mem }) (unheld.eq_of_alone ha)⟩

/-- What makes faults precise of step A of an interlocked instruction, from the state `s` after its operands: it reads no
gap, memory holds the operands of what it leaves half done, and nothing is left half done but with its interlock held. -/
structure FaultsPrecisely (start s : State) (r : Res State) : Prop where
  noGap : NoGap r
  keeps : ∀ t, r = .ok t → KeepsDomain s t
  held : ∀ t p, r = .ok t → t.cpu.pending = some p → Holds start p.op p.header p.forward s t

/-- Such an instruction faults precisely: where its step B is taken at once, a fault of it undoes
step A. -/
theorem FaultsPrecisely.preciseIn {l : List Reg} {n : Nat} {s t : State} {r : Res State} (x : FaultsPrecisely s t r)
    (ev : Evaluates l n s t) (hw : s.mem.wf = true) (hp : s.cpu.pending = none) :
    PreciseIn s (afterStepA s r) := by
  unfold afterStepA
  split
  · exact x.noGap.preciseIn_stop rfl s
  · rename_i u
    split
    · exact preciseIn_next s u
    · rename_i p hq
      split
      case isFalse => exact preciseIn_next s u
      case isTrue ha =>
        have held := x.held u p rfl hq
        have hat : t.alone = true := held.follows.alone ▸ ha
        have hs : s.others = [] := List.isEmpty_iff.1 ((ev.follows none).alone.symm.trans hat)
        have undo : undoHeld p u = s := by
          rw [held.pending_eq hq]
          exact (held.between hat).undo ev hw hp hs (ev.mem ▸ held.read)
        intro y e
        obtain ⟨z, rfl⟩ | ⟨a, gap, -⟩ := stepB_fault e
        · exact ⟨z, by rw [undo]⟩
        · exact absurd gap (noGap_completeHeld ((x.keeps u rfl).mapped p hq) a)

section
variable {s : State} (hp : s.cpu.pending = none) (start : State) (e h : Word) (d : Dest)
include hp

theorem acquireInsqhi_faultsPrecisely : FaultsPrecisely start s (acquireInsqhi start e h s) where
  noGap := noGap_acquireInsqhi _ _ _ _
  keeps _ := acquireInsqhi_keeps hp
  held t p ht hq := by
    obtain found | ⟨-, f, held⟩ := acquireInsqhi_ok ht
    · exact absurd hq (found.not_pending hp)
    · exact held.pending_eq hq ▸ held

theorem acquireInsqti_faultsPrecisely : FaultsPrecisely start s (acquireInsqti start e h s) where
  noGap := noGap_acquireInsqti _ _ _ _
  keeps _ := acquireInsqti_keeps hp
  held t p ht hq := by
    obtain found | ⟨-, f, held⟩ := acquireInsqti_ok ht
    · exact absurd hq (found.not_pending hp)
    · exact held.pending_eq hq ▸ held

theorem acquireRemqhi_faultsPrecisely : FaultsPrecisely start s (acquireRemqhi start h d s) where
  noGap := noGap_acquireRemqhi _ _ _ _
  keeps _ := acquireRemqhi_keeps hp
  held t p ht hq := by
    obtain found | ⟨-, ⟨f, -, held⟩ | ⟨v, r, found⟩⟩ := acquireRemqhi_ok ht
    · exact absurd hq (found.not_pending hp)
    · exact held.pending_eq hq ▸ held
    · simp [found.writes.pending, r.pending, hp] at hq

theorem acquireRemqti_faultsPrecisely : FaultsPrecisely start s (acquireRemqti start h d s) where
  noGap := noGap_acquireRemqti _ _ _ _
  keeps _ := acquireRemqti_keeps hp
  held t p ht hq := by
    obtain found | ⟨-, ⟨f, b, -, -, -, -, held⟩ | ⟨v, r, found⟩⟩ := acquireRemqti_ok ht
    · exact absurd hq (found.not_pending hp)
    · exact held.pending_eq hq ▸ held
    · simp [found.writes.pending, r.pending, hp] at hq

end

section
variable {i : Instr} {a b : Specifier} {s : State} {dt : DataType}

/-- An insertion faults precisely if it does wherever its operands answer: they read no gap. -/
theorem preciseIn_of_insertion
    (hi : i = .insque a b ∧ dt = .byte ∨ s.cpu.pending = none ∧ dt = .quad ∧ (i = .insqhi a b ∨ i = .insqti a b))
    (h : ∀ x y t, evalInsertion dt a b s = .ok (x, y, t) → PreciseIn s (exec i s)) : PreciseIn s (exec i s) := by
  cases hx : evalInsertion dt a b s with
  | ok x => exact h _ _ _ hx
  | error stop => exact exec_insertion_stops hi hx ▸ (noGap_evalInsertion dt a b s).preciseIn_stop hx s

/-- A removal likewise. -/
theorem preciseIn_of_removal
    (hi : i = .remque a b ∧ dt = .byte ∨ s.cpu.pending = none ∧ dt = .quad ∧ (i = .remqhi a b ∨ i = .remqti a b))
    (h : ∀ x d t, evalRemoval dt a b s = .ok (x, d, t) → PreciseIn s (exec i s)) : PreciseIn s (exec i s) := by
  cases hx : evalRemoval dt a b s with
  | ok x => exact h _ _ _ hx
  | error stop => exact exec_removal_stops hi hx ▸ (noGap_evalRemoval dt a b s).preciseIn_stop hx s

end

/-- Settles O44: no instruction reads a gap, and a fault of step B taken at once undoes what step A has done. -/
theorem faultsArePrecise : Obligations.FaultsArePrecise := by
  intro i s r hw hp
  suffices PreciseIn s (exec i s) from this r
  cases i with
  | brb d | beql d | bvs d | bcs d => exact preciseIn_next s _
  | insque a b =>
    refine preciseIn_of_insertion (.inl ⟨rfl, rfl⟩) fun e p t hx => ?_
    rw [exec_insque hx]
    exact (noGap_insertAbsolute e p t).preciseIn_finish s
  | remque a b =>
    refine preciseIn_of_removal (.inl ⟨rfl, rfl⟩) fun e d t hx => ?_
    rw [exec_remque hx]
    exact (noGap_removeAbsolute e d t).preciseIn_finish s
  | insqhi a b =>
    refine preciseIn_of_insertion (.inr ⟨hp, rfl, .inl rfl⟩) fun e h t hx => ?_
    have ev := (evalInsertion_ok hx).1
    rw [exec_insqhi hp hx]
    exact (acquireInsqhi_faultsPrecisely (ev.pending.trans hp) s e h).preciseIn ev hw hp
  | insqti a b =>
    refine preciseIn_of_insertion (.inr ⟨hp, rfl, .inr rfl⟩) fun e h t hx => ?_
    have ev := (evalInsertion_ok hx).1
    rw [exec_insqti hp hx]
    exact (acquireInsqti_faultsPrecisely (ev.pending.trans hp) s e h).preciseIn ev hw hp
  | remqhi a b =>
    refine preciseIn_of_removal (.inr ⟨hp, rfl, .inl rfl⟩) fun h d t hx => ?_
    have ev := (evalRemoval_ok hx).1
    rw [exec_remqhi hp hx]
    exact (acquireRemqhi_faultsPrecisely (ev.pending.trans hp) s h d).preciseIn ev hw hp
  | remqti a b =>
    refine preciseIn_of_removal (.inr ⟨hp, rfl, .inr rfl⟩) fun h d t hx => ?_
    have ev := (evalRemoval_ok hx).1
    rw [exec_remqti hp hx]
    exact (acquireRemqti_faultsPrecisely (ev.pending.trans hp) s h d).preciseIn ev hw hp

end Sys2Proof.Machine
end

section
/-! The vectors of part 5 of spec/95_test_vectors.md: each is the encoding of the instruction it stands for. -/

namespace Sys2Proof

/-- The law of decoding an encoding, read from the side of the bytes. -/
theorem decode_of_eq_encode {i : Instr} {bytes : List Byte} (hw : i.wf = true) (he : bytes = encode i) :
    decode bytes = .ok (i, []) := by
  rw [he, ← List.append_nil (encode i)]
  exact decodeOfEncode i [] hw

/-- Settles O3: each vector is the whole encoding of a well-formed instruction, which the decoder gives back. -/
theorem decodeVectors : Obligations.DecodeVectors := by
  unfold Obligations.DecodeVectors
  and_intros <;> exact decode_of_eq_encode rfl rfl

end Sys2Proof
end
